-- ==== Sys2Proof/Word.lean ====
section
/-! DEFINITION. The word types of the spec: the byte, the 32-bit operand word, the 24-bit device
address, the 72-bit request word (30_encoding.md R90) and the 40-bit response word (R93). -/

namespace Sys2Proof

/-- One byte of a bus frame, a device byte or a status code. -/
abbrev Byte := BitVec 8

/-- A 32-bit operand, response value or transport error code. -/
abbrev Word := BitVec 32

/-- A 24-bit device address or preamble word (20_memory.md R50, 30_encoding.md R100). -/
abbrev Addr := BitVec 24

/-- A request word `REQ[71:0]` (30_encoding.md R90). -/
abbrev ReqWord := BitVec 72

/-- A response word `RSP[39:0]` (30_encoding.md R93). -/
abbrev RspWord := BitVec 40

/-- The number of device addresses (20_memory.md R50). -/
abbrev deviceSize : Nat := 2 ^ 24

end Sys2Proof
end

