-- ==== Sys2Proof/Config.lean ====
section
/-! DEFINITION. What an implementation fixes: the parameters of 00_scope.md R5 to R8, the reference
instance of R9, the small instance, and the free values of the environment (no body, so nothing in
Lean can evaluate one: log 5 and log 9). -/

namespace Sys2Proof

/-- The width of a pointer-register access, `PTR_XFER` (00_scope.md R7). -/
inductive Width where
  | w8
  | w16
  | w32
  deriving DecidableEq, Repr

/-- The parameters of the block (R5 to R7) and of the environment (R8). -/
structure Params where
  /-- `C`, the ring's size in bytes (R5). -/
  c : Nat
  /-- `M`, the reserved margin in bytes (R5). -/
  m : Nat
  /-- `RAM_CMD_BASE` (R6). -/
  ramCmdBase : Addr
  /-- `REG_CMD_WRITE` (R6). -/
  regCmdWrite : Addr
  /-- `REG_CMD_READ` (R6). -/
  regCmdRead : Addr
  /-- `REG_ID` (R6); no rule of the block uses it. -/
  regId : Addr
  /-- `CHIP_ID_EXPECT` (R6); no rule of the block uses it. The spec gives it no width: 32 bits, the
  width of a response value, is the model's DESIGN CHOICE (log 20). -/
  chipIdExpect : Word
  /-- `RD_MASK` (R7). -/
  rdMask : Addr
  /-- `WR_MASK` (R7). -/
  wrMask : Addr
  /-- `DIR_FIELD` (R7). -/
  dirField : Addr
  /-- `RD_DUMMY` (R7). -/
  rdDummy : Nat
  /-- `FILL` (R7). -/
  fill : Byte
  /-- `HC_PAD` (R7). -/
  hcPad : Byte
  /-- `PTR_XFER` (R7). -/
  ptrXfer : Width
  /-- `REG_READ_ATOMIC` (R8). -/
  regReadAtomic : Bool
  /-- `REG_WRITE_ATOMIC` (R8). -/
  regWriteAtomic : Bool
  /-- `DEV_RESET_PTRS` (R8). -/
  devResetPtrs : Word
  deriving DecidableEq, Repr

/-- The reference instance (R9). Only `C` and `M` are the source's; the other values are the
spec's reference values. -/
def Params.reference : Params where
  c := 4096
  m := 4
  ramCmdBase := 0x308000
  regCmdWrite := 0x3020FC
  regCmdRead := 0x3020F8
  regId := 0x302000
  chipIdExpect := 0x7C
  rdMask := 0x000000
  wrMask := 0x800000
  dirField := 0xC00000
  rdDummy := 1
  fill := 0x00
  hcPad := 0x00
  ptrXfer := .w32
  regReadAtomic := true
  regWriteAtomic := true
  devResetPtrs := 0

/-- The small instance of R9, `C = 8`, `M = 2`. -/
def Params.small : Params := { Params.reference with c := 8, m := 2 }

/-- The `n`-th free byte: a byte the transport returns where the spec calls it unspecified
(20_memory.md R71; 93_implementation_defined.md U6). FREE VALUE, log 9. -/
opaque Config.freeByte : Nat → Byte

/-- What a device byte that nothing has written holds (20_memory.md R70;
93_implementation_defined.md U7). FREE VALUE, log 5. -/
opaque Config.devMemInit : Nat → Byte

end Sys2Proof
end

