-- ==== Sys2Proof/Syntax.lean ====
section
/-! DEFINITION. The operations, whole: one constructor for each row of spec/opcode_table.json
(30_encoding.md R96, 40_framer.md R142), and the request and response that carry them.
An operand is the full 32-bit field of the request; the bits R92 ignores are dropped by the meaning. -/

namespace Sys2Proof

/-- The 24 operations of 30_encoding.md R96 and the four invalid-width codes of R98. -/
inductive Instr where
  /-- RD8 (40_framer.md R124): `a` address. -/
  | rd8 (a : Word)
  /-- RD16 (R125): `a` address. -/
  | rd16 (a : Word)
  /-- RD32 (R126): `a` address. -/
  | rd32 (a : Word)
  /-- WR8 (R127): `a` address, `d[7:0]` data. -/
  | wr8 (a d : Word)
  /-- WR16 (R128): `a` address, `d[15:0]` data. -/
  | wr16 (a d : Word)
  /-- WR32 (R129): `a` address, `d` data. -/
  | wr32 (a d : Word)
  /-- OPENRD (R130): `a` address. -/
  | openrd (a : Word)
  /-- OPENWR (R131): `a` address. -/
  | openwr (a : Word)
  /-- CLOSE (R132). -/
  | close
  /-- SRD8 (R133). -/
  | srd8
  /-- SRD16 (R134). -/
  | srd16
  /-- SRD32 (R135). -/
  | srd32
  /-- SRDBLK (R136): `d` byte count. -/
  | srdblk (d : Word)
  /-- SWR8 (R137): `d[7:0]` data. -/
  | swr8 (d : Word)
  /-- SWR16 (R138): `d[15:0]` data. -/
  | swr16 (d : Word)
  /-- SWR32 (R139): `d` data. -/
  | swr32 (d : Word)
  /-- SWRBLK (R140): `d` byte count, the bytes on `WDATA`. -/
  | swrblk (d : Word)
  /-- HOSTCMD (R141): `cmd` in `a[7:0]`, `param` in `d[7:0]`. -/
  | hostcmd (a d : Word)
  /-- FREE (41_ring_manager.md R152). -/
  | free
  /-- ADVANCE (R154): `d` is `n`. -/
  | advance (d : Word)
  /-- CURPTR (R156). -/
  | curptr
  /-- COMMIT (R158). -/
  | commit
  /-- WAITDRAIN (R160): `d` is the bound. -/
  | waitdrain (d : Word)
  /-- RINIT (R162). -/
  | rinit
  /-- Width code 3 of the self-scoped reads, `0x13` (40_framer.md R142). -/
  | invalidWidth13
  /-- Width code 3 of the self-scoped writes, `0x23`. -/
  | invalidWidth23
  /-- Width code 3 of the stream reads, `0x43`. -/
  | invalidWidth43
  /-- Width code 3 of the stream writes, `0x53`. -/
  | invalidWidth53
  deriving DecidableEq, Repr

/-- What crosses the request port: the 72-bit word and, for SWRBLK, the `WDATA` run
(10_state.md R28, R31). -/
structure Request where
  req : ReqWord
  wdata : List Byte
  deriving DecidableEq, Repr

/-- What crosses the response port: status and value (30_encoding.md R93) and, for SRDBLK, the
`RDATA` run (10_state.md R29, R31). -/
structure Response where
  status : Byte
  value : Word
  rdata : List Byte
  deriving DecidableEq, Repr

end Sys2Proof
end

