-- ==== Sys2Proof/Machine/State.lean ====
section
/-! DEFINITION. The whole system's state as plain data: the block (10_state.md R20), its ports
(R28 to R31), its configuration inputs (R32), the device and coprocessor of the environment model
(20_memory.md section 7), and the model's own fields for the inputs and the observation of R39. -/

namespace Sys2Proof.Machine

/-- `SCOPE` (10_state.md R25); the fourth code never occurs. -/
inductive Scope where
  | idle
  | wrOpen
  | rdOpen
  deriving DecidableEq, Repr

/-- Device bytes that have been written: (address, byte) pairs, addresses strictly rising (the
canonical form, `Memory.wf`). An unlisted address has no written byte. -/
abbrev Memory := List Host.Cell

/-- `phase` of the responder's frame decoder (20_memory.md R71). -/
inductive Phase where
  | off
  /-- `Pre(k, acc)`: `k` preamble bytes taken, `acc` their value. -/
  | pre (k : Nat) (acc : Addr)
  /-- `Dummy(k)`: `k` dummy bytes to come. -/
  | dummy (k : Nat)
  | rdData
  | wrData
  | other
  deriving DecidableEq, Repr

/-- The device: memory, pointer registers and frame decoder (20_memory.md R70 to R75). -/
structure Device where
  /-- `DevMem` but for the eight bytes of `WP` and `RP` (R70). -/
  mem : Memory
  /-- `WP`, the write-pointer register (R34 of 10_state.md, R70). -/
  wp : Word
  /-- `RP`, the read-pointer register, which the coprocessor moves (R34, R70, R74). -/
  rp : Word
  /-- `phase` (R71). -/
  phase : Phase
  /-- The cursor `cur` (R71, R72); `2^24` is the undefined position past the last address. -/
  cur : Nat
  /-- Bytes of `RP` latched for the read in progress (R73). -/
  latch : List Byte
  /-- `WP` as it was before the open frame stored into it; none while it has not (R73;
  41_ring_manager.md R158). -/
  wpOld : Option Word
  /-- Which bytes of `WP` the open frame has stored (41_ring_manager.md R158, U9; log 8). -/
  wpMask : BitVec 4
  /-- A data byte was exchanged with the cursor past the end: the device's data are unspecified
  from there on (R72, U11; log 7). -/
  lost : Bool
  deriving DecidableEq, Repr

/-- What one exchange of the transport port returned (00_scope.md R12). -/
inductive Answer where
  | ok (r : Byte)
  | err (e : Word)
  deriving DecidableEq, Repr

/-- One event of the transport trace (00_scope.md R12). -/
inductive Event where
  /-- `S1` and `S0`. -/
  | sel (on : Bool)
  /-- `b>r` and `b>ERR`. -/
  | xchg (out : Byte) (ans : Answer)
  deriving DecidableEq, Repr

/-- What becomes of a transport event (the oracle of 10_state.md R39). A `Sel` event cannot fail
(00_scope.md R12): it heeds `rst` alone. -/
inductive Link where
  /-- The exchange succeeds and the reference device answers (20_memory.md R71 to R73). -/
  | reply
  /-- The exchange succeeds and the block receives `r`, whatever the reference device would have
  answered (R39: the oracle is under no law). -/
  | replyWith (r : Byte)
  /-- The exchange returns `err(e)`; its byte reached the device or did not (R75, U8). -/
  | fail (e : Word) (delivered : Bool)
  /-- `RST` is asserted at this event (70_reset_and_hazards.md R211, U23); the byte in flight
  reached the device or did not. -/
  | rst (delivered : Bool)
  /-- The exchange never returns (60_exceptions.md R195, U24). -/
  | hang
  deriving DecidableEq, Repr

/-- What the environment does at one transport event: the coprocessor consumes `consume` bytes
before it (0: it does not step; R74), then the event meets `link`. -/
structure Turn where
  consume : Nat
  link : Link
  deriving DecidableEq, Repr

/-- What the outside presents to the machine between operations (10_state.md R28, R33;
20_memory.md R74; 70_reset_and_hazards.md R213). -/
inductive Input where
  /-- The requester presents a request. -/
  | request (r : Request)
  /-- `RST` is asserted and released. -/
  | rst
  /-- The coprocessor consumes `n` bytes. -/
  | coprocessor (n : Nat)
  /-- The device initialises itself (R8's `DEV_RESET_PTRS`; log 11). -/
  | deviceInit
  deriving DecidableEq, Repr

/-- The state. -/
structure State where
  /-- The configuration inputs, constant while the block runs (10_state.md R32; log 1). -/
  cfg : Params
  /-- `W` (R21): `PTRW` bits, as a number (log 4). -/
  w : Nat
  /-- `CW` (R22): `PTRW` bits, as a number. -/
  cw : Nat
  /-- `LF` (R23): `PTRW` bits, as a number. -/
  lf : Nat
  /-- `SCOPE` (R25). -/
  scope : Scope
  /-- `SEL` (R26). -/
  sel : Bool
  /-- `F` (R27). -/
  f : Bool
  /-- `FC` (R27). -/
  fc : Byte
  /-- `FI` (R27). -/
  fi : Word
  /-- `WDATA` of the request in progress (R31). -/
  wdata : List Byte
  /-- The response port: the response to the latest request, none until there is one (R29). -/
  rsp : Option Response
  /-- The device (20_memory.md R70 to R75). -/
  dev : Device
  /-- The model's own: how many free bytes have been drawn (log 9). -/
  draws : Nat
  /-- The model's own: what the environment does at each coming transport event; past the end of
  the list every exchange meets `Link.reply` and the coprocessor rests (log 3). -/
  turns : List Turn
  /-- The model's own: what the outside presents, in order (log 2). -/
  inputs : List Input
  /-- The model's own: the transport trace so far, oldest first (R39; log 10). -/
  trace : List Event
  /-- The model's own: the (request, response) pairs so far, oldest first (R39; log 10). -/
  served : List (Request × Response)
  deriving DecidableEq, Repr

/-- Why the machine stops for good. -/
inductive Fault where
  /-- Raised by any operation one of whose exchanges never returns: `stuck`
  (93_implementation_defined.md U24). Safe: the machine makes no step where the spec gives none. -/
  | transportNeverReturns
  deriving DecidableEq, Repr

/-- Why the model gives no meaning to a step. -/
inductive Refusal where
  /-- Raised by an arm of `exec` whose instruction has no meaning yet. Safe. -/
  | notModelled (mnemonic : String)
  /-- Raised by SWRBLK alone, where the `WDATA` run is not `d` bytes long: the port's contract
  excludes it and the spec says `refuse` (10_state.md R31, U22). Safe. -/
  | wdataLength
  deriving DecidableEq, Repr

/-- The device after its own initialisation: nothing written, both pointer registers at
`DEV_RESET_PTRS` (00_scope.md R8), no frame open. -/
def Device.initial (p : Params) : Device where
  mem := []
  wp := p.devResetPtrs
  rp := p.devResetPtrs
  phase := .off
  cur := 0
  latch := []
  wpOld := none
  wpMask := 0
  lost := false

/-- The block after reset (10_state.md R37) for the configuration `p`, beside a device that has
initialised itself, with no input presented. -/
def State.resetFor (p : Params) : State where
  cfg := p
  w := 0
  cw := 0
  lf := 0
  scope := .idle
  sel := false
  f := false
  fc := 0
  fi := 0
  wdata := []
  rsp := none
  dev := Device.initial p
  draws := 0
  turns := []
  inputs := []
  trace := []
  served := []

/-- The machine right after reset, at the reference instance (R37, 00_scope.md R9). -/
def State.reset : State := State.resetFor Params.reference

end Sys2Proof.Machine
end

