-- ==== Sys2Proof/WellFormed.lean ====
section
/-! DEFINITION. When a parameter tuple is an instance of the block (00_scope.md R5 to R7) and when a
request keeps the port's contract (10_state.md R31). Every operand is a full field of the request
word, so every `Instr` is well-formed as it stands. -/

namespace Sys2Proof

/-- The ranges of `C` and `M` (R5). -/
abbrev Params.ringSizeOk (p : Params) : Prop := p.m + 2 ≤ p.c ∧ p.c ≤ deviceSize

/-- `PTRW`, the width in bits of `W`, `CW` and `LF`: `ceil(log2 C)`, at least 1 (R5). -/
def Params.ptrw (p : Params) : Nat := if p.c ≤ 2 then 1 else Nat.log2 (p.c - 1) + 1

/-- The ring region fits the address space (R6). -/
abbrev Params.ringFits (p : Params) : Prop := p.ramCmdBase.toNat + p.c ≤ deviceSize

/-- Both pointer registers fit the address space (R6). -/
abbrev Params.regsFit (p : Params) : Prop :=
  p.regCmdWrite.toNat + 4 ≤ deviceSize ∧ p.regCmdRead.toNat + 4 ≤ deviceSize

/-- Two runs of addresses share no byte. -/
abbrev disjointRuns (a n b k : Nat) : Prop := a + n ≤ b ∨ b + k ≤ a

/-- The pointer registers are disjoint from each other and from the ring region (R6). -/
abbrev Params.regsDisjoint (p : Params) : Prop :=
  disjointRuns p.regCmdWrite.toNat 4 p.regCmdRead.toNat 4 ∧
  disjointRuns p.regCmdWrite.toNat 4 p.ramCmdBase.toNat p.c ∧
  disjointRuns p.regCmdRead.toNat 4 p.ramCmdBase.toNat p.c

/-- `RD_MASK ≠ WR_MASK`, both inside `DIR_FIELD` (R7). -/
abbrev Params.masksOk (p : Params) : Prop :=
  p.rdMask ≠ p.wrMask ∧ (p.rdMask ||| p.wrMask) &&& ~~~ p.dirField = 0

/-- The number of bits of a pointer-register access. -/
def Width.bits : Width → Nat
  | .w8 => 8
  | .w16 => 16
  | .w32 => 32

/-- `2^PTR_XFER ≥ C` (R7). -/
abbrev Params.xferWide (p : Params) : Prop := p.c ≤ 2 ^ p.ptrXfer.bits

/-- Every constraint of R5 to R7. -/
abbrev Params.wf (p : Params) : Prop :=
  p.ringSizeOk ∧ p.ringFits ∧ p.regsFit ∧ p.regsDisjoint ∧ p.masksOk ∧ p.xferWide

/-- The port's contract (10_state.md R31): SWRBLK brings exactly `d` bytes on `WDATA`, every other
request none. -/
abbrev Request.wf (r : Request) : Prop :=
  if r.req.extractLsb' 64 8 = 0x54 then r.wdata.length = (r.req.extractLsb' 0 32).toNat
  else r.wdata = []

end Sys2Proof
end

