-- ==== Sys2Proof/Machine/Operands.lean ====
section
/-! DEFINITION. Operand assembly (30_encoding.md R105), the two byte orders (20_memory.md R53, R54),
the preamble (R100, 40_framer.md R121), the response word (R93) and the ring arithmetic
(41_ring_manager.md R151). -/

namespace Sys2Proof.Machine

/-- The device address of an address operand: `a[23:0]` (20_memory.md R51). -/
def deviceAddr (a : Word) : Addr := a.setWidth 24

/-- Byte `i` of a value: bits `8i + 7 : 8i` (R53). -/
def byteOf (v : Word) (i : Nat) : Byte := v.extractLsb' (8 * i) 8

/-- A value with its byte `i` replaced (R53). -/
def withByte (v : Word) (i : Nat) (b : Byte) : Word :=
  (v &&& ~~~ ((0xFF : Word) <<< (8 * i))) ||| (b.setWidth 32 <<< (8 * i))

/-- The `k` payload bytes of a value, least significant first (R53, R105). -/
def payload (v : Word) (k : Nat) : List Byte := (List.range k).map (byteOf v)

/-- The value of received bytes, first byte least significant, zero-extended (R53, R105). -/
def leValue : List Byte → Word
  | [] => 0
  | b :: bs => (leValue bs <<< 8) ||| b.setWidth 32

/-- A 32-bit zero-extension of a ring register (`zext_32`, `ptr_32`; 00_scope.md R10,
41_ring_manager.md R150). -/
def zext32 (n : Nat) : Word := BitVec.ofNat 32 n

/-- The two directions of a frame (30_encoding.md R100). -/
inductive Dir where
  | rd
  | wr
  deriving DecidableEq, Repr

/-- The preamble word `P` (R100): the truncated address with the direction mask OR-ed on. -/
def preambleWord (p : Params) (dir : Dir) (a : Word) : Addr :=
  deviceAddr a ||| (match dir with | .rd => p.rdMask | .wr => p.wrMask)

/-- The three bytes of a 24-bit word, most significant first (20_memory.md R54). -/
def addrBytes (w : Addr) : List Byte :=
  [w.extractLsb' 16 8, w.extractLsb' 8 8, w.extractLsb' 0 8]

/-- What `Pre(dir, a)` sends (40_framer.md R121): the preamble and, for a read, the dummies. -/
def preamble (p : Params) (dir : Dir) (a : Word) : List Byte :=
  addrBytes (preambleWord p dir a) ++
    (match dir with | .rd => List.replicate p.rdDummy p.fill | .wr => [])

/-- The low byte of an operand: HOSTCMD's `cmd` and `param` (R105). -/
def lowByte (v : Word) : Byte := v.setWidth 8

/-- The number of bytes of a pointer-register access, `PTR_XFER / 8` (41_ring_manager.md R150). -/
def xferBytes (p : Params) : Nat :=
  match p.ptrXfer with
  | .w8 => 1
  | .w16 => 2
  | .w32 => 4

/-- `RSP[39:0]` (30_encoding.md R93). -/
def responseWord (r : Response) : RspWord := r.status ++ r.value

/-- `dist(R, W)` (41_ring_manager.md R151), over the integers. -/
def dist (p : Params) (r w : Nat) : Nat :=
  ((((r % p.c : Nat) : Int) + p.c - w - 1) % (p.c : Int)).toNat

/-- `free(R, W)` (R151): the distance less the margin, clamped at zero. -/
def freeSpace (p : Params) (r w : Nat) : Nat :=
  if p.m ≤ dist p r w then dist p r w - p.m else 0

/-- `next(W, n)` (R151). -/
def nextPtr (p : Params) (w n : Nat) : Nat := (w + n) % p.c

/-- `(x - y) mod C`, the ring distance from `y` to `x` (00_scope.md R10). -/
def ringDiff (p : Params) (x y : Nat) : Nat := (((x : Int) - y) % (p.c : Int)).toNat

end Sys2Proof.Machine
end

