-- ==== Sys2Proof/Machine/Device.lean ====
section
/-! DEFINITION. The environment's device: memory, the responder's frame decoder with its cursor
and latch, and the coprocessor's step (20_memory.md R70 to R75). -/

namespace Sys2Proof.Machine

/-- The byte a written address holds; none where nothing has been written. -/
def Memory.read (a : Nat) : Memory → Option Byte
  | [] => none
  | (k, v) :: rest => if k = a then some v else Memory.read a rest

/-- A write, keeping the addresses strictly rising. -/
def Memory.write (a : Nat) (b : Byte) : Memory → Memory
  | [] => [(a, b)]
  | (k, v) :: rest =>
    if a < k then (a, b) :: (k, v) :: rest
    else if a = k then (a, b) :: rest
    else (k, v) :: Memory.write a b rest

/-- The canonical form: addresses strictly rising, all of them device addresses. -/
abbrev Memory.wf (m : Memory) : Prop :=
  m.Pairwise (fun x y => x.1 < y.1) ∧ ∀ x ∈ m, x.1 < deviceSize

/-- The offset of an address inside a four-byte register, if it lies there. -/
def regOffset (base : Addr) (a : Nat) : Option Nat :=
  if base.toNat ≤ a ∧ a < base.toNat + 4 then some (a - base.toNat) else none

/-- One byte of `DevMem` (R70): the pointer registers at their addresses, little-endian; a written
byte; or the free initial content (log 5). None once the device's data are unspecified (log 7). -/
def Device.byteAt (p : Params) (d : Device) (a : Nat) : Option Byte :=
  if d.lost then none
  else match regOffset p.regCmdRead a with
    | some i => some (byteOf d.rp i)
    | none =>
      match regOffset p.regCmdWrite a with
      | some i => some (byteOf d.wp i)
      | none => some ((d.mem.read a).getD (Config.devMemInit a))

/-- `DevMem[a] <- b` (R72), remembering `WP` as it was before the frame's first byte of it (R73). -/
def Device.store (p : Params) (a : Nat) (b : Byte) (d : Device) : Device :=
  match regOffset p.regCmdRead a with
  | some i => { d with rp := withByte d.rp i b }
  | none =>
    match regOffset p.regCmdWrite a with
    | some i =>
      { d with
        wp := withByte d.wp i b
        wpOld := some (d.wpOld.getD d.wp)
        wpMask := d.wpMask ||| (1 <<< i) }
    | none => { d with mem := d.mem.write a b }

/-- Whether the open frame has stored every byte of a pointer access, the low `PTR_XFER / 8` bytes
of `WP` (U9; log 8). -/
def Device.wpWhole (p : Params) (d : Device) : Bool :=
  (List.range (xferBytes p)).all (fun i => d.wpMask.getLsbD i)

/-- The responder at `Sel(1)` (R71). -/
def Device.select (d : Device) : Device :=
  { d with phase := .pre 0 0, latch := [], wpOld := none, wpMask := 0 }

/-- What a COMMIT that failed makes of `WP` under `REG_WRITE_ATOMIC`: its old value where the frame
had not stored the whole register, else what it holds (41_ring_manager.md R158, U9; log 8). No other
frame and no reset touches `WP` so (R75; 70_reset_and_hazards.md R212). -/
def Device.settleWP (p : Params) (d : Device) : Device :=
  if p.regWriteAtomic && !d.wpWhole p then { d with wp := d.wpOld.getD d.wp } else d

/-- The responder at `Sel(0)` (R71): the frame ends, nothing stored changes (R75). -/
def Device.deselect (d : Device) : Device :=
  { d with phase := .off, latch := [], wpOld := none, wpMask := 0 }

/-- The four bytes of `RP`, latched when a read frame starts at `REG_CMD_READ` (R73). -/
def Device.latchFor (p : Params) (d : Device) (cur : Addr) : List Byte :=
  if p.regReadAtomic && cur == p.regCmdRead then payload d.rp 4 else []

/-- The third preamble byte fixes direction and cursor (R71). -/
def Device.enterFrame (p : Params) (w : Addr) (d : Device) : Device :=
  let cur := w &&& ~~~ p.dirField
  if w &&& p.dirField = p.wrMask then
    { d with phase := .wrData, cur := cur.toNat }
  else if w &&& p.dirField = p.rdMask then
    { d with
      phase := if 0 < p.rdDummy then .dummy p.rdDummy else .rdData
      cur := cur.toNat
      latch := d.latchFor p cur }
  else { d with phase := .other }

/-- A data byte for the block (R72, R73); none where the spec leaves it unspecified. Reading has no
side effect in the device at any address, the environment's choice (R59; log 22). -/
def Device.readData (p : Params) (d : Device) : Device × Option Byte :=
  if d.lost || decide (deviceSize ≤ d.cur) then ({ d with lost := true }, none)
  else match d.latch with
    | r :: rest => ({ d with cur := d.cur + 1, latch := rest }, some r)
    | [] => ({ d with cur := d.cur + 1 }, d.byteAt p d.cur)

/-- A data byte from the block (R72). -/
def Device.writeData (p : Params) (b : Byte) (d : Device) : Device :=
  if d.lost || decide (deviceSize ≤ d.cur) then { d with lost := true }
  else { d.store p d.cur b with cur := d.cur + 1 }

/-- The responder at `Xchg(b)` (R71, R72): the device after it and the byte it answers, none where
the spec calls that byte unspecified. -/
def Device.exchange (p : Params) (b : Byte) (d : Device) : Device × Option Byte :=
  match d.phase with
  | .off => (d, none)
  | .pre k acc =>
    let acc' := (acc <<< 8) ||| b.setWidth 24
    if k < 2 then ({ d with phase := .pre (k + 1) acc' }, none) else (d.enterFrame p acc', none)
  | .dummy k => ({ d with phase := if 1 < k then .dummy (k - 1) else .rdData }, none)
  | .rdData => d.readData p
  | .wrData => (d.writeData p b, none)
  | .other => (d, none)

/-- When the coprocessor may consume `n` bytes (R74), under `REG_WRITE_ATOMIC` only while no frame
that has stored into `WP` is open (R73). -/
def Device.mayConsume (p : Params) (n : Nat) (d : Device) : Bool :=
  d.rp != d.wp && decide (d.wp.toNat < p.c) && decide (1 ≤ n) &&
    decide (n ≤ ringDiff p d.wp.toNat d.rp.toNat) && !(p.regWriteAtomic && d.wpOld.isSome)

/-- One step of the coprocessor (R74): `RP <- (RP + n) mod C` where it may, else nothing. -/
def Device.consume (p : Params) (n : Nat) (d : Device) : Device :=
  if d.mayConsume p n then { d with rp := BitVec.ofNat 32 ((d.rp.toNat + n) % p.c) } else d
end Sys2Proof.Machine
end

