-- ==== Sys2Proof/Machine/Flags.lean ====
section
/-! DEFINITION. The status and fault codes (60_exceptions.md R180, R181), the code of `SCOPE`
(10_state.md R20) and the scope each operation requires (60_exceptions.md R184). -/

namespace Sys2Proof.Machine

/-- OK (R180). -/
def statusOk : Byte := 0x00
/-- DRAIN_TIMEOUT (R180). -/
def statusDrainTimeout : Byte := 0x01
/-- TRANSPORT_FAILURE (R180). -/
def statusTransportFailure : Byte := 0x02
/-- DEVICE_NOT_DETECTED (R180): reserved, never produced by the block. -/
def statusDeviceNotDetected : Byte := 0x03
/-- FAULTED (R181, R189). -/
def statusFaulted : Byte := 0x80
/-- INVALID_WIDTH (R181). -/
def faultInvalidWidth : Byte := 0x81
/-- ADVANCE_OVERRUN (R181). -/
def faultAdvanceOverrun : Byte := 0x82
/-- SCOPE_VIOLATION (R181). -/
def faultScopeViolation : Byte := 0x83
/-- RESERVED_OP (R181). -/
def faultReservedOp : Byte := 0x84

/-- `zext_32(SCOPE)` (10_state.md R20): 0, 1 or 2. -/
def scopeCode : Scope → Word
  | .idle => 0
  | .wrOpen => 1
  | .rdOpen => 2

/-- First row of R184: the operations that assert the line themselves. -/
def needsIdle : Scope → Bool
  | .idle => true
  | .wrOpen => false
  | .rdOpen => false

/-- CLOSE's row of R184. -/
def needsOpen : Scope → Bool
  | .idle => false
  | .wrOpen => true
  | .rdOpen => true

/-- The stream reads' row of R184. -/
def needsRdOpen : Scope → Bool
  | .idle => false
  | .wrOpen => false
  | .rdOpen => true

/-- The stream writes' row of R184. -/
def needsWrOpen : Scope → Bool
  | .idle => false
  | .wrOpen => true
  | .rdOpen => false

/-- ADVANCE, CURPTR, RINIT: any scope (R184). -/
def anyScope : Scope → Bool
  | .idle => true
  | .wrOpen => true
  | .rdOpen => true

end Sys2Proof.Machine
end

