-- ==== Sys2Proof/Machine/Ops.lean ====
section
/-! DEFINITION. The shared operations of every instruction: the response (00_scope.md R14), the
selection line (R12), fault entry (60_exceptions.md R188) with, beside it, its only way out, the
reset event (70_reset_and_hazards.md R211), and the prologue (60_exceptions.md R187). -/

namespace Sys2Proof.Machine

/-- What a step or a meaning answers. -/
abbrev Out := Host.Outcome State Fault Refusal

/-- The operation ends with the response `(status, value)` and `RDATA` (R14). -/
def respond (status : Byte) (value : Word) (rdata : List Byte) (s : State) : State :=
  { s with rsp := some ⟨status, value, rdata⟩ }

/-- One more event in the transport trace (R12). -/
def record (e : Event) (s : State) : State := { s with trace := s.trace ++ [e] }

/-- `Sel(on)` (R12): the line, the register `SEL` and the responder's `phase` (20_memory.md R71). -/
def setSel (on : Bool) (s : State) : State :=
  record (.sel on)
    { s with
      sel := on
      dev := if on then s.dev.select else s.dev.deselect }

/-- `Sel(0)` where the line is asserted. -/
def dropLine (s : State) : State := if s.sel then setSel false s else s

/-- Fault entry (R188): `F`, `FC`, `FI`, the line released and the scope closed if one was open,
the response `(code, info)`. One indivisible step. -/
def raiseFault (code : Byte) (info : Word) (s : State) : State :=
  let t := if s.scope = .idle then s else { setSel false s with scope := .idle }
  respond code info [] { t with f := true, fc := code, fi := info }

/-- The reset event (R211): the line drops if it was asserted, every register takes its reset
value (10_state.md R37), the ports hold nothing (R210); the device is not touched otherwise (R212). -/
def resetBlock (s : State) : State :=
  { dropLine s with
    w := 0
    cw := 0
    lf := 0
    scope := .idle
    f := false
    fc := 0
    fi := 0
    wdata := []
    rsp := none }

/-- The answer of the faulted state (R189): `(0x80, zext_32(FC))` and nothing else. -/
def answerFaulted (s : State) : State := respond statusFaulted (s.fc.setWidth 32) [] s

/-- `Prologue(req)` for a decoded operation (R187 steps 1 and 4; steps 2 and 3 are the decoder's
and `raiseEncoding`'s): the faulted answer, the scope check, then the operation's own rule. -/
def prologue (allowed : Scope → Bool) (s : State) (body : Out) : Out :=
  if s.f then .next (answerFaulted s)
  else if allowed s.scope then body
  else .next (raiseFault faultScopeViolation (scopeCode s.scope) s)

/-- R187 steps 1 to 3 for an encoding that is no operation: the faulted answer or the fault. -/
def raiseEncoding (code : Byte) (op : Byte) (s : State) : Out :=
  if s.f then .next (answerFaulted s) else .next (raiseFault code (op.setWidth 32) s)

end Sys2Proof.Machine
end

