-- ==== Sys2Proof/Machine/Encodings.lean ====
section
/-! DEFINITION. The encodings that are no operation: the four invalid-width codes (40_framer.md
R142) and the reserved codes (60_exceptions.md R185). -/

namespace Sys2Proof.Machine

/-- Code `0x13` (R142). -/
def execInvalidWidth13 (s : State) : Out := raiseEncoding faultInvalidWidth 0x13 s

/-- Code `0x23` (R142). -/
def execInvalidWidth23 (s : State) : Out := raiseEncoding faultInvalidWidth 0x23 s

/-- Code `0x43` (R142): checked before the scope. -/
def execInvalidWidth43 (s : State) : Out := raiseEncoding faultInvalidWidth 0x43 s

/-- Code `0x53` (R142): checked before the scope. -/
def execInvalidWidth53 (s : State) : Out := raiseEncoding faultInvalidWidth 0x53 s

/-- A reserved code (R185). -/
def execReserved (op : Byte) (s : State) : Out := raiseEncoding faultReservedOp op s

end Sys2Proof.Machine
end

