-- ==== Sys2Proof/Machine/Transport.lean ====
section
/-! DEFINITION. The transport port: one event at a time, each meeting the environment's next turn
(00_scope.md R12, 10_state.md R30, R39), the frames built from them (30_encoding.md R100 to R104,
40_framer.md R121 to R123) and the transport-failure clause (60_exceptions.md R186). -/

namespace Sys2Proof.Machine

/-- The environment's next turn; a healthy exchange and a resting coprocessor past the end of the
list (log 3). -/
def nextTurn (s : State) : Turn := s.turns.headD ⟨0, .reply⟩

/-- The turn is taken: the coprocessor steps as it says (20_memory.md R74). -/
def takeTurn (s : State) : State :=
  { s with turns := s.turns.tail, dev := s.dev.consume s.cfg (nextTurn s).consume }

/-- The byte reaches the device's responder (20_memory.md R71). -/
def deliver (b : Byte) (s : State) : State := { s with dev := (s.dev.exchange s.cfg b).1 }

/-- The byte in flight of an exchange that failed or was cut: delivered or not, the device unchanged
otherwise (R75, U8). -/
def cutExchange (b : Byte) (delivered : Bool) (s : State) : State :=
  if delivered then deliver b s else s

/-- Why a run of transport events stopped early. -/
inductive Stop where
  /-- `err(e)` (R12). -/
  | err (e : Word)
  /-- `RST` (70_reset_and_hazards.md R211); the state is the one after the reset event. -/
  | rst
  /-- The exchange never returns (U24). -/
  | hang
  deriving DecidableEq, Repr

/-- A run of transport events: the bytes received, and the state. -/
inductive Bus where
  | ok (got : List Byte) (s : State)
  | stop (why : Stop) (got : List Byte) (s : State)
  deriving DecidableEq, Repr

/-- `Sel(on)` as a transport event of an operation: it cannot fail (R12), but `RST` may come first. -/
def selEvent (on : Bool) (s : State) : Bus :=
  match (nextTurn s).link with
  | .rst _ => .stop .rst [] (resetBlock (takeTurn s))
  | .reply => .ok [] (setSel on (takeTurn s))
  | .replyWith _ => .ok [] (setSel on (takeTurn s))
  | .fail _ _ => .ok [] (setSel on (takeTurn s))
  | .hang => .ok [] (setSel on (takeTurn s))

/-- The reference device answers (R71 to R73); where it leaves the byte unspecified, the byte is a
free value (U6, log 9). -/
def replyOf (b : Byte) (s : State) : Bus :=
  match (s.dev.exchange s.cfg b).2 with
  | some r => .ok [r] (record (.xchg b (.ok r)) (deliver b s))
  | none =>
    let r := Config.freeByte s.draws
    .ok [r] (record (.xchg b (.ok r)) { deliver b s with draws := s.draws + 1 })

/-- `Xchg(b)` (R12). -/
def xchg (b : Byte) (s0 : State) : Bus :=
  let s := takeTurn s0
  match (nextTurn s0).link with
  | .reply => replyOf b s
  | .replyWith r => .ok [r] (record (.xchg b (.ok r)) (deliver b s))
  | .fail e delivered => .stop (.err e) [] (record (.xchg b (.err e)) (cutExchange b delivered s))
  | .rst delivered => .stop .rst [] (resetBlock (cutExchange b delivered s))
  | .hang => .stop .hang [] s

/-- The bytes received earlier stand before those of a later run. -/
def Bus.after (earlier : List Byte) : Bus → Bus
  | .ok got s => .ok (earlier ++ got) s
  | .stop why got s => .stop why (earlier ++ got) s

/-- What an exchange that failed leaves behind, before the operation goes on with its failure. -/
def Bus.onErr (settle : State → State) : Bus → Bus
  | .ok got s => .ok got s
  | .stop (.err e) got s => .stop (.err e) got (settle s)
  | .stop .rst got s => .stop .rst got s
  | .stop .hang got s => .stop .hang got s

/-- One run of events after another. -/
def Bus.bind (x : Bus) (next : State → Bus) : Bus :=
  match x with
  | .ok got s => (next s).after got
  | .stop why got s => .stop why got s

/-- `XchgMany` (R12): the exchanges in order, stopping at the first that fails. -/
def burst : List Byte → State → Bus
  | [], s => .ok [] s
  | b :: bs, s => (xchg b s).bind (burst bs)

/-- A self-scoped frame (30_encoding.md R101, R102, R104): `Sel(1)`, the bytes, `Sel(0)`. -/
def frame (out : List Byte) (s : State) : Bus :=
  ((selEvent true s).bind (burst out)).bind (selEvent false)

/-- The opening of a caller-held scope (40_framer.md R130, R131): `Sel(1)` and the bytes. -/
def openFrame (out : List Byte) (s : State) : Bus := (selEvent true s).bind (burst out)

/-- The bytes a read transaction sends (40_framer.md R121, R122). -/
def readFrameBytes (p : Params) (a : Word) (k : Nat) : List Byte :=
  preamble p .rd a ++ List.replicate k p.fill

/-- The bytes a write transaction sends (40_framer.md R121, R123). -/
def writeFrameBytes (p : Params) (a v : Word) (k : Nat) : List Byte :=
  preamble p .wr a ++ payload v k

/-- `ReadTxn(a, k)` (40_framer.md R122), its received bytes being those of preamble, dummies and
payload. -/
def readTxn (a : Word) (k : Nat) (s : State) : Bus := frame (readFrameBytes s.cfg a k) s

/-- The value a read transaction returns (R122): the payload bytes, little-endian. -/
def readValue (p : Params) (a : Word) (got : List Byte) : Word :=
  leValue (got.drop (preamble p .rd a).length)

/-- `WriteTxn(a, v, k)` (40_framer.md R123). -/
def writeTxn (a v : Word) (k : Nat) (s : State) : Bus := frame (writeFrameBytes s.cfg a v k) s

/-- A run of events ended one way or the other, in an operation that asserted the line itself
(60_exceptions.md R186): on `err(e)` the line is released, the scope is idle, the response is
`(0x02, e)`. -/
def endOwned (x : Bus) (ok : List Byte → State → State) : Out :=
  match x with
  | .ok got s => .next (ok got s)
  | .stop (.err e) _ s =>
    match selEvent false s with
    | .ok _ t => .next (respond statusTransportFailure e [] { t with scope := .idle })
    | .stop _ _ t => .next t
  | .stop .rst _ s => .next s
  | .stop .hang _ _ => .fault .transportNeverReturns

/-- The same in a stream operation (R186): on `err(e)` the caller's scope stays open, and the bytes
received before it are `rdata` of them. -/
def endStream (x : Bus) (rdata : List Byte → List Byte) (ok : List Byte → State → State) : Out :=
  match x with
  | .ok got s => .next (ok got s)
  | .stop (.err e) got s => .next (respond statusTransportFailure e (rdata got) s)
  | .stop .rst _ s => .next s
  | .stop .hang _ _ => .fault .transportNeverReturns

end Sys2Proof.Machine
end

