-- ==== Sys2Proof/Machine/Ring.lean ====
section
/-! DEFINITION. The ring manager: FREE, ADVANCE, CURPTR, COMMIT, WAITDRAIN, RINIT
(41_ring_manager.md R152 to R162). -/

namespace Sys2Proof.Machine

/-- `REG_CMD_READ` as an address operand. -/
def readPtrAddr (p : Params) : Word := p.regCmdRead.setWidth 32

/-- `REG_CMD_WRITE` as an address operand. -/
def writePtrAddr (p : Params) : Word := p.regCmdWrite.setWidth 32

/-- `ReadTxn(REG_CMD_READ, PTR_XFER/8)` (R150). -/
def readPtrTxn (s : State) : Bus := readTxn (readPtrAddr s.cfg) (xferBytes s.cfg) s

/-- The value such a transaction returns. -/
def readPtrValue (p : Params) (got : List Byte) : Word := readValue p (readPtrAddr p) got

/-- FREE (R152). -/
def execFree (s : State) : Out :=
  prologue needsIdle s
    (endOwned (readPtrTxn s) (fun got t =>
      let f := freeSpace s.cfg (readPtrValue s.cfg got).toNat t.w
      respond statusOk (zext32 f) [] { t with lf := f }))

/-- ADVANCE (R154). -/
def execAdvance (d : Word) (s : State) : Out :=
  prologue anyScope s
    (if s.lf < d.toNat then .next (raiseFault faultAdvanceOverrun d s)
     else .next (respond statusOk 0 []
      { s with w := nextPtr s.cfg s.w d.toNat, lf := s.lf - d.toNat }))

/-- CURPTR (R156). -/
def execCurptr (s : State) : Out :=
  prologue anyScope s (.next (respond statusOk (zext32 s.w) [] s))

/-- The device's write pointer after the write of a COMMIT failed (R158, U9; log 8). -/
def settleCommit (s : State) : State := { s with dev := s.dev.settleWP s.cfg }

/-- `WriteTxn(REG_CMD_WRITE, ptr_32(W), PTR_XFER/8)` (R158). -/
def commitTxn (s : State) : Bus :=
  (writeTxn (writePtrAddr s.cfg) (zext32 s.w) (xferBytes s.cfg) s).onErr settleCommit

/-- COMMIT (R158): `CW <- W` only once the write is complete. -/
def execCommit (s : State) : Out :=
  prologue needsIdle s
    (endOwned (commitTxn s) (fun _ t => respond statusOk 0 [] { t with cw := t.w }))

/-- WAITDRAIN's loop (R160) with `left` re-polls still allowed and `i` made. -/
def pollLoop (left : Nat) (i : Nat) (s : State) : Out :=
  match readPtrTxn s with
  | .ok got t =>
    let r := readPtrValue s.cfg got
    if r = zext32 t.cw then .next (respond statusOk (zext32 i) [] t)
    else match left with
      | 0 => .next (respond statusDrainTimeout r [] t)
      | n + 1 => pollLoop n (i + 1) t
  | .stop why got t => endOwned (.stop why got t) (fun _ t => t)

/-- WAITDRAIN (R160): at most `bound` re-polls after the first probe. -/
def execWaitdrain (d : Word) (s : State) : Out :=
  prologue needsIdle s (pollLoop d.toNat 0 s)

/-- RINIT (R162). -/
def execRinit (s : State) : Out :=
  prologue anyScope s (.next (respond statusOk 0 [] { s with w := 0, cw := 0, lf := 0 }))

end Sys2Proof.Machine
end

