-- ==== Sys2Proof/Machine/Scoped.lean ====
section
/-! DEFINITION. Caller-held scopes: OPENRD, OPENWR, CLOSE (40_framer.md R130 to R132), the stream
reads SRD8, SRD16, SRD32, SRDBLK (R133 to R136) and the stream writes SWR8, SWR16, SWR32, SWRBLK
(R137 to R140). -/

namespace Sys2Proof.Machine

/-- `Prologue({IDLE}); Sel(1); Pre(dir, a); SCOPE <- opened; return (0x00, 0)`. -/
def openOp (dir : Dir) (opened : Scope) (a : Word) (s : State) : Out :=
  prologue needsIdle s
    (endOwned (openFrame (preamble s.cfg dir a) s)
      (fun _ t => respond statusOk 0 [] { t with scope := opened }))

/-- OPENRD (R130). -/
def execOpenrd (a : Word) (s : State) : Out := openOp .rd .rdOpen a s

/-- OPENWR (R131). -/
def execOpenwr (a : Word) (s : State) : Out := openOp .wr .wrOpen a s

/-- CLOSE (R132): `Sel(0); SCOPE <- IDLE; return (0x00, 0)`. -/
def execClose (s : State) : Out :=
  prologue needsOpen s
    (endOwned (selEvent false s) (fun _ t => respond statusOk 0 [] { t with scope := .idle }))

/-- `Prologue({RD_OPEN}); k exchanges of FILL; return (0x00, the value received)`. -/
def streamRead (k : Nat) (s : State) : Out :=
  prologue needsRdOpen s
    (endStream (burst (List.replicate k s.cfg.fill) s) (fun _ => [])
      (fun got t => respond statusOk (leValue got) [] t))

/-- SRD8 (R133). -/
def execSrd8 (s : State) : Out := streamRead 1 s

/-- SRD16 (R134). -/
def execSrd16 (s : State) : Out := streamRead 2 s

/-- SRD32 (R135). -/
def execSrd32 (s : State) : Out := streamRead 4 s

/-- SRDBLK (R136): `L` exchanges of `FILL`; `RDATA` holds the bytes received, also on a failure. -/
def execSrdblk (d : Word) (s : State) : Out :=
  prologue needsRdOpen s
    (endStream (burst (List.replicate d.toNat s.cfg.fill) s) (fun got => got)
      (fun got t => respond statusOk d got t))

/-- Exchange the bytes; `return (0x00, 0)`. -/
def sendBytes (out : List Byte) (s : State) : Out :=
  endStream (burst out s) (fun _ => []) (fun _ t => respond statusOk 0 [] t)

/-- `Prologue({WR_OPEN})`, then the bytes. -/
def streamWrite (out : List Byte) (s : State) : Out := prologue needsWrOpen s (sendBytes out s)

/-- SWR8 (R137). -/
def execSwr8 (d : Word) (s : State) : Out := streamWrite (payload d 1) s

/-- SWR16 (R138). -/
def execSwr16 (d : Word) (s : State) : Out := streamWrite (payload d 2) s

/-- SWR32 (R139). -/
def execSwr32 (d : Word) (s : State) : Out := streamWrite (payload d 4) s

/-- SWRBLK (R140): the bytes of `WDATA`, of which there are `L` by the port's contract
(10_state.md R31); a run of another length is refused (U22). -/
def execSwrblk (d : Word) (s : State) : Out :=
  prologue needsWrOpen s
    (if s.wdata.length = d.toNat then sendBytes s.wdata s else .refused .wdataLength)

end Sys2Proof.Machine
end

