-- ==== Sys2Proof/Machine/SelfScoped.lean ====
section
/-! DEFINITION. The self-scoped framer operations: RD8, RD16, RD32 (40_framer.md R124 to R126), WR8,
WR16, WR32 (R127 to R129) and HOSTCMD (R141). -/

namespace Sys2Proof.Machine

/-- `Prologue({IDLE}); v <- ReadTxn(a, k); return (0x00, v)`. -/
def readOp (a : Word) (k : Nat) (s : State) : Out :=
  prologue needsIdle s
    (endOwned (readTxn a k s) (fun got t => respond statusOk (readValue s.cfg a got) [] t))

/-- `Prologue({IDLE}); WriteTxn(a, v, k); return (0x00, 0)`. -/
def writeOp (a v : Word) (k : Nat) (s : State) : Out :=
  prologue needsIdle s (endOwned (writeTxn a v k s) (fun _ t => respond statusOk 0 [] t))

/-- RD8 (R124). -/
def execRd8 (a : Word) (s : State) : Out := readOp a 1 s

/-- RD16 (R125). -/
def execRd16 (a : Word) (s : State) : Out := readOp a 2 s

/-- RD32 (R126). -/
def execRd32 (a : Word) (s : State) : Out := readOp a 4 s

/-- WR8 (R127). -/
def execWr8 (a d : Word) (s : State) : Out := writeOp a d 1 s

/-- WR16 (R128). -/
def execWr16 (a d : Word) (s : State) : Out := writeOp a d 2 s

/-- WR32 (R129). -/
def execWr32 (a d : Word) (s : State) : Out := writeOp a d 4 s

/-- The three bytes of a host-command frame (30_encoding.md R104). -/
def hostFrameBytes (p : Params) (a d : Word) : List Byte := [lowByte a, lowByte d, p.hcPad]

/-- HOSTCMD (R141): its effect on the device beyond the frame is not modelled (log 11). -/
def execHostcmd (a d : Word) (s : State) : Out :=
  prologue needsIdle s
    (endOwned (frame (hostFrameBytes s.cfg a d) s) (fun _ t => respond statusOk 0 [] t))

end Sys2Proof.Machine
end

