-- ==== Sys2Proof/Machine/Dispatch.lean ====
section
/-! DEFINITION. One arm per operation, each one call of its meaning. -/

namespace Sys2Proof.Machine

def exec (i : Instr) (s : State) : Host.Outcome State Fault Refusal :=
  match i with
  | .rd8 a => Sys2Proof.Machine.execRd8 a s
  | .rd16 a => Sys2Proof.Machine.execRd16 a s
  | .rd32 a => Sys2Proof.Machine.execRd32 a s
  | .wr8 a d => Sys2Proof.Machine.execWr8 a d s
  | .wr16 a d => Sys2Proof.Machine.execWr16 a d s
  | .wr32 a d => Sys2Proof.Machine.execWr32 a d s
  | .openrd a => Sys2Proof.Machine.execOpenrd a s
  | .openwr a => Sys2Proof.Machine.execOpenwr a s
  | .close => Sys2Proof.Machine.execClose s
  | .srd8 => Sys2Proof.Machine.execSrd8 s
  | .srd16 => Sys2Proof.Machine.execSrd16 s
  | .srd32 => Sys2Proof.Machine.execSrd32 s
  | .srdblk d => Sys2Proof.Machine.execSrdblk d s
  | .swr8 d => Sys2Proof.Machine.execSwr8 d s
  | .swr16 d => Sys2Proof.Machine.execSwr16 d s
  | .swr32 d => Sys2Proof.Machine.execSwr32 d s
  | .swrblk d => Sys2Proof.Machine.execSwrblk d s
  | .hostcmd a d => Sys2Proof.Machine.execHostcmd a d s
  | .free => Sys2Proof.Machine.execFree s
  | .advance d => Sys2Proof.Machine.execAdvance d s
  | .curptr => Sys2Proof.Machine.execCurptr s
  | .commit => Sys2Proof.Machine.execCommit s
  | .waitdrain d => Sys2Proof.Machine.execWaitdrain d s
  | .rinit => Sys2Proof.Machine.execRinit s
  | .invalidWidth13 => Sys2Proof.Machine.execInvalidWidth13 s
  | .invalidWidth23 => Sys2Proof.Machine.execInvalidWidth23 s
  | .invalidWidth43 => Sys2Proof.Machine.execInvalidWidth43 s
  | .invalidWidth53 => Sys2Proof.Machine.execInvalidWidth53 s

end Sys2Proof.Machine
end

