-- ==== Sys2Proof/Decode.lean ====
section
/-! DEFINITION. The request word's decoder (30_encoding.md R90, R96 to R99), total on every 72-bit
word, and after it the encoder (R107: zero in every unused field). -/

namespace Sys2Proof

/-- What a request word decodes to (R99): an operation or an invalid-width code, or a reserved
code, by its number. -/
inductive Decoded where
  | instr (i : Instr)
  | reserved (op : Byte)
  deriving DecidableEq, Repr

/-- `REQ[71:64]` (R90). -/
def opField (r : ReqWord) : Byte := r.extractLsb' 64 8

/-- `REQ[63:32]`, the operand `a` (R90). -/
def aField (r : ReqWord) : Word := r.extractLsb' 32 32

/-- `REQ[31:0]`, the operand `d` (R90). -/
def dField (r : ReqWord) : Word := r.extractLsb' 0 32

/-- The opcode map (R96, R98) over the three fields; a code in neither table is reserved (R97). -/
def decodeFields (op : Byte) (a d : Word) : Decoded :=
  match op.toNat with
  | 0x10 => .instr (.rd8 a)
  | 0x11 => .instr (.rd16 a)
  | 0x12 => .instr (.rd32 a)
  | 0x13 => .instr .invalidWidth13
  | 0x20 => .instr (.wr8 a d)
  | 0x21 => .instr (.wr16 a d)
  | 0x22 => .instr (.wr32 a d)
  | 0x23 => .instr .invalidWidth23
  | 0x30 => .instr (.openrd a)
  | 0x31 => .instr (.openwr a)
  | 0x32 => .instr .close
  | 0x40 => .instr .srd8
  | 0x41 => .instr .srd16
  | 0x42 => .instr .srd32
  | 0x43 => .instr .invalidWidth43
  | 0x44 => .instr (.srdblk d)
  | 0x50 => .instr (.swr8 d)
  | 0x51 => .instr (.swr16 d)
  | 0x52 => .instr (.swr32 d)
  | 0x53 => .instr .invalidWidth53
  | 0x54 => .instr (.swrblk d)
  | 0x60 => .instr (.hostcmd a d)
  | 0x80 => .instr .free
  | 0x81 => .instr (.advance d)
  | 0x82 => .instr .curptr
  | 0x83 => .instr .commit
  | 0x84 => .instr (.waitdrain d)
  | 0x85 => .instr .rinit
  | _ => .reserved op

/-- The decoder (R99): it selects by `REQ[71:64]` alone. -/
def decode (r : ReqWord) : Decoded := decodeFields (opField r) (aField r) (dField r)

/-- A request word from its three fields (R90). -/
def requestWord (op : Byte) (a d : Word) : ReqWord := (op ++ a) ++ d

/-- The operation code of each operation (R96, R98). -/
def opcode : Instr → Byte
  | .rd8 _ => 0x10
  | .rd16 _ => 0x11
  | .rd32 _ => 0x12
  | .wr8 _ _ => 0x20
  | .wr16 _ _ => 0x21
  | .wr32 _ _ => 0x22
  | .openrd _ => 0x30
  | .openwr _ => 0x31
  | .close => 0x32
  | .srd8 => 0x40
  | .srd16 => 0x41
  | .srd32 => 0x42
  | .srdblk _ => 0x44
  | .swr8 _ => 0x50
  | .swr16 _ => 0x51
  | .swr32 _ => 0x52
  | .swrblk _ => 0x54
  | .hostcmd _ _ => 0x60
  | .free => 0x80
  | .advance _ => 0x81
  | .curptr => 0x82
  | .commit => 0x83
  | .waitdrain _ => 0x84
  | .rinit => 0x85
  | .invalidWidth13 => 0x13
  | .invalidWidth23 => 0x23
  | .invalidWidth43 => 0x43
  | .invalidWidth53 => 0x53

/-- The field `a` the assembler writes: the operand, or zero where the operation uses none (R107). -/
def operandA : Instr → Word
  | .rd8 a => a
  | .rd16 a => a
  | .rd32 a => a
  | .wr8 a _ => a
  | .wr16 a _ => a
  | .wr32 a _ => a
  | .openrd a => a
  | .openwr a => a
  | .close => 0
  | .srd8 => 0
  | .srd16 => 0
  | .srd32 => 0
  | .srdblk _ => 0
  | .swr8 _ => 0
  | .swr16 _ => 0
  | .swr32 _ => 0
  | .swrblk _ => 0
  | .hostcmd a _ => a
  | .free => 0
  | .advance _ => 0
  | .curptr => 0
  | .commit => 0
  | .waitdrain _ => 0
  | .rinit => 0
  | .invalidWidth13 => 0
  | .invalidWidth23 => 0
  | .invalidWidth43 => 0
  | .invalidWidth53 => 0

/-- The field `d` the assembler writes (R107). -/
def operandD : Instr → Word
  | .rd8 _ => 0
  | .rd16 _ => 0
  | .rd32 _ => 0
  | .wr8 _ d => d
  | .wr16 _ d => d
  | .wr32 _ d => d
  | .openrd _ => 0
  | .openwr _ => 0
  | .close => 0
  | .srd8 => 0
  | .srd16 => 0
  | .srd32 => 0
  | .srdblk d => d
  | .swr8 d => d
  | .swr16 d => d
  | .swr32 d => d
  | .swrblk d => d
  | .hostcmd _ d => d
  | .free => 0
  | .advance d => d
  | .curptr => 0
  | .commit => 0
  | .waitdrain d => d
  | .rinit => 0
  | .invalidWidth13 => 0
  | .invalidWidth23 => 0
  | .invalidWidth43 => 0
  | .invalidWidth53 => 0

/-- The request word of an operation (R90, R96, R107). -/
def encode (i : Instr) : ReqWord := requestWord (opcode i) (operandA i) (operandD i)

/-- The instruction the decoder reads from an instruction of the opcode table whose bits are `w`
(the request is one 72-bit word; bits above `nbits` are zero). -/
def decodeTableWord (nbits w : Nat) : Option Instr :=
  match decode (BitVec.ofNat 72 (w % 2 ^ nbits)) with
  | .instr i => some i
  | .reserved _ => none

end Sys2Proof
end

