-- ==== Sys2Proof/Machine/Ports.lean ====
section
/-! DEFINITION. What the step does around an operation: taking an input, the request port's `WDATA`
(10_state.md R28, R31), the record of served requests (R39), and the device's own initialisation. -/

namespace Sys2Proof.Machine

/-- The request is accepted: it leaves the queue, `WDATA` carries its run, and the response port is
empty until the operation responds (R28, R29). -/
def accept (r : Request) (rest : List Input) (s : State) : State :=
  { s with inputs := rest, wdata := r.wdata, rsp := none }

/-- The pair of a request and its response joins the record (R39); an operation that reset
abandoned has no response (70_reset_and_hazards.md R211) and leaves none. -/
def recordServed (r : Request) (s : State) : State :=
  match s.rsp with
  | some p => { s with served := s.served ++ [(r, p)] }
  | none => s

/-- A function of the next state, where there is one. -/
def mapNext (g : State → State) : Out → Out
  | .next s => .next (g s)
  | .fault r => .fault r
  | .refused r => .refused r

/-- The reset input between operations (70_reset_and_hazards.md R211). -/
def takeReset (rest : List Input) (s : State) : State := resetBlock { s with inputs := rest }

/-- A step of the coprocessor between operations (20_memory.md R74). -/
def takeCoprocessor (n : Nat) (rest : List Input) (s : State) : State :=
  { s with inputs := rest, dev := s.dev.consume s.cfg n }

/-- The device initialises itself (00_scope.md R8, 70_reset_and_hazards.md R213); the block's
registers are unchanged, whatever the device forgot (60_exceptions.md R199). -/
def takeDeviceInit (rest : List Input) (s : State) : State :=
  { s with inputs := rest, dev := Device.initial s.cfg }

/-- The request whose word is `w`, with a `WDATA` run of zeros where its operation takes one: a
SWRBLK brings `d` bytes (30_encoding.md R90, R106). -/
def requestOfWord (w : ReqWord) : Request :=
  ⟨w, if opField w = 0x54 then List.replicate (dField w).toNat 0 else []⟩

end Sys2Proof.Machine
end

