-- ==== Sys2Proof/Machine/Run.lean ====
section
/-! DEFINITION. From a request word to its meaning (30_encoding.md R99), and how a request word is
placed at the request port. -/

namespace Sys2Proof.Machine

/-- The operation, or the fault, a request stands for (R99): its word alone decides. -/
def runRequest (r : Request) (s : State) : Out :=
  match decode r.req with
  | .instr i => exec i s
  | .reserved op => execReserved op s

/-- The request presented next. -/
def presentNext (r : Request) (s : State) : State := { s with inputs := .request r :: s.inputs }

end Sys2Proof.Machine
end

