-- ==== Sys2Proof/Machine/Step.lean ====
section
/-! DEFINITION. One step: the next input is taken (10_state.md R28: one request at a time; R33: the
reset input; 20_memory.md R74: the coprocessor). With nothing presented the block waits
(70_reset_and_hazards.md R210). -/

namespace Sys2Proof.Machine

/-- One step of the machine. -/
def step (s : State) : Host.Outcome State Fault Refusal :=
  match s.inputs with
  | [] => .next s
  | .request r :: rest => mapNext (recordServed r) (runRequest r (accept r rest s))
  | .rst :: rest => .next (takeReset rest s)
  | .coprocessor n :: rest => .next (takeCoprocessor n rest s)
  | .deviceInit :: rest => .next (takeDeviceInit rest s)

/-- The state in which the request whose word is `w` (bits above `nbits` zero) is presented next:
there is no instruction memory (10_state.md R24), the block takes its operations from the request
port (log 2). -/
def State.withFetchWord (s : State) (nbits w : Nat) : State :=
  presentNext (requestOfWord (BitVec.ofNat 72 (w % 2 ^ nbits))) s

end Sys2Proof.Machine
end

