-- ==== Sys2Proof/Machine/Macros.lean ====
section
/-! DEFINITION. The requester's side: the assembler's request for an operation (30_encoding.md R107)
and the pseudo-operations of R108, which are lists of requests; the block sees only their expansions. -/

namespace Sys2Proof.Machine

/-- An operation that brings no `WDATA` (R107). -/
def asm (i : Instr) : Request := ⟨encode i, []⟩

/-- `SWRBLK [b0 .. bL-1]`: the assembler puts `L` in `d` and the bytes on `WDATA` (R107). -/
def asmSwrblk (bytes : List Byte) : Request :=
  ⟨encode (.swrblk (BitVec.ofNat 32 bytes.length)), bytes⟩

/-- `read-n(a, w)`: any width but 8, 16, 32 assembles to `0x13` (R108). -/
def readN (a : Word) (w : Nat) : List Request :=
  if w = 8 then [asm (.rd8 a)]
  else if w = 16 then [asm (.rd16 a)]
  else if w = 32 then [asm (.rd32 a)]
  else [asm .invalidWidth13]

/-- `write-n(a, v, w)`: any width but 8, 16, 32 assembles to `0x23` (R108). -/
def writeN (a v : Word) (w : Nat) : List Request :=
  if w = 8 then [asm (.wr8 a v)]
  else if w = 16 then [asm (.wr16 a v)]
  else if w = 32 then [asm (.wr32 a v)]
  else [asm .invalidWidth23]

/-- `write-block(a, bytes)` (R108). -/
def writeBlock (a : Word) (bytes : List Byte) : List Request :=
  [asm (.openwr a), asmSwrblk bytes, asm .close]

/-- The device address of a ring offset: `RAM_CMD_BASE + o`, computed by the requester
(20_memory.md R52). -/
def ringAddr (p : Params) (o : Nat) : Word := p.ramCmdBase.setWidth 32 + BitVec.ofNat 32 o

/-- `ENQ32 v` at the requester's pointer `w` (R108). -/
def enq32 (p : Params) (w : Nat) (v : Word) : List Request :=
  [asm (.wr32 (ringAddr p w) v), asm (.advance 4)]

/-- `ENQUEUE bytes` at the requester's pointer `w`: split at the end of the ring (R108,
70_reset_and_hazards.md R219). -/
def enqueue (p : Params) (w : Nat) (bytes : List Byte) : List Request :=
  let t := min bytes.length (p.c - w)
  writeBlock (ringAddr p w) (bytes.take t) ++
    (if t < bytes.length then writeBlock (ringAddr p 0) (bytes.drop t) else []) ++
    [asm (.advance (BitVec.ofNat 32 bytes.length))]

/-- `FLUSH bound` (R108). -/
def flush (bound : Word) : List Request := [asm .commit, asm (.waitdrain bound)]

end Sys2Proof.Machine
end

