-- ==== Sys2Proof/Safety.lean ====
section
/-! DEFINITION. The terms claims are stated in: the state invariant (10_state.md R38), the legal
transport trace (40_framer.md R144), the coupling invariant (20_memory.md R76) and the no-overrun
property (41_ring_manager.md R164), what the environment may do in a claim, and the shapes of what
an operation leaves. -/

namespace Sys2Proof.Machine

/-- The invariant of the block's registers between operations (10_state.md R38). -/
structure BlockInv (s : State) : Prop where
  w_lt : s.w < s.cfg.c
  cw_lt : s.cw < s.cfg.c
  lf_le : s.lf + s.cfg.m + 1 ≤ s.cfg.c
  sel_iff : s.sel = true ↔ s.scope ≠ .idle
  faulted_idle : s.f = true → s.scope = .idle
  healthy_clear : s.f = false → s.fc = 0 ∧ s.fi = 0
  faulted_code : s.f = true → s.fc = 0x81 ∨ s.fc = 0x82 ∨ s.fc = 0x83 ∨ s.fc = 0x84

/-- The data registers fit the width `PTRW` the spec gives them (00_scope.md R5, 10_state.md R20). -/
structure FitsWidth (s : State) : Prop where
  w : s.w < 2 ^ s.cfg.ptrw
  cw : s.cw < 2 ^ s.cfg.ptrw
  lf : s.lf < 2 ^ s.cfg.ptrw

/-- The level of the line after an event, where the event is legal at that level (40_framer.md
R144 (a), (b)): no exchange while released, no double assertion, no double release. -/
def eventLevel (level : Bool) : Event → Option Bool
  | .sel true => if level then none else some true
  | .sel false => if level then some false else none
  | .xchg _ _ => if level then some true else none

/-- The level after a trace that starts with the line released, where every event is legal. -/
def lineLevel (tr : List Event) : Option Bool := tr.foldlM eventLevel false

/-- The whole machine's invariant: a well-formed configuration, the block's registers in range and
within their widths, a legal trace that ends at the level of `SEL`, device memory in its canonical
form. -/
structure Inv (s : State) : Prop where
  cfg_wf : s.cfg.wf
  block : BlockInv s
  widths : FitsWidth s
  line : lineLevel s.trace = some s.sel
  mem_wf : s.dev.mem.wf

/-- A transport event that is neither failed, cut nor endless. -/
def Link.clean : Link → Bool
  | .reply => true
  | .replyWith _ => true
  | .fail _ _ => false
  | .rst _ => false
  | .hang => false

/-- The next `n` transport events succeed, with any bytes received and any coprocessor steps. -/
abbrev Calm (n : Nat) (s : State) : Prop := ∀ t ∈ s.turns.take n, t.link.clean = true

/-- Every exchange returns (60_exceptions.md R195). -/
abbrev Returns (s : State) : Prop := ∀ t ∈ s.turns, t.link ≠ .hang

/-- `RST` is not asserted inside an operation. -/
abbrev NoReset (s : State) : Prop := ∀ t ∈ s.turns, ∀ b, t.link ≠ .rst b

/-- The reference device answers every exchange; the coprocessor may step (20_memory.md R70 to
R74). -/
abbrev ReferenceEnv (s : State) : Prop := ∀ t ∈ s.turns, t.link = .reply

/-- An address whose preamble does not collide with the direction field
(70_reset_and_hazards.md R220). -/
abbrev Framable (p : Params) (a : Word) : Prop := a.setWidth 24 &&& p.dirField = 0

/-- An address outside the four bytes of the read-pointer register, which the coprocessor owns. -/
abbrev OutsideRP (p : Params) (x : Nat) : Prop :=
  x < p.regCmdRead.toNat ∨ p.regCmdRead.toNat + 4 ≤ x

/-- Exchanges as trace events: `out` sent, `got` received. -/
def exchanges (out got : List Byte) : List Event :=
  List.zipWith (fun b r => Event.xchg b (.ok r)) out got

/-- `W`, `CW`, `LF` and the configuration are unchanged. -/
structure KeepsRing (s t : State) : Prop where
  cfg : t.cfg = s.cfg
  w : t.w = s.w
  cw : t.cw = s.cw
  lf : t.lf = s.lf

/-- The fault registers are unchanged. -/
structure KeepsFault (s t : State) : Prop where
  f : t.f = s.f
  fc : t.fc = s.fc
  fi : t.fi = s.fi

/-- The scope and the line are unchanged. -/
structure KeepsScope (s t : State) : Prop where
  scope : t.scope = s.scope
  sel : t.sel = s.sel

/-- The response. -/
abbrev Responds (t : State) (status : Byte) (value : Word) (rdata : List Byte) : Prop :=
  t.rsp = some ⟨status, value, rdata⟩

/-- Device byte `x`, as the model reads one byte of the device's address space. -/
abbrev devByte (s : State) (x : Nat) : Option Byte := s.dev.byteAt s.cfg x

/-- A device byte the coprocessor leaves alone at the coming transport events: one outside the
read-pointer register, or any byte while the coprocessor rests (20_memory.md R74). -/
abbrev Settled (s : State) (x : Nat) : Prop :=
  OutsideRP s.cfg x ∨ ∀ u ∈ s.turns, u.consume = 0

/-- Every device byte the coprocessor leaves alone is unchanged. -/
abbrev KeepsDevice (s t : State) : Prop := ∀ x, Settled s x → devByte t x = devByte s x

/-- The bytes `bs` are stored from device address `base` on, and every other device byte the
coprocessor leaves alone is unchanged. -/
abbrev StoresAt (s t : State) (base : Nat) (bs : List Byte) : Prop :=
  ∀ x, Settled s x →
    devByte t x = if base ≤ x ∧ x < base + bs.length then bs[x - base]? else devByte s x

/-- What fault entry leaves (60_exceptions.md R188). -/
structure FaultEntry (s t : State) (code : Byte) (info : Word) : Prop where
  f : t.f = true
  fc : t.fc = code
  fi : t.fi = info
  scope : t.scope = .idle
  ring : KeepsRing s t
  responds : Responds t code info []
  closed : s.scope = .idle → t.sel = s.sel ∧ t.trace = s.trace ∧ t.dev = s.dev
  released : s.scope ≠ .idle → t.sel = false ∧ t.trace = s.trace ++ [.sel false]
  mem : t.dev.mem = s.dev.mem
  rp : t.dev.rp = s.dev.rp
  wp : t.dev.wp = s.dev.wp

/-- The table of 60_exceptions.md R184: whether an operation is allowed in a scope. The invalid
width codes have no scope check (R142). -/
def scopeAllows : Instr → Scope → Bool
  | .rd8 _, sc => sc == .idle
  | .rd16 _, sc => sc == .idle
  | .rd32 _, sc => sc == .idle
  | .wr8 _ _, sc => sc == .idle
  | .wr16 _ _, sc => sc == .idle
  | .wr32 _ _, sc => sc == .idle
  | .hostcmd _ _, sc => sc == .idle
  | .openrd _, sc => sc == .idle
  | .openwr _, sc => sc == .idle
  | .free, sc => sc == .idle
  | .commit, sc => sc == .idle
  | .waitdrain _, sc => sc == .idle
  | .close, sc => sc != .idle
  | .srd8, sc => sc == .rdOpen
  | .srd16, sc => sc == .rdOpen
  | .srd32, sc => sc == .rdOpen
  | .srdblk _, sc => sc == .rdOpen
  | .swr8 _, sc => sc == .wrOpen
  | .swr16 _, sc => sc == .wrOpen
  | .swr32 _, sc => sc == .wrOpen
  | .swrblk _, sc => sc == .wrOpen
  | .advance _, _ => true
  | .curptr, _ => true
  | .rinit, _ => true
  | .invalidWidth13, _ => true
  | .invalidWidth23, _ => true
  | .invalidWidth43, _ => true
  | .invalidWidth53, _ => true

/-- The stream operations of 60_exceptions.md R186. -/
def isStream : Instr → Bool
  | .srd8 => true
  | .srd16 => true
  | .srd32 => true
  | .srdblk _ => true
  | .swr8 _ => true
  | .swr16 _ => true
  | .swr32 _ => true
  | .swrblk _ => true
  | .rd8 _ => false
  | .rd16 _ => false
  | .rd32 _ => false
  | .wr8 _ _ => false
  | .wr16 _ _ => false
  | .wr32 _ _ => false
  | .openrd _ => false
  | .openwr _ => false
  | .close => false
  | .hostcmd _ _ => false
  | .free => false
  | .advance _ => false
  | .curptr => false
  | .commit => false
  | .waitdrain _ => false
  | .rinit => false
  | .invalidWidth13 => false
  | .invalidWidth23 => false
  | .invalidWidth43 => false
  | .invalidWidth53 => false

/-- `used`: the bytes accounted for and not yet consumed (00_scope.md R10's glossary,
41_ring_manager.md R164). -/
abbrev usedBytes (s : State) : Nat := ringDiff s.cfg s.w s.dev.rp.toNat

/-- The coupling invariant (20_memory.md R76): `WP = CW`, and on the ring `RP`, `WP`, `W` occur in
that order; with the ranges it presupposes, and with no raw store into `WP` pending (R76 (c)). -/
structure Coupled (s : State) : Prop where
  w_lt : s.w < s.cfg.c
  cw_lt : s.cw < s.cfg.c
  rp_lt : s.dev.rp.toNat < s.cfg.c
  wp_eq : s.dev.wp.toNat = s.cw
  order : ringDiff s.cfg s.dev.wp.toNat s.dev.rp.toNat ≤ usedBytes s
  device_known : s.dev.lost = false
  wp_untouched : s.dev.wpOld = none

/-- No overrun (41_ring_manager.md R164): `used + LF ≤ C - 1 - M`. -/
abbrev NoOverrun (s : State) : Prop := usedBytes s + s.lf + s.cfg.m + 1 ≤ s.cfg.c

/-- The ring operations of 41_ring_manager.md, RINIT apart. -/
def isRingOp : Instr → Bool
  | .free => true
  | .advance _ => true
  | .curptr => true
  | .commit => true
  | .waitdrain _ => true
  | .rd8 _ => false
  | .rd16 _ => false
  | .rd32 _ => false
  | .wr8 _ _ => false
  | .wr16 _ _ => false
  | .wr32 _ _ => false
  | .openrd _ => false
  | .openwr _ => false
  | .close => false
  | .srd8 => false
  | .srd16 => false
  | .srd32 => false
  | .srdblk _ => false
  | .swr8 _ => false
  | .swr16 _ => false
  | .swr32 _ => false
  | .swrblk _ => false
  | .hostcmd _ _ => false
  | .rinit => false
  | .invalidWidth13 => false
  | .invalidWidth23 => false
  | .invalidWidth43 => false
  | .invalidWidth53 => false

/-- Whether an operation uses the field `a` (30_encoding.md R96, column `a`). -/
def usesA : Instr → Bool
  | .rd8 _ => true
  | .rd16 _ => true
  | .rd32 _ => true
  | .wr8 _ _ => true
  | .wr16 _ _ => true
  | .wr32 _ _ => true
  | .openrd _ => true
  | .openwr _ => true
  | .hostcmd _ _ => true
  | .close => false
  | .srd8 => false
  | .srd16 => false
  | .srd32 => false
  | .srdblk _ => false
  | .swr8 _ => false
  | .swr16 _ => false
  | .swr32 _ => false
  | .swrblk _ => false
  | .free => false
  | .advance _ => false
  | .curptr => false
  | .commit => false
  | .waitdrain _ => false
  | .rinit => false
  | .invalidWidth13 => false
  | .invalidWidth23 => false
  | .invalidWidth43 => false
  | .invalidWidth53 => false

/-- Whether an operation uses the field `d` (30_encoding.md R96, column `d`). -/
def usesD : Instr → Bool
  | .wr8 _ _ => true
  | .wr16 _ _ => true
  | .wr32 _ _ => true
  | .srdblk _ => true
  | .swr8 _ => true
  | .swr16 _ => true
  | .swr32 _ => true
  | .swrblk _ => true
  | .hostcmd _ _ => true
  | .advance _ => true
  | .waitdrain _ => true
  | .rd8 _ => false
  | .rd16 _ => false
  | .rd32 _ => false
  | .openrd _ => false
  | .openwr _ => false
  | .close => false
  | .srd8 => false
  | .srd16 => false
  | .srd32 => false
  | .free => false
  | .curptr => false
  | .commit => false
  | .rinit => false
  | .invalidWidth13 => false
  | .invalidWidth23 => false
  | .invalidWidth43 => false
  | .invalidWidth53 => false

/-- The three bytes of a preamble word, most significant first (20_memory.md R54, 30_encoding.md
R100). -/
abbrev preambleBytes (w : Addr) : List Byte :=
  [w.extractLsb' 16 8, w.extractLsb' 8 8, w.extractLsb' 0 8]

/-- What a read frame of `k` payload bytes sends between `S1` and `S0` (30_encoding.md R101). -/
abbrev busReadFrame (p : Params) (a : Word) (k : Nat) : List Byte :=
  preambleBytes (a.setWidth 24 ||| p.rdMask) ++ List.replicate (p.rdDummy + k) p.fill

/-- What a write frame sends between `S1` and `S0` (30_encoding.md R102). -/
abbrev busWriteFrame (p : Params) (a : Word) (pay : List Byte) : List Byte :=
  preambleBytes (a.setWidth 24 ||| p.wrMask) ++ pay

/-- The bytes `v[7:0]`, `v[15:8]`, … of a value, `k` of them (20_memory.md R53). -/
abbrev leBytes (v : Word) (k : Nat) : List Byte :=
  (List.range k).map fun i => v.extractLsb' (8 * i) 8

/-- The device address of an address operand. -/
abbrev addrOf (a : Word) : Nat := (a.setWidth 24).toNat

/-- `k` device bytes from the address of `a` on, all inside the address space and outside the
read-pointer register. -/
abbrev PlainRun (p : Params) (a : Word) (k : Nat) : Prop :=
  addrOf a + k ≤ deviceSize ∧ ∀ j < k, OutsideRP p (addrOf a + j)

/-- What a completed self-scoped read of the payload `pay` leaves (40_framer.md R122). Its last clause
holds of the environment's device, whose reads have no side effect (20_memory.md R59; log 22). -/
structure ReadDone (s t : State) (a : Word) (pay : List Byte) (value : Word) : Prop where
  trace : ∃ hdr : List Byte, hdr.length = 3 + s.cfg.rdDummy ∧
    t.trace = s.trace ++ .sel true :: exchanges (busReadFrame s.cfg a pay.length) (hdr ++ pay) ++
      [.sel false]
  responds : Responds t 0x00 value []
  ring : KeepsRing s t
  fault : KeepsFault s t
  scope : t.scope = .idle
  sel : t.sel = false
  device : Framable s.cfg a → addrOf a + pay.length ≤ deviceSize → KeepsDevice s t

/-- What a completed self-scoped write of the payload `pay` leaves (40_framer.md R123). -/
structure WriteDone (s t : State) (a : Word) (pay : List Byte) : Prop where
  trace : ∃ got : List Byte, got.length = 3 + pay.length ∧
    t.trace = s.trace ++ .sel true :: exchanges (busWriteFrame s.cfg a pay) got ++ [.sel false]
  responds : Responds t 0x00 0 []
  ring : KeepsRing s t
  fault : KeepsFault s t
  scope : t.scope = .idle
  sel : t.sel = false
  device : Framable s.cfg a → s.dev.lost = false → addrOf a + pay.length ≤ deviceSize →
    StoresAt s t (addrOf a) pay

/-- What a completed stream read of the bytes `pay` leaves (40_framer.md R133 to R136). Its last
clause holds of the environment's device, whose reads have no side effect (20_memory.md R59;
log 22). -/
structure StreamReadDone (s t : State) (pay : List Byte) (value : Word) (rdata : List Byte) :
    Prop where
  trace : t.trace = s.trace ++ exchanges (List.replicate pay.length s.cfg.fill) pay
  responds : Responds t 0x00 value rdata
  ring : KeepsRing s t
  fault : KeepsFault s t
  scope : KeepsScope s t
  device : s.dev.phase = .rdData → s.dev.cur + pay.length ≤ deviceSize → KeepsDevice s t

/-- What a completed stream write of the bytes `pay` leaves (40_framer.md R137 to R140). -/
structure StreamWriteDone (s t : State) (pay : List Byte) : Prop where
  trace : ∃ got : List Byte, got.length = pay.length ∧ t.trace = s.trace ++ exchanges pay got
  responds : Responds t 0x00 0 []
  ring : KeepsRing s t
  fault : KeepsFault s t
  scope : KeepsScope s t
  device : s.dev.phase = .wrData → s.dev.lost = false → s.dev.cur + pay.length ≤ deviceSize →
    StoresAt s t s.dev.cur pay

/-- What an operation that asserts the line itself sends before it would release it or hand it over
(40_framer.md R122 to R131, R141; 41_ring_manager.md R152, R158). WAITDRAIN, which makes a frame for
each poll, CLOSE, the stream operations and those without a transport event have none. -/
def ownBytes (s : State) : Instr → Option (List Byte)
  | .rd8 a => some (busReadFrame s.cfg a 1)
  | .rd16 a => some (busReadFrame s.cfg a 2)
  | .rd32 a => some (busReadFrame s.cfg a 4)
  | .wr8 a d => some (busWriteFrame s.cfg a (leBytes d 1))
  | .wr16 a d => some (busWriteFrame s.cfg a (leBytes d 2))
  | .wr32 a d => some (busWriteFrame s.cfg a (leBytes d 4))
  | .openrd a => some (busReadFrame s.cfg a 0)
  | .openwr a => some (busWriteFrame s.cfg a [])
  | .hostcmd a d => some [a.extractLsb' 0 8, d.extractLsb' 0 8, s.cfg.hcPad]
  | .free => some (busReadFrame s.cfg (s.cfg.regCmdRead.setWidth 32) (xferBytes s.cfg))
  | .commit => some (busWriteFrame s.cfg (s.cfg.regCmdWrite.setWidth 32)
      (leBytes (BitVec.ofNat 32 s.w) (xferBytes s.cfg)))
  | .close => none
  | .srd8 => none
  | .srd16 => none
  | .srd32 => none
  | .srdblk _ => none
  | .swr8 _ => none
  | .swr16 _ => none
  | .swr32 _ => none
  | .swrblk _ => none
  | .advance _ => none
  | .curptr => none
  | .waitdrain _ => none
  | .rinit => none
  | .invalidWidth13 => none
  | .invalidWidth23 => none
  | .invalidWidth43 => none
  | .invalidWidth53 => none

/-- What a stream operation sends inside the caller's scope (40_framer.md R133 to R140); none for a
SWRBLK whose `WDATA` breaks the port's contract, and for every other operation. -/
def streamBytes (s : State) : Instr → Option (List Byte)
  | .srd8 => some (List.replicate 1 s.cfg.fill)
  | .srd16 => some (List.replicate 2 s.cfg.fill)
  | .srd32 => some (List.replicate 4 s.cfg.fill)
  | .srdblk n => some (List.replicate n.toNat s.cfg.fill)
  | .swr8 d => some (leBytes d 1)
  | .swr16 d => some (leBytes d 2)
  | .swr32 d => some (leBytes d 4)
  | .swrblk d => if s.wdata.length = d.toNat then some s.wdata else none
  | .rd8 _ => none
  | .rd16 _ => none
  | .rd32 _ => none
  | .wr8 _ _ => none
  | .wr16 _ _ => none
  | .wr32 _ _ => none
  | .openrd _ => none
  | .openwr _ => none
  | .close => none
  | .hostcmd _ _ => none
  | .free => none
  | .advance _ => none
  | .curptr => none
  | .commit => none
  | .waitdrain _ => none
  | .rinit => none
  | .invalidWidth13 => none
  | .invalidWidth23 => none
  | .invalidWidth43 => none
  | .invalidWidth53 => none

/-- What a stream operation that fails leaves on `RDATA` of the bytes received before
(60_exceptions.md R186): SRDBLK all of them, any other nothing. -/
def failedRdata (i : Instr) (got : List Byte) : List Byte :=
  match i with
  | .srdblk _ => got
  | .srd8 => []
  | .srd16 => []
  | .srd32 => []
  | .swr8 _ => []
  | .swr16 _ => []
  | .swr32 _ => []
  | .swrblk _ => []
  | .rd8 _ => []
  | .rd16 _ => []
  | .rd32 _ => []
  | .wr8 _ _ => []
  | .wr16 _ _ => []
  | .wr32 _ _ => []
  | .openrd _ => []
  | .openwr _ => []
  | .close => []
  | .hostcmd _ _ => []
  | .free => []
  | .advance _ => []
  | .curptr => []
  | .commit => []
  | .waitdrain _ => []
  | .rinit => []
  | .invalidWidth13 => []
  | .invalidWidth23 => []
  | .invalidWidth43 => []
  | .invalidWidth53 => []

/-- An exchange that fails with `e` after `got` was received for the first bytes of `out`, in a frame
that the operation asserted itself and then releases (60_exceptions.md R186). -/
abbrev failedFrame (out got : List Byte) (b : Byte) (e : Word) : List Event :=
  .sel true :: exchanges (out.take got.length) got ++ [.xchg b (.err e), .sel false]

/-- The turn `j` from here does not assert `RST`: the one thing a `Sel` event heeds (00_scope.md R12). -/
abbrev NoResetAt (j : Nat) (s : State) : Prop := ∀ u b, s.turns[j]? = some u → u.link ≠ .rst b

/-- `k` device bytes from the cursor on, all inside the address space and outside the read-pointer
register. -/
abbrev CursorRun (s : State) (k : Nat) : Prop :=
  s.dev.cur + k ≤ deviceSize ∧ ∀ j < k, OutsideRP s.cfg (s.dev.cur + j)

/-- The device's cursor has moved past `k` bytes of a read, the frame going on (20_memory.md R72). -/
structure CursorMoved (s t : State) (k : Nat) : Prop where
  cur : t.dev.cur = s.dev.cur + k
  phase : t.dev.phase = .rdData
  latch : t.dev.latch = []

/-- The value of one poll of the read pointer: the payload bytes after preamble and dummies,
little-endian, zero-extended (41_ring_manager.md R160). -/
abbrev pollValue (p : Params) (got : List Byte) : Word := leValue (got.drop (3 + p.rdDummy))

/-- The trace of the polls of the read pointer whose received bytes are `polls`. -/
abbrev pollTrace (p : Params) (polls : List (List Byte)) : List Event :=
  polls.flatMap fun got =>
    .sel true :: exchanges (busReadFrame p (p.regCmdRead.setWidth 32) (xferBytes p)) got ++
      [.sel false]

end Sys2Proof.Machine
end

