-- ==== Sys2Proof/Certificates/Slice0/Obligations.lean ====
section
/-! DEFINITION. The statements for the provers. -/

open Sys2Proof Sys2Proof.Machine

/-! ## Encoding -/

/-- 30_encoding.md R90, R96, R107: every operation, with every operand at every value, is read back
from its encoding. -/
def Obligations.DecodeEncodeAgree : Prop :=
  ∀ i : Instr, decode (encode i) = .instr i

/-- 30_encoding.md R99: any 72-bit word decodes to the operation whose code is `REQ[71:64]`, or is
reserved by that code, which is then no operation's. -/
def Obligations.DecodingIsTotal : Prop :=
  ∀ r : ReqWord,
    (∃ i, decode r = .instr i ∧ opcode i = opField r) ∨
    (decode r = .reserved (opField r) ∧ ∀ i, opcode i ≠ opField r)

/-- 30_encoding.md R92, R96: a field an operation does not use is ignored, any value is accepted. -/
def Obligations.UnusedFieldsIgnored : Prop :=
  ∀ (i : Instr) (a d : Word),
    decode (requestWord (opcode i) (if usesA i then operandA i else a)
      (if usesD i then operandD i else d)) = .instr i

/-- 30_encoding.md R97: 228 of the 256 codes are reserved. -/
def Obligations.ReservedCodesNumber228 : Prop :=
  ((List.range 256).filter fun n =>
    decodeFields (BitVec.ofNat 8 n) 0 0 = .reserved (BitVec.ofNat 8 n)).length = 228

/-- 95_test_vectors.md V0: request words written out from 30_encoding.md R96 decode as listed. -/
def Obligations.ListedWordsDecode : Prop :=
  decode 0x12FF302000DEADBEEF = .instr (.rd32 0xFF302000) ∧
  decode 0x2000001000AABBCCDD = .instr (.wr8 0x00001000 0xAABBCCDD) ∧
  decode 0x60FFFFFF6212345615 = .instr (.hostcmd 0xFFFFFF62 0x12345615) ∧
  decode 0x815555555500000005 = .instr (.advance 5) ∧
  decode 0x540000000000000003 = .instr (.swrblk 3) ∧
  decode 0x430000000000000000 = .instr .invalidWidth43 ∧
  decode 0x860000000000000000 = .reserved 0x86

/-! ## The step -/

/-- 10_state.md R28, 30_encoding.md R99: a step that takes a request runs the operation its word
decodes to, on the state with the request taken from the port, and records the response. -/
def Obligations.StepRunsDecodedRequest : Prop :=
  ∀ (s : State) (r : Request) (rest : List Input) (i : Instr),
    s.inputs = .request r :: rest → decode r.req = .instr i →
    step s = match exec i { s with inputs := rest, wdata := r.wdata, rsp := none } with
      | .next t => .next (recordServed r t)
      | .fault e => .fault e
      | .refused e => .refused e

/-- 60_exceptions.md R185: a reserved code raises `Fault(0x84, zext_32(op))`, whatever the scope. -/
def Obligations.ReservedCodeRaisesFault : Prop :=
  ∀ (s : State) (r : Request) (rest : List Input) (op : Byte),
    s.inputs = .request r :: rest → decode r.req = .reserved op → s.f = false →
    ∃ t u, step s = .next t ∧ t = recordServed r u ∧
      FaultEntry { s with inputs := rest, wdata := r.wdata, rsp := none } u 0x84 (op.setWidth 32)

/-- 60_exceptions.md R189: while `F = 1` every request, whatever its `op`, is answered
`(0x80, zext_32(FC))` and has no other effect. -/
def Obligations.FaultedAnswersEveryRequest : Prop :=
  ∀ (s : State) (r : Request), s.f = true →
    runRequest r s = .next { s with rsp := some ⟨0x80, s.fc.setWidth 32, []⟩ }

/-- 60_exceptions.md R190: only reset leaves the faulted state. -/
def Obligations.OnlyResetLeavesFaulted : Prop :=
  ∀ (s t : State), s.f = true → step s = .next t → t.f = false →
    ∃ rest, s.inputs = .rst :: rest

/-- 40_framer.md R142: the invalid-width codes raise `Fault(0x81, zext_32(op))` in every scope. -/
def Obligations.InvalidWidthFaults : Prop :=
  ∀ s : State,
    (s.f = false →
      (∃ t, exec .invalidWidth13 s = .next t ∧ FaultEntry s t 0x81 0x13) ∧
      (∃ t, exec .invalidWidth23 s = .next t ∧ FaultEntry s t 0x81 0x23) ∧
      (∃ t, exec .invalidWidth43 s = .next t ∧ FaultEntry s t 0x81 0x43) ∧
      (∃ t, exec .invalidWidth53 s = .next t ∧ FaultEntry s t 0x81 0x53)) ∧
    (s.f = true →
      ∀ i ∈ [Instr.invalidWidth13, .invalidWidth23, .invalidWidth43, .invalidWidth53],
        exec i s = .next { s with rsp := some ⟨0x80, s.fc.setWidth 32, []⟩ })

/-- 60_exceptions.md R184: an operation not allowed in the current scope raises
`Fault(0x83, zext_32(SCOPE))`. -/
def Obligations.WrongScopeFaults : Prop :=
  ∀ (i : Instr) (s : State), s.f = false → scopeAllows i s.scope = false →
    ∃ t, exec i s = .next t ∧
      FaultEntry s t 0x83 (match s.scope with | .idle => 0 | .wrOpen => 1 | .rdOpen => 2)

/-! ## The ring manager -/

/-- 41_ring_manager.md R154: ADVANCE, in every scope. -/
def Obligations.AdvanceRule : Prop :=
  ∀ (s : State) (n : Word),
    (s.f = true →
      exec (.advance n) s = .next { s with rsp := some ⟨0x80, s.fc.setWidth 32, []⟩ }) ∧
    (s.f = false → n.toNat ≤ s.lf →
      exec (.advance n) s = .next { s with
        w := (s.w + n.toNat) % s.cfg.c
        lf := s.lf - n.toNat
        rsp := some ⟨0x00, 0, []⟩ }) ∧
    (s.f = false → s.lf < n.toNat → ∃ t, exec (.advance n) s = .next t ∧ FaultEntry s t 0x82 n)

/-- 41_ring_manager.md R156: CURPTR, in every scope. -/
def Obligations.CurptrReturnsLocalPointer : Prop :=
  ∀ s : State,
    (s.f = true → exec .curptr s = .next { s with rsp := some ⟨0x80, s.fc.setWidth 32, []⟩ }) ∧
    (s.f = false →
      exec .curptr s = .next { s with rsp := some ⟨0x00, BitVec.ofNat 32 s.w, []⟩ })

/-- 41_ring_manager.md R162: RINIT, in every scope. -/
def Obligations.RinitZeroesRingRegisters : Prop :=
  ∀ s : State,
    (s.f = true → exec .rinit s = .next { s with rsp := some ⟨0x80, s.fc.setWidth 32, []⟩ }) ∧
    (s.f = false →
      exec .rinit s = .next { s with w := 0, cw := 0, lf := 0, rsp := some ⟨0x00, 0, []⟩ })

/-- 41_ring_manager.md R151, R152: FREE reads the pointer register in one read frame, reports
`max(0, ((R mod C + C - W - 1) mod C) - M)` and leaves it in `LF`. -/
def Obligations.FreeReportsSpace : Prop :=
  ∀ s : State, s.cfg.wf → s.f = false → s.scope = .idle →
    Calm (5 + s.cfg.rdDummy + xferBytes s.cfg) s →
    ∃ t got, exec .free s = .next t ∧ got.length = 3 + s.cfg.rdDummy + xferBytes s.cfg ∧
      t.trace = s.trace ++ pollTrace s.cfg [got] ∧
      (t.lf : Int) = max 0
        ((((pollValue s.cfg got).toNat % s.cfg.c : Int) + s.cfg.c - s.w - 1) % s.cfg.c
          - s.cfg.m) ∧
      Responds t 0x00 (BitVec.ofNat 32 t.lf) [] ∧
      t.cfg = s.cfg ∧ t.w = s.w ∧ t.cw = s.cw ∧ KeepsFault s t ∧ t.scope = .idle ∧
      t.sel = false ∧ (Framable s.cfg (s.cfg.regCmdRead.setWidth 32) → KeepsDevice s t)

/-- 41_ring_manager.md R152 against the device of 20_memory.md R70 to R73: with the coprocessor at
rest FREE measures from the read pointer itself. -/
def Obligations.FreeMeasuresFromReadPointer : Prop :=
  ∀ s : State, s.cfg.wf → s.f = false → s.scope = .idle → s.turns = [] →
    s.dev.lost = false → Framable s.cfg (s.cfg.regCmdRead.setWidth 32) →
    s.dev.rp.toNat < s.cfg.c →
    ∃ t, exec .free s = .next t ∧
      (t.lf : Int) = max 0 (((s.dev.rp.toNat : Int) + s.cfg.c - s.w - 1) % s.cfg.c - s.cfg.m)

/-- 41_ring_manager.md R165: from an empty ring the free space is `C - 1 - M`, and after advancing
by it, with the reader unmoved, it is 0. -/
def Obligations.CapacityIsRingLessMargin : Prop :=
  ∀ (p : Params) (w : Nat), p.wf → w < p.c →
    freeSpace p w w = p.c - 1 - p.m ∧ freeSpace p w (nextPtr p w (p.c - 1 - p.m)) = 0

/-- 41_ring_manager.md R158: COMMIT writes `W` to the write-pointer register in one write frame,
then sets `CW`. -/
def Obligations.CommitPublishesLocalPointer : Prop :=
  ∀ s : State, s.cfg.wf → s.f = false → s.scope = .idle →
    Calm (5 + xferBytes s.cfg) s →
    ∃ t got, exec .commit s = .next t ∧ got.length = 3 + xferBytes s.cfg ∧
      t.trace = s.trace ++ .sel true ::
        exchanges (busWriteFrame s.cfg (s.cfg.regCmdWrite.setWidth 32)
          (leBytes (BitVec.ofNat 32 s.w) (xferBytes s.cfg))) got ++ [.sel false] ∧
      t.cw = s.w ∧ Responds t 0x00 0 [] ∧ t.cfg = s.cfg ∧ t.w = s.w ∧ t.lf = s.lf ∧
      KeepsFault s t ∧ t.scope = .idle ∧ t.sel = false ∧
      (Framable s.cfg (s.cfg.regCmdWrite.setWidth 32) → s.dev.lost = false →
        StoresAt s t s.cfg.regCmdWrite.toNat
          (leBytes (BitVec.ofNat 32 s.w) (xferBytes s.cfg)))

/-- 41_ring_manager.md R158, 00_scope.md R7: after a 32-bit COMMIT the device's write-pointer
register holds `zext_32(W)`. -/
def Obligations.CommitSetsDeviceWritePointer : Prop :=
  ∀ s : State, s.cfg.wf → s.cfg.ptrXfer = .w32 → s.f = false → s.scope = .idle →
    Calm 9 s → Framable s.cfg (s.cfg.regCmdWrite.setWidth 32) → s.dev.lost = false →
    ∃ t, exec .commit s = .next t ∧ t.dev.wp = BitVec.ofNat 32 s.w ∧ t.dev.wp = BitVec.ofNat 32 t.cw

/-- 41_ring_manager.md R160: WAITDRAIN polls until the value read equals `zext_32(CW)`, at most
`bound + 1` times, and answers the number of re-polls or, after `bound + 1` unequal reads,
DRAIN_TIMEOUT with the last value. -/
def Obligations.WaitdrainPollsUpToBound : Prop :=
  ∀ (s : State) (bound : Word), s.cfg.wf → s.f = false → s.scope = .idle →
    Calm ((bound.toNat + 1) * (5 + s.cfg.rdDummy + xferBytes s.cfg)) s →
    ∃ t earlier last, exec (.waitdrain bound) s = .next t ∧
      (∀ got ∈ earlier ++ [last], got.length = 3 + s.cfg.rdDummy + xferBytes s.cfg) ∧
      t.trace = s.trace ++ pollTrace s.cfg (earlier ++ [last]) ∧
      (∀ got ∈ earlier, pollValue s.cfg got ≠ BitVec.ofNat 32 s.cw) ∧
      earlier.length ≤ bound.toNat ∧
      (if pollValue s.cfg last = BitVec.ofNat 32 s.cw then
        Responds t 0x00 (BitVec.ofNat 32 earlier.length) []
       else earlier.length = bound.toNat ∧ Responds t 0x01 (pollValue s.cfg last) []) ∧
      KeepsRing s t ∧ KeepsFault s t ∧ t.scope = .idle ∧ t.sel = false ∧
      (Framable s.cfg (s.cfg.regCmdRead.setWidth 32) → KeepsDevice s t)

/-- 41_ring_manager.md R160, 95_test_vectors.md X4: with a read pointer that never moves and is not
`CW`, WAITDRAIN answers DRAIN_TIMEOUT after `bound + 1` polls. -/
def Obligations.WaitdrainTimesOutOnStuckReader : Prop :=
  ∀ (s : State) (bound : Word), s.cfg.wf → s.cfg.ptrXfer = .w32 → s.f = false →
    s.scope = .idle → s.turns = [] → s.dev.lost = false →
    Framable s.cfg (s.cfg.regCmdRead.setWidth 32) → s.dev.rp ≠ BitVec.ofNat 32 s.cw →
    ∃ t, exec (.waitdrain bound) s = .next t ∧ Responds t 0x01 s.dev.rp [] ∧
      t.trace.length = s.trace.length + (bound.toNat + 1) * (9 + s.cfg.rdDummy)

/-- 41_ring_manager.md R164: the ring operations keep the coupling invariant and never overrun the
reader, whatever the coprocessor does between their transport events. -/
def Obligations.RingOperationsNeverOverrun : Prop :=
  ∀ (i : Instr) (s t : State), isRingOp i = true → s.cfg.wf →
    s.cfg.regReadAtomic = true → s.cfg.regWriteAtomic = true →
    Framable s.cfg (s.cfg.regCmdRead.setWidth 32) →
    Framable s.cfg (s.cfg.regCmdWrite.setWidth 32) →
    ReferenceEnv s → Coupled s → NoOverrun s → exec i s = .next t → Coupled t ∧ NoOverrun t

/-- 41_ring_manager.md R164, 20_memory.md R74: a step of the coprocessor between operations keeps
the coupling invariant and the no-overrun property. -/
def Obligations.CoprocessorKeepsCoupling : Prop :=
  ∀ (s t : State) (n : Nat) (rest : List Input), s.cfg.wf → Coupled s → NoOverrun s →
    s.inputs = .coprocessor n :: rest → step s = .next t → Coupled t ∧ NoOverrun t

/-! ## Self-scoped framer operations -/

/-- 40_framer.md R122, R124 to R126: a read whose exchanges succeed completes with the value of the
payload bytes received, first byte least significant. That the device's bytes stay as they are rests on
its reads having no side effect (20_memory.md R59; log 22). -/
def Obligations.SelfScopedReadsComplete : Prop :=
  ∀ (s : State) (a : Word), s.cfg.wf → s.f = false → s.scope = .idle →
    (Calm (6 + s.cfg.rdDummy) s → ∃ t r0,
      exec (.rd8 a) s = .next t ∧ ReadDone s t a [r0] (r0.setWidth 32)) ∧
    (Calm (7 + s.cfg.rdDummy) s → ∃ t r0 r1,
      exec (.rd16 a) s = .next t ∧ ReadDone s t a [r0, r1] ((r1 ++ r0).setWidth 32)) ∧
    (Calm (9 + s.cfg.rdDummy) s → ∃ t r0 r1 r2 r3,
      exec (.rd32 a) s = .next t ∧ ReadDone s t a [r0, r1, r2, r3] (r3 ++ r2 ++ r1 ++ r0))

/-- 40_framer.md R123, R127 to R129: a write whose exchanges succeed completes, sending the low
bytes of the data least significant first, and stores exactly them. -/
def Obligations.SelfScopedWritesComplete : Prop :=
  ∀ (s : State) (a d : Word), s.cfg.wf → s.f = false → s.scope = .idle →
    (Calm 6 s → ∃ t, exec (.wr8 a d) s = .next t ∧ WriteDone s t a [d.extractLsb' 0 8]) ∧
    (Calm 7 s → ∃ t, exec (.wr16 a d) s = .next t ∧
      WriteDone s t a [d.extractLsb' 0 8, d.extractLsb' 8 8]) ∧
    (Calm 9 s → ∃ t, exec (.wr32 a d) s = .next t ∧
      WriteDone s t a [d.extractLsb' 0 8, d.extractLsb' 8 8, d.extractLsb' 16 8,
        d.extractLsb' 24 8])

/-- 40_framer.md R141, 30_encoding.md R104: HOSTCMD sends `cmd`, `param`, `HC_PAD` in one frame; the
frame stores nothing (20_memory.md R71). -/
def Obligations.HostCommandSendsThreeBytes : Prop :=
  ∀ (s : State) (a d : Word), s.f = false → s.scope = .idle → Calm 5 s →
    ∃ t got, exec (.hostcmd a d) s = .next t ∧ got.length = 3 ∧
      t.trace = s.trace ++ .sel true ::
        exchanges [a.extractLsb' 0 8, d.extractLsb' 0 8, s.cfg.hcPad] got ++ [.sel false] ∧
      Responds t 0x00 0 [] ∧ KeepsRing s t ∧ KeepsFault s t ∧ t.scope = .idle ∧ t.sel = false ∧
      KeepsDevice s t

/-- 20_memory.md R51: two operations whose addresses differ only in bits 31:24 are
indistinguishable. -/
def Obligations.UpperAddressBitsIgnored : Prop :=
  ∀ (s : State) (a b d : Word), a.setWidth 24 = b.setWidth 24 →
    exec (.rd8 a) s = exec (.rd8 b) s ∧ exec (.rd16 a) s = exec (.rd16 b) s ∧
    exec (.rd32 a) s = exec (.rd32 b) s ∧ exec (.wr8 a d) s = exec (.wr8 b d) s ∧
    exec (.wr16 a d) s = exec (.wr16 b d) s ∧ exec (.wr32 a d) s = exec (.wr32 b d) s ∧
    exec (.openrd a) s = exec (.openrd b) s ∧ exec (.openwr a) s = exec (.openwr b) s

/-- 20_memory.md R71, R72: against the reference device, whose reads have no side effect (R59; log
22), a read returns the device's bytes at its address. -/
def Obligations.ReadReturnsDeviceBytes : Prop :=
  ∀ (s : State) (a : Word), s.cfg.wf → s.f = false → s.scope = .idle → ReferenceEnv s →
    s.dev.lost = false → Framable s.cfg a →
    (PlainRun s.cfg a 1 → ∃ t b0, exec (.rd8 a) s = .next t ∧
      Responds t 0x00 (b0.setWidth 32) [] ∧ devByte s (addrOf a) = some b0) ∧
    (PlainRun s.cfg a 2 → ∃ t b0 b1, exec (.rd16 a) s = .next t ∧
      Responds t 0x00 ((b1 ++ b0).setWidth 32) [] ∧
      devByte s (addrOf a) = some b0 ∧ devByte s (addrOf a + 1) = some b1) ∧
    (PlainRun s.cfg a 4 → ∃ t b0 b1 b2 b3, exec (.rd32 a) s = .next t ∧
      Responds t 0x00 (b3 ++ b2 ++ b1 ++ b0) [] ∧
      devByte s (addrOf a) = some b0 ∧ devByte s (addrOf a + 1) = some b1 ∧
      devByte s (addrOf a + 2) = some b2 ∧ devByte s (addrOf a + 3) = some b3)

/-- 40_framer.md R143: against the reference device, whose reads have no side effect (20_memory.md R59;
log 22), `WRk A, v` followed by `RDk A` returns `trunc_(8k)(v)`. -/
def Obligations.WriteThenReadReturnsData : Prop :=
  ∀ (s : State) (a d : Word), s.cfg.wf → s.f = false → s.scope = .idle → ReferenceEnv s →
    s.dev.lost = false → Framable s.cfg a →
    (PlainRun s.cfg a 1 → ∃ t u, exec (.wr8 a d) s = .next t ∧ exec (.rd8 a) t = .next u ∧
      Responds u 0x00 ((d.setWidth 8).setWidth 32) []) ∧
    (PlainRun s.cfg a 2 → ∃ t u, exec (.wr16 a d) s = .next t ∧ exec (.rd16 a) t = .next u ∧
      Responds u 0x00 ((d.setWidth 16).setWidth 32) []) ∧
    (PlainRun s.cfg a 4 → ∃ t u, exec (.wr32 a d) s = .next t ∧ exec (.rd32 a) t = .next u ∧
      Responds u 0x00 d [])

/-! ## Scopes and streams -/

/-- 40_framer.md R130, R131: OPENRD and OPENWR assert the line, send the preamble (and dummies) and
open the scope; the device's cursor stands at the address, and no device byte changes (for OPENRD
R59; log 22). -/
def Obligations.OpenStartsScope : Prop :=
  ∀ (s : State) (a : Word), s.cfg.wf → s.f = false → s.scope = .idle →
    (Calm (4 + s.cfg.rdDummy) s → ∃ t got, exec (.openrd a) s = .next t ∧
      got.length = 3 + s.cfg.rdDummy ∧
      t.trace = s.trace ++ .sel true :: exchanges (busReadFrame s.cfg a 0) got ∧
      t.scope = .rdOpen ∧ t.sel = true ∧ Responds t 0x00 0 [] ∧ KeepsRing s t ∧ KeepsFault s t ∧
      (Framable s.cfg a →
        t.dev.phase = .rdData ∧ t.dev.cur = addrOf a ∧ KeepsDevice s t)) ∧
    (Calm 4 s → ∃ t got, exec (.openwr a) s = .next t ∧ got.length = 3 ∧
      t.trace = s.trace ++ .sel true :: exchanges (busWriteFrame s.cfg a []) got ∧
      t.scope = .wrOpen ∧ t.sel = true ∧ Responds t 0x00 0 [] ∧ KeepsRing s t ∧ KeepsFault s t ∧
      KeepsDevice s t ∧
      (Framable s.cfg a → t.dev.phase = .wrData ∧ t.dev.cur = addrOf a))

/-- 40_framer.md R132, 00_scope.md R12: CLOSE, which cannot fail in transport, releases the line and
closes the scope, whatever its turn says but a reset; no device byte changes, also where an exchange
of the frame failed (20_memory.md R75). -/
def Obligations.CloseEndsScope : Prop :=
  ∀ s : State, s.f = false → s.scope ≠ .idle → NoResetAt 0 s →
    ∃ t, exec .close s = .next t ∧ t.trace = s.trace ++ [.sel false] ∧ t.scope = .idle ∧
      t.sel = false ∧ Responds t 0x00 0 [] ∧ KeepsRing s t ∧ KeepsFault s t ∧
      KeepsDevice s t

/-- 40_framer.md R133 to R136: the stream reads send `FILL` once for each byte and return what they
receive, the scope staying open. That the device's bytes stay as they are rests on its reads having no
side effect (20_memory.md R59; log 22). -/
def Obligations.StreamReadsComplete : Prop :=
  ∀ s : State, s.f = false → s.scope = .rdOpen →
    (Calm 1 s → ∃ t r0, exec .srd8 s = .next t ∧
      StreamReadDone s t [r0] (r0.setWidth 32) []) ∧
    (Calm 2 s → ∃ t r0 r1, exec .srd16 s = .next t ∧
      StreamReadDone s t [r0, r1] ((r1 ++ r0).setWidth 32) []) ∧
    (Calm 4 s → ∃ t r0 r1 r2 r3, exec .srd32 s = .next t ∧
      StreamReadDone s t [r0, r1, r2, r3] (r3 ++ r2 ++ r1 ++ r0) []) ∧
    (∀ n : Word, Calm n.toNat s → ∃ t pay, exec (.srdblk n) s = .next t ∧
      pay.length = n.toNat ∧ StreamReadDone s t pay n pay)

/-- 20_memory.md R71, R72: against the reference device, whose reads have no side effect (R59; log
22), the stream reads return the device's bytes from its cursor on and move the cursor past them. -/
def Obligations.StreamReadsReturnDeviceBytes : Prop :=
  ∀ s : State, s.f = false → s.scope = .rdOpen → ReferenceEnv s → s.dev.lost = false →
    s.dev.phase = .rdData → s.dev.latch = [] →
    (CursorRun s 1 → ∃ t b0, exec .srd8 s = .next t ∧ Responds t 0x00 (b0.setWidth 32) [] ∧
      devByte s s.dev.cur = some b0 ∧ CursorMoved s t 1) ∧
    (CursorRun s 2 → ∃ t b0 b1, exec .srd16 s = .next t ∧
      Responds t 0x00 ((b1 ++ b0).setWidth 32) [] ∧
      devByte s s.dev.cur = some b0 ∧ devByte s (s.dev.cur + 1) = some b1 ∧ CursorMoved s t 2) ∧
    (CursorRun s 4 → ∃ t b0 b1 b2 b3, exec .srd32 s = .next t ∧
      Responds t 0x00 (b3 ++ b2 ++ b1 ++ b0) [] ∧
      devByte s s.dev.cur = some b0 ∧ devByte s (s.dev.cur + 1) = some b1 ∧
      devByte s (s.dev.cur + 2) = some b2 ∧ devByte s (s.dev.cur + 3) = some b3 ∧
      CursorMoved s t 4) ∧
    (∀ n : Word, CursorRun s n.toNat → ∃ t pay, exec (.srdblk n) s = .next t ∧
      Responds t 0x00 n pay ∧ pay.length = n.toNat ∧
      (∀ j < n.toNat, pay[j]? = devByte s (s.dev.cur + j)) ∧ CursorMoved s t n.toNat)

/-- 40_framer.md R137 to R140: the stream writes send their bytes, least significant first for a
scalar and in list order for a block, and store exactly them at the device's cursor. -/
def Obligations.StreamWritesComplete : Prop :=
  ∀ (s : State) (d : Word), s.cfg.wf → s.f = false → s.scope = .wrOpen →
    (Calm 1 s → ∃ t, exec (.swr8 d) s = .next t ∧ StreamWriteDone s t [d.extractLsb' 0 8]) ∧
    (Calm 2 s → ∃ t, exec (.swr16 d) s = .next t ∧
      StreamWriteDone s t [d.extractLsb' 0 8, d.extractLsb' 8 8]) ∧
    (Calm 4 s → ∃ t, exec (.swr32 d) s = .next t ∧
      StreamWriteDone s t [d.extractLsb' 0 8, d.extractLsb' 8 8, d.extractLsb' 16 8,
        d.extractLsb' 24 8]) ∧
    (Calm d.toNat s → s.wdata.length = d.toNat → ∃ t, exec (.swrblk d) s = .next t ∧
      StreamWriteDone s t s.wdata)

/-- 93_implementation_defined.md U22, 10_state.md R31: a SWRBLK that would run but whose `WDATA` is
not `d` bytes long is refused; the model's form of the spec's `refuse` (log 13). -/
def Obligations.SwrblkOfWrongLengthRefused : Prop :=
  ∀ (s : State) (d : Word), s.f = false → s.scope = .wrOpen → s.wdata.length ≠ d.toNat →
    exec (.swrblk d) s = .refused .wdataLength

/-- 30_encoding.md R103: `OPENWR A; SWR16 v; SWR16 w; CLOSE` puts on the bus the one write frame at
`A` with the payload `v[7:0] v[15:8] w[7:0] w[15:8]`. -/
def Obligations.ScopedWritesFormOneFrame : Prop :=
  ∀ (s : State) (a v w : Word), s.f = false → s.scope = .idle → Calm 9 s →
    ∃ t1 t2 t3 t4 got, exec (.openwr a) s = .next t1 ∧ exec (.swr16 v) t1 = .next t2 ∧
      exec (.swr16 w) t2 = .next t3 ∧ exec .close t3 = .next t4 ∧ got.length = 7 ∧
      t4.trace = s.trace ++ .sel true ::
        exchanges (busWriteFrame s.cfg a [v.extractLsb' 0 8, v.extractLsb' 8 8,
          w.extractLsb' 0 8, w.extractLsb' 8 8]) got ++ [.sel false]

/-- 40_framer.md R143: against the reference device, whose reads have no side effect (20_memory.md R59;
log 22), the bytes of a `write-block` come back from a block read at the same address. -/
def Obligations.WriteBlockThenReadBlock : Prop :=
  ∀ (s : State) (a n : Word), s.cfg.wf → s.f = false → s.scope = .idle → ReferenceEnv s →
    s.dev.lost = false → Framable s.cfg a → s.wdata.length = n.toNat →
    PlainRun s.cfg a n.toNat →
    ∃ t1 t2 t3 t4 t5, exec (.openwr a) s = .next t1 ∧ exec (.swrblk n) t1 = .next t2 ∧
      exec .close t2 = .next t3 ∧ exec (.openrd a) t3 = .next t4 ∧
      exec (.srdblk n) t4 = .next t5 ∧ Responds t5 0x00 n s.wdata

/-! ## Outcomes -/

/-- 60_exceptions.md R186: a transport failure leaves `W`, `CW`, `LF`, `F`, `FC`, `FI` unchanged; a
stream operation leaves the scope and the line as they are, any other releases the line. -/
def Obligations.TransportFailureKeepsRegisters : Prop :=
  ∀ (i : Instr) (s t : State) (r : Response), s.f = false → exec i s = .next t →
    t.rsp = some r → r.status = 0x02 →
    KeepsRing s t ∧ KeepsFault s t ∧
      (isStream i = true → KeepsScope s t) ∧
      (isStream i = false → t.scope = .idle ∧ t.sel = false)

/-- 60_exceptions.md R186, 30_encoding.md R101: an exchange of RD32 that fails ends the frame there:
no further exchange, the line released, the code propagated unchanged. -/
def Obligations.FailedExchangeEndsReadFrame : Prop :=
  ∀ (s : State) (a e : Word) (j c : Nat) (delivered : Bool), s.f = false → s.scope = .idle →
    j < 7 + s.cfg.rdDummy → Calm (j + 1) s →
    s.turns[j + 1]? = some ⟨c, .fail e delivered⟩ →
    NoResetAt (j + 2) s →
    ∃ t got b, exec (.rd32 a) s = .next t ∧ got.length = j ∧
      (busReadFrame s.cfg a 4)[j]? = some b ∧
      t.trace = s.trace ++ .sel true :: exchanges ((busReadFrame s.cfg a 4).take j) got ++
        [.xchg b (.err e), .sel false] ∧
      Responds t 0x02 e [] ∧ KeepsRing s t ∧ KeepsFault s t ∧ t.scope = .idle ∧ t.sel = false

/-- 60_exceptions.md R186: an exchange that fails in an operation that asserted the line itself, other
than WAITDRAIN, ends the frame there: no further exchange, the line released, the scope idle, the code
propagated, no register changed. -/
def Obligations.FailedExchangeEndsOwnFrame : Prop :=
  ∀ (i : Instr) (s : State) (out : List Byte) (e : Word) (j c : Nat) (delivered : Bool),
    ownBytes s i = some out → s.f = false → s.scope = .idle → j < out.length → Calm (j + 1) s →
    s.turns[j + 1]? = some ⟨c, .fail e delivered⟩ → NoResetAt (j + 2) s →
    ∃ t got b, exec i s = .next t ∧ got.length = j ∧ out[j]? = some b ∧
      t.trace = s.trace ++ failedFrame out got b e ∧
      Responds t 0x02 e [] ∧ KeepsRing s t ∧ KeepsFault s t ∧ t.scope = .idle ∧ t.sel = false

/-- 60_exceptions.md R186, 41_ring_manager.md R160: an exchange of WAITDRAIN that fails in its poll
number `k`, from 0, ends the loop there, after `k` polls with values other than `zext_32(CW)`; the
loop may have ended before, at a poll with that value. -/
def Obligations.FailedPollEndsWaitdrain : Prop :=
  ∀ (s : State) (bound e : Word) (k j c : Nat) (delivered : Bool), s.f = false →
    s.scope = .idle → k ≤ bound.toNat → j < 3 + s.cfg.rdDummy + xferBytes s.cfg →
    Calm (k * (5 + s.cfg.rdDummy + xferBytes s.cfg) + (j + 1)) s →
    s.turns[k * (5 + s.cfg.rdDummy + xferBytes s.cfg) + (j + 1)]? = some ⟨c, .fail e delivered⟩ →
    NoResetAt (k * (5 + s.cfg.rdDummy + xferBytes s.cfg) + (j + 2)) s →
    ∃ t polls, exec (.waitdrain bound) s = .next t ∧
      (∀ got ∈ polls, got.length = 3 + s.cfg.rdDummy + xferBytes s.cfg ∧
        pollValue s.cfg got ≠ BitVec.ofNat 32 s.cw) ∧
      ((polls.length = k ∧ Responds t 0x02 e [] ∧ ∃ got b, got.length = j ∧
        (busReadFrame s.cfg (s.cfg.regCmdRead.setWidth 32) (xferBytes s.cfg))[j]? = some b ∧
        t.trace = s.trace ++ pollTrace s.cfg polls ++ failedFrame
          (busReadFrame s.cfg (s.cfg.regCmdRead.setWidth 32) (xferBytes s.cfg)) got b e) ∨
       (polls.length < k ∧ Responds t 0x00 (BitVec.ofNat 32 polls.length) [] ∧
        ∃ last, last.length = 3 + s.cfg.rdDummy + xferBytes s.cfg ∧
          pollValue s.cfg last = BitVec.ofNat 32 s.cw ∧
          t.trace = s.trace ++ pollTrace s.cfg (polls ++ [last]))) ∧
      KeepsRing s t ∧ KeepsFault s t ∧ t.scope = .idle ∧ t.sel = false

/-- 60_exceptions.md R186: an exchange that fails in a stream operation ends it there: no further
exchange, the scope left open and the line asserted, the code propagated, no register changed;
SRDBLK leaves on `RDATA` the bytes received before. -/
def Obligations.FailedExchangeEndsStream : Prop :=
  ∀ (i : Instr) (s : State) (out : List Byte) (e : Word) (j c : Nat) (delivered : Bool),
    streamBytes s i = some out → s.f = false → scopeAllows i s.scope = true → j < out.length →
    Calm j s → s.turns[j]? = some ⟨c, .fail e delivered⟩ →
    ∃ t got b, exec i s = .next t ∧ got.length = j ∧ out[j]? = some b ∧
      t.trace = s.trace ++ exchanges (out.take j) got ++ [.xchg b (.err e)] ∧
      Responds t 0x02 e (failedRdata i got) ∧ KeepsRing s t ∧ KeepsFault s t ∧ KeepsScope s t

/-- 40_framer.md R136, 60_exceptions.md R186: an exchange of SRDBLK that fails leaves on `RDATA` the
bytes received before it, and the scope open. -/
def Obligations.FailedBlockReadDeliversPrefix : Prop :=
  ∀ (s : State) (n e : Word) (j c : Nat) (delivered : Bool), s.f = false →
    s.scope = .rdOpen → j < n.toNat → Calm j s →
    s.turns[j]? = some ⟨c, .fail e delivered⟩ →
    ∃ t got, exec (.srdblk n) s = .next t ∧ got.length = j ∧ Responds t 0x02 e got ∧
      t.trace = s.trace ++ exchanges (List.replicate j s.cfg.fill) got ++
        [.xchg s.cfg.fill (.err e)] ∧
      KeepsRing s t ∧ KeepsFault s t ∧ KeepsScope s t

/-- 60_exceptions.md R195, R180, R181: given that each exchange returns and reset does not cut in, a
request ends in exactly one response, whose status is one of the spec's codes. -/
def Obligations.EveryRequestIsAnswered : Prop :=
  ∀ (s : State) (r : Request) (rest : List Input), s.inputs = .request r :: rest → r.wf →
    Returns s → NoReset s →
    ∃ t p, step s = .next t ∧ t.rsp = some p ∧ t.served = s.served ++ [(r, p)] ∧
      p.status ∈ [0x00, 0x01, 0x02, 0x80, 0x81, 0x82, 0x83, 0x84]

/-- 93_implementation_defined.md U24, U22: an operation stops only where an exchange never returns,
and is refused only where SWRBLK's `WDATA` has the wrong length. -/
def Obligations.StopsOnlyWhereSpecSays : Prop :=
  ∀ (i : Instr) (s : State),
    (∀ e, exec i s = .fault e → ∃ u ∈ s.turns, u.link = .hang) ∧
    (∀ e, exec i s = .refused e →
      e = .wdataLength ∧ ∃ d, i = .swrblk d ∧ s.wdata.length ≠ d.toNat)

/-! ## Reset and invariants -/

/-- 70_reset_and_hazards.md R211, R212: the reset input zeroes the block, drops an asserted line and
leaves the device's memory and both its pointer registers, whatever frame was open. -/
def Obligations.ResetInputResetsBlock : Prop :=
  ∀ (s : State) (rest : List Input), s.inputs = .rst :: rest →
    ∃ t, step s = .next t ∧ t.w = 0 ∧ t.cw = 0 ∧ t.lf = 0 ∧ t.scope = .idle ∧ t.sel = false ∧
      t.f = false ∧ t.fc = 0 ∧ t.fi = 0 ∧ t.rsp = none ∧ t.cfg = s.cfg ∧
      t.trace = s.trace ++ (if s.sel then [.sel false] else []) ∧
      t.dev.mem = s.dev.mem ∧ t.dev.rp = s.dev.rp ∧ t.dev.wp = s.dev.wp

/-- 70_reset_and_hazards.md R211: an operation that gives no response was abandoned by reset, and
leaves every register at its reset value and the line released. -/
def Obligations.AbandonedOperationLeavesReset : Prop :=
  ∀ (i : Instr) (s t : State), exec i s = .next t → t.rsp = none →
    t.w = 0 ∧ t.cw = 0 ∧ t.lf = 0 ∧ t.scope = .idle ∧ t.sel = false ∧ t.f = false ∧
      t.fc = 0 ∧ t.fi = 0

/-- 10_state.md R37: the registers right after reset. -/
def Obligations.ResetValues : Prop :=
  State.reset.w = 0 ∧ State.reset.cw = 0 ∧ State.reset.lf = 0 ∧ State.reset.scope = .idle ∧
    State.reset.sel = false ∧ State.reset.f = false ∧ State.reset.fc = 0 ∧ State.reset.fi = 0

/-- 00_scope.md R5, 10_state.md R20: `PTRW` is the least number of bits, at least 1, that holds `C`
values, it is at most 24, and in every state of the invariant `W`, `CW` and `LF` fit it, so that
their 32-bit values are their zero-extensions. -/
def Obligations.PointerWidthFitsRegisters : Prop :=
  (∀ p : Params, p.wf → 1 ≤ p.ptrw ∧ p.ptrw ≤ 24 ∧ p.c ≤ 2 ^ p.ptrw ∧
    ∀ n, 1 ≤ n → p.c ≤ 2 ^ n → p.ptrw ≤ n) ∧
  (∀ s : State, Machine.Inv s → ∀ x ∈ [s.w, s.cw, s.lf],
    ((BitVec.ofNat s.cfg.ptrw x).setWidth 32) = BitVec.ofNat 32 x ∧
      (BitVec.ofNat 32 x).toNat = x)

/-- The invariant of the machine holds right after reset (10_state.md R38, 40_framer.md R144). -/
def Obligations.ResetMeetsMachineInvariant : Prop := Machine.Inv State.reset

/-- 10_state.md R38, 40_framer.md R144: every step keeps the registers in their ranges and widths, `SEL`
asserted exactly in an open scope, the fault registers consistent, the trace legal and ending at the
level of `SEL`, and device memory in its canonical form. -/
def Obligations.StepKeepsMachineInvariant : Prop :=
  ∀ s t : State, Machine.Inv s → step s = .next t → Machine.Inv t

/-- 10_state.md R32: the configuration inputs never change. -/
def Obligations.StepKeepsConfiguration : Prop :=
  ∀ s t : State, step s = .next t → t.cfg = s.cfg

/-- 20_memory.md R62, 10_state.md R39: a step only appends to the transport trace and to the record
of served requests. -/
def Obligations.StepOnlyExtendsObservation : Prop :=
  ∀ s t : State, step s = .next t → s.trace <+: t.trace ∧ s.served <+: t.served

/-- 20_memory.md R74: a coprocessor step that is enabled moves the read pointer forward by `n`, never
past the write pointer, and changes nothing else; one that is not changes nothing. -/
def Obligations.CoprocessorStepRule : Prop :=
  ∀ (s : State) (n : Nat) (rest : List Input), s.cfg.wf → s.inputs = .coprocessor n :: rest →
    s.dev.wpOld = none →
    (s.dev.rp.toNat < s.cfg.c → s.dev.wp.toNat < s.cfg.c → 1 ≤ n →
      n ≤ ringDiff s.cfg s.dev.wp.toNat s.dev.rp.toNat →
      ∃ rp', step s = .next { s with inputs := rest, dev := { s.dev with rp := rp' } } ∧
        rp'.toNat = (s.dev.rp.toNat + n) % s.cfg.c ∧
        ringDiff s.cfg s.dev.wp.toNat rp'.toNat + n =
          ringDiff s.cfg s.dev.wp.toNat s.dev.rp.toNat) ∧
    (s.dev.rp = s.dev.wp ∨ s.cfg.c ≤ s.dev.wp.toNat ∨ n = 0 ∨
      ringDiff s.cfg s.dev.wp.toNat s.dev.rp.toNat < n →
      step s = .next { s with inputs := rest })

/-- 20_memory.md R73: under `REG_READ_ATOMIC` a 32-bit read of the read-pointer register returns the
value the register held after the coprocessor's steps at the first `k` transport events of the read,
a moment between the frame's `Sel(1)` and its first data byte. -/
def Obligations.AtomicReadReturnsHeldPointer : Prop :=
  ∀ s : State, s.cfg.wf → s.cfg.regReadAtomic = true → s.f = false → s.scope = .idle →
    ReferenceEnv s → s.dev.lost = false → s.dev.wpOld = none →
    Framable s.cfg (s.cfg.regCmdRead.setWidth 32) →
    ∃ (t : State) (k : Nat), exec (.rd32 (s.cfg.regCmdRead.setWidth 32)) s = .next t ∧
      1 ≤ k ∧ k ≤ 5 + s.cfg.rdDummy ∧
      Responds t 0x00
        ((s.turns.take k).foldl (fun d u => Device.consume s.cfg u.consume d) s.dev).rp []

/-- 20_memory.md R76, 41_ring_manager.md R164: the coupling invariant and the no-overrun property
hold right after reset, beside a device initialised at `DEV_RESET_PTRS = 0` (the model's reset
value, log 1 and log 6). -/
def Obligations.ResetIsCoupled : Prop := Coupled State.reset ∧ NoOverrun State.reset

/-- 60_exceptions.md R199, 70_reset_and_hazards.md R213: when the device initialises itself the
block's registers, port and trace are unchanged (the device's side is the model's, log 11). -/
def Obligations.DeviceInitLeavesBlock : Prop :=
  ∀ (s : State) (rest : List Input), s.inputs = .deviceInit :: rest →
    ∃ t, step s = .next t ∧ KeepsRing s t ∧ KeepsFault s t ∧ KeepsScope s t ∧ t.rsp = s.rsp ∧
      t.trace = s.trace ∧ t.dev = Device.initial s.cfg

/-- 10_state.md R28, 70_reset_and_hazards.md R210: with nothing presented the block waits (log 2). -/
def Obligations.IdleBlockWaits : Prop := ∀ s : State, s.inputs = [] → step s = .next s

/-- 30_encoding.md R107, R108: what the assembler and the pseudo-operations issue keeps the port's
contract of 10_state.md R31. -/
def Obligations.PseudoOperationsKeepContract : Prop :=
  ∀ (p : Params) (w : Nat) (a v bound : Word) (bytes : List Byte), bytes.length < 2 ^ 32 →
    ∀ r ∈ readN a w ++ writeN a v w ++ writeBlock a bytes ++ enq32 p w v ++ enqueue p w bytes ++
      flush bound, r.wf

/-- 41_ring_manager.md R158, 93_implementation_defined.md U9: after a COMMIT that failed, under
`REG_WRITE_ATOMIC` and a 32-bit access, the device's write-pointer register holds the old value or
the new one, and `CW` the old (which of them is the model's choice, log 8). -/
def Obligations.FailedCommitLeavesOldOrNew : Prop :=
  ∀ (s t : State) (e : Word), s.cfg.wf → s.cfg.ptrXfer = .w32 → s.cfg.regWriteAtomic = true →
    s.f = false → s.scope = .idle → s.dev.lost = false →
    Framable s.cfg (s.cfg.regCmdWrite.setWidth 32) → exec .commit s = .next t →
    Responds t 0x02 e [] →
    t.cw = s.cw ∧ (t.dev.wp = s.dev.wp ∨ t.dev.wp = BitVec.ofNat 32 s.w)
end

