-- ==== Sys2Proof/Laws/Bits.lean ====
section
/-! SUPPORT. The laws of the two byte orders (20_memory.md R53, R54) and of the ring arithmetic
(41_ring_manager.md R151). -/

namespace Sys2Proof.Machine

theorem byteOf_withByte_same (v : Word) (i : Nat) (hi : i < 4) (b : Byte) :
    byteOf (withByte v i b) i = b := by
  apply BitVec.eq_of_getLsbD_eq
  intro j hj
  simp only [byteOf, withByte, BitVec.getLsbD_extractLsb', BitVec.getLsbD_or, BitVec.getLsbD_and,
    BitVec.getLsbD_not, BitVec.getLsbD_shiftLeft, BitVec.getLsbD_setWidth]
  have h1 : 8 * i + j < 32 := by omega
  have h2 : ¬ 8 * i + j < 8 * i := by omega
  have h3 : 8 * i + j - 8 * i = j := by omega
  simp only [h1, h2, h3, hj]
  interval_cases j <;> simp

theorem byteOf_withByte_other (v : Word) {i j : Nat} (hij : j ≠ i) (hi : i < 4) (hj : j < 4)
    (b : Byte) : byteOf (withByte v i b) j = byteOf v j := by
  apply BitVec.eq_of_getLsbD_eq
  intro l hl
  simp only [byteOf, withByte, BitVec.getLsbD_extractLsb', BitVec.getLsbD_or, BitVec.getLsbD_and,
    BitVec.getLsbD_not, BitVec.getLsbD_shiftLeft, BitVec.getLsbD_setWidth]
  interval_cases i <;> interval_cases j <;> first | omega | (interval_cases l <;> simp)

@[simp] theorem payload_length (v : Word) (k : Nat) : (payload v k).length = k := by
  simp [payload]

theorem payload_getElem? (v : Word) {k i : Nat} (hi : i < k) :
    (payload v k)[i]? = some (byteOf v i) := by
  simp [payload, hi]

theorem leValue_payload_one (v : Word) : leValue (payload v 1) = (v.setWidth 8).setWidth 32 := by
  apply BitVec.eq_of_getLsbD_eq
  intro l hl
  simp only [payload, List.range, List.range.loop, List.map, leValue, byteOf]
  simp

theorem leValue_payload_two (v : Word) : leValue (payload v 2) = (v.setWidth 16).setWidth 32 := by
  apply BitVec.eq_of_getLsbD_eq
  intro l hl
  simp only [payload, List.range, List.range.loop, List.map, leValue, byteOf]
  simp
  interval_cases l <;> simp

theorem leValue_payload_four (v : Word) : leValue (payload v 4) = v := by
  apply BitVec.eq_of_getLsbD_eq
  intro l hl
  simp only [payload, List.range, List.range.loop, List.map, leValue, byteOf]
  simp
  interval_cases l <;> simp

theorem getLsbD_append_byte {n : Nat} (x : BitVec n) (b : Byte) (l : Nat) :
    (x ++ b).getLsbD l = if l < 8 then b.getLsbD l else x.getLsbD (l - 8) :=
  BitVec.getLsbD_append

theorem getLsbD_leValue_cons (b : Byte) (bs : List Byte) {l : Nat} (hl : l < 32) :
    (leValue (b :: bs)).getLsbD l =
      if l < 8 then b.getLsbD l else (leValue bs).getLsbD (l - 8) := by
  simp only [leValue, BitVec.getLsbD_or, BitVec.getLsbD_shiftLeft, BitVec.getLsbD_setWidth, hl,
    decide_true, Bool.true_and]
  by_cases h : l < 8
  · simp [h]
  · have : b.getLsbD l = false := BitVec.getLsbD_of_ge b l (by omega)
    simp [h, this]

/-- The value of one byte (20_memory.md R53). -/
theorem leValue_one (b0 : Byte) : leValue [b0] = b0.setWidth 32 := by
  simp [leValue]

/-- The value of two bytes, first byte least significant. -/
theorem leValue_two (b0 b1 : Byte) : leValue [b0, b1] = (b1 ++ b0).setWidth 32 := by
  apply BitVec.eq_of_getLsbD_eq
  intro l hl
  rw [getLsbD_leValue_cons _ _ hl, getLsbD_leValue_cons _ _ (by omega : l - 8 < 32),
    BitVec.getLsbD_setWidth, getLsbD_append_byte]
  by_cases h1 : l < 8
  · simp [h1, hl]
  · by_cases h2 : l - 8 < 8
    · simp [h1, h2, hl]
    · have : b1.getLsbD (l - 8) = false := BitVec.getLsbD_of_ge b1 _ (by omega)
      simp [h1, h2, leValue, this]

/-- The value of four bytes, first byte least significant. -/
theorem leValue_four (b0 b1 b2 b3 : Byte) : leValue [b0, b1, b2, b3] = b3 ++ b2 ++ b1 ++ b0 := by
  apply BitVec.eq_of_getLsbD_eq
  intro l hl
  rw [getLsbD_leValue_cons _ _ hl, getLsbD_leValue_cons _ _ (by omega : l - 8 < 32),
    getLsbD_leValue_cons _ _ (by omega : l - 8 - 8 < 32),
    getLsbD_leValue_cons _ _ (by omega : l - 8 - 8 - 8 < 32)]
  have e := getLsbD_append_byte (b3 ++ b2 ++ b1) b0 l
  rw [getLsbD_append_byte (b3 ++ b2) b1, getLsbD_append_byte b3 b2] at e
  refine Eq.trans ?_ e.symm
  by_cases h1 : l < 8
  · simp [h1]
  · by_cases h2 : l - 8 < 8
    · simp [h1, h2]
    · by_cases h3 : l - 8 - 8 < 8
      · simp [h1, h2, h3]
      · have h4 : l - 8 - 8 - 8 < 8 := by omega
        simp [h1, h2, h3, h4]

/-- Any three bytes are the bytes of one 24-bit word, most significant first (20_memory.md R54). -/
theorem addrBytes_append (b0 b1 b2 : Byte) : addrBytes ((b0 ++ b1) ++ b2) = [b0, b1, b2] := by
  have e : ∀ l : Nat, ((b0 ++ b1) ++ b2 : Addr).getLsbD l =
      if l < 8 then b2.getLsbD l
      else if l - 8 < 8 then b1.getLsbD (l - 8) else b0.getLsbD (l - 8 - 8) := by
    intro l
    have h := getLsbD_append_byte (b0 ++ b1) b2 l
    rw [getLsbD_append_byte b0 b1] at h
    exact h
  have key : ∀ (v : Byte) (st : Nat),
      (∀ l < 8, ((b0 ++ b1) ++ b2 : Addr).getLsbD (st + l) = v.getLsbD l) →
      ((b0 ++ b1) ++ b2 : Addr).extractLsb' st 8 = v := by
    intro v st h
    apply BitVec.eq_of_getLsbD_eq
    intro l hl
    simp only [BitVec.getLsbD_extractLsb', hl, decide_true, Bool.true_and]
    exact h l hl
  simp only [addrBytes]
  rw [key b0 16, key b1 8, key b2 0]
  · intro l hl
    rw [e]
    simp [hl]
  · intro l hl
    have h1 : ¬ 8 + l < 8 := by omega
    have h2 : 8 + l - 8 = l := by omega
    rw [e, if_neg h1, h2, if_pos hl]
  · intro l hl
    have h1 : ¬ 16 + l < 8 := by omega
    have h2 : ¬ 16 + l - 8 < 8 := by omega
    have h3 : 16 + l - 8 - 8 = l := by omega
    rw [e, if_neg h1, if_neg h2, h3]

/-- The responder rebuilds the preamble word from its three bytes (20_memory.md R54, R71). -/
theorem addrBytes_accumulate (w : Addr) :
    ((((((0 : Addr) <<< 8) ||| (w.extractLsb' 16 8).setWidth 24) <<< 8 |||
      (w.extractLsb' 8 8).setWidth 24) <<< 8) ||| (w.extractLsb' 0 8).setWidth 24) = w := by
  apply BitVec.eq_of_getLsbD_eq
  intro l hl
  simp
  interval_cases l <;> simp

@[simp] theorem addrBytes_length (w : Addr) : (addrBytes w).length = 3 := rfl

@[simp] theorem preamble_rd_length (p : Params) (a : Word) :
    (preamble p .rd a).length = 3 + p.rdDummy := by
  simp [preamble, Nat.add_comm]

@[simp] theorem preamble_wr_length (p : Params) (a : Word) : (preamble p .wr a).length = 3 := by
  simp [preamble]

theorem ringDiff_of_le {p : Params} {x y : Nat} (hx : x < p.c) (hyx : y ≤ x) :
    ringDiff p x y = x - y := by
  unfold ringDiff
  rw [Int.emod_eq_of_lt (by omega) (by omega)]
  omega

theorem ringDiff_of_lt {p : Params} {x y : Nat} (hy : y < p.c) (hxy : x < y) :
    ringDiff p x y = x + p.c - y := by
  unfold ringDiff
  have h : ((x : Int) - y) % (p.c : Int) = (x : Int) - y + p.c := by
    rw [← Int.add_emod_right, Int.emod_eq_of_lt (by omega) (by omega)]
  rw [h]
  omega

theorem ringDiff_lt {p : Params} {x y : Nat} (hx : x < p.c) (hy : y < p.c) :
    ringDiff p x y < p.c := by
  rcases Nat.lt_or_ge x y with h | h
  · rw [ringDiff_of_lt hy h]; omega
  · rw [ringDiff_of_le hx h]; omega

/-- The bytes that can be written before `W` would meet `R`: all but one of those not in use. -/
theorem dist_eq {p : Params} {r w : Nat} (hr : r < p.c) (hw : w < p.c) :
    dist p r w = p.c - 1 - ringDiff p w r := by
  have hmod : r % p.c = r := Nat.mod_eq_of_lt hr
  unfold dist
  rw [hmod]
  rcases Nat.lt_or_ge w r with h | h
  · rw [ringDiff_of_lt hr h]
    have h' : (((r : Int) + p.c - w - 1) % (p.c : Int)) = (r : Int) - w - 1 := by
      have : ((r : Int) + p.c - w - 1) = ((r : Int) - w - 1) + p.c := by ring
      rw [this, Int.add_emod_right, Int.emod_eq_of_lt (by omega) (by omega)]
    rw [h']
    omega
  · rw [ringDiff_of_le hw h]
    rw [Int.emod_eq_of_lt (by omega) (by omega)]
    omega

theorem dist_mod (p : Params) (r w : Nat) : dist p (r % p.c) w = dist p r w := by
  simp [dist]

theorem dist_lt {p : Params} (hc : 0 < p.c) (r w : Nat) : dist p r w < p.c := by
  unfold dist
  have h1 := Int.emod_lt_of_pos (((r % p.c : Nat) : Int) + p.c - w - 1) (b := (p.c : Int)) (by omega)
  have h2 := Int.emod_nonneg (((r % p.c : Nat) : Int) + p.c - w - 1) (b := (p.c : Int)) (by omega)
  omega

/-- `LF`'s range (10_state.md R23). -/
theorem freeSpace_le {p : Params} (hp : p.m + 2 ≤ p.c) (r w : Nat) :
    freeSpace p r w + p.m + 1 ≤ p.c := by
  have h := dist_lt (p := p) (by omega) r w
  unfold freeSpace
  split <;> omega

theorem nextPtr_lt {p : Params} (hc : 0 < p.c) (w n : Nat) : nextPtr p w n < p.c :=
  Nat.mod_lt _ hc

end Sys2Proof.Machine
end

