-- ==== Sys2Proof/Laws/Memory.lean ====
section
/-! SUPPORT. The laws of device memory: read after write, and the canonical form (20_memory.md
R63, R70). -/

namespace Sys2Proof.Machine

theorem Memory.read_write_same (a : Nat) (b : Byte) (m : Memory) :
    (m.write a b).read a = some b := by
  induction m with
  | nil => simp [Memory.write, Memory.read]
  | cons c rest ih =>
    obtain ⟨k, v⟩ := c
    rcases Nat.lt_trichotomy a k with h | h | h
    · simp [Memory.write, Memory.read, h]
    · simp [Memory.write, Memory.read, h]
    · have h1 : ¬ a < k := by omega
      have h2 : ¬ a = k := by omega
      have h3 : ¬ k = a := by omega
      simpa [Memory.write, Memory.read, h1, h2, h3] using ih

theorem Memory.read_write_other {a x : Nat} (hx : x ≠ a) (b : Byte) (m : Memory) :
    (m.write a b).read x = m.read x := by
  induction m with
  | nil => simp [Memory.write, Memory.read, Ne.symm hx]
  | cons c rest ih =>
    obtain ⟨k, v⟩ := c
    rcases Nat.lt_trichotomy a k with h | h | h
    · simp [Memory.write, Memory.read, h, Ne.symm hx]
    · subst h
      simp [Memory.write, Memory.read, Ne.symm hx]
    · have h1 : ¬ a < k := by omega
      have h2 : ¬ a = k := by omega
      simp only [Memory.write, h1, h2, if_false, Memory.read, ih]

theorem Memory.mem_write {a : Nat} {b : Byte} {m : Memory} {c : Host.Cell}
    (hc : c ∈ m.write a b) : c = (a, b) ∨ c ∈ m := by
  induction m with
  | nil => simpa [Memory.write] using hc
  | cons d rest ih =>
    obtain ⟨k, v⟩ := d
    simp only [Memory.write] at hc
    split at hc
    · simpa using hc
    · split at hc
      · simp only [List.mem_cons] at hc ⊢
        tauto
      · simp only [List.mem_cons] at hc ⊢
        rcases hc with h | h
        · exact .inr (.inl h)
        · rcases ih h with h | h <;> tauto

/-- Every write keeps the canonical form. -/
theorem Memory.write_wf {a : Nat} (ha : a < deviceSize) (b : Byte) {m : Memory} (hm : m.wf) :
    (m.write a b).wf := by
  refine ⟨?_, fun c hc => ?_⟩
  · have hr := hm.1
    clear hm
    induction m with
    | nil => simp [Memory.write]
    | cons d rest ih =>
      obtain ⟨k, v⟩ := d
      rw [List.pairwise_cons] at hr
      simp only [Memory.write]
      split
      · next h =>
        refine List.pairwise_cons.2 ⟨?_, List.pairwise_cons.2 ⟨hr.1, hr.2⟩⟩
        intro c hc
        rcases List.mem_cons.1 hc with rfl | hc
        · exact h
        · exact lt_trans h (hr.1 c hc)
      · split
        · next h =>
          subst h
          exact List.pairwise_cons.2 ⟨hr.1, hr.2⟩
        · refine List.pairwise_cons.2 ⟨fun c hc => ?_, ih hr.2⟩
          rcases Memory.mem_write hc with rfl | hc
          · simp only; omega
          · exact hr.1 c hc
  · rcases Memory.mem_write hc with rfl | hc
    · exact ha
    · exact hm.2 c hc

theorem Memory.nil_wf : Memory.wf [] := by simp [Memory.wf]

end Sys2Proof.Machine
end

