-- ==== Sys2Proof/Laws/Device.lean ====
section
/-! SUPPORT. What the device's operations do: one lemma per operation, and the canonical form kept
by each (20_memory.md R70 to R75). -/

namespace Sys2Proof.Machine

theorem regOffset_lt {base : Addr} {a i : Nat} (h : regOffset base a = some i) : i < 4 := by
  unfold regOffset at h
  split at h
  · simp only [Option.some.injEq] at h; omega
  · cases h

theorem regOffset_eq_none {base : Addr} {a : Nat} :
    regOffset base a = none ↔ a < base.toNat ∨ base.toNat + 4 ≤ a := by
  unfold regOffset
  split <;> simp <;> omega

/-! The coprocessor's step changes `RP` alone. -/

section consume
variable (p : Params) (n : Nat) (d : Device)

@[simp] theorem Device.consume_mem : (d.consume p n).mem = d.mem := by
  unfold Device.consume; split <;> rfl
@[simp] theorem Device.consume_wp : (d.consume p n).wp = d.wp := by
  unfold Device.consume; split <;> rfl
@[simp] theorem Device.consume_phase : (d.consume p n).phase = d.phase := by
  unfold Device.consume; split <;> rfl
@[simp] theorem Device.consume_cur : (d.consume p n).cur = d.cur := by
  unfold Device.consume; split <;> rfl
@[simp] theorem Device.consume_latch : (d.consume p n).latch = d.latch := by
  unfold Device.consume; split <;> rfl
@[simp] theorem Device.consume_wpOld : (d.consume p n).wpOld = d.wpOld := by
  unfold Device.consume; split <;> rfl
@[simp] theorem Device.consume_wpMask : (d.consume p n).wpMask = d.wpMask := by
  unfold Device.consume; split <;> rfl
@[simp] theorem Device.consume_lost : (d.consume p n).lost = d.lost := by
  unfold Device.consume; split <;> rfl

@[simp] theorem Device.consume_zero : d.consume p 0 = d := by
  simp [Device.consume, Device.mayConsume]

theorem Device.consume_byteAt {x : Nat} (hx : regOffset p.regCmdRead x = none) :
    (d.consume p n).byteAt p x = d.byteAt p x := by
  simp [Device.byteAt, hx]

/-- Where the coprocessor may consume `n` bytes, the ring distance from `RP` to `WP` falls by `n`
and `RP` stays an offset (R74). -/
theorem Device.consume_spec (hc : p.c ≤ deviceSize) :
    d.consume p n = d ∨
      (1 ≤ n ∧ n ≤ ringDiff p d.wp.toNat d.rp.toNat ∧ d.wp.toNat < p.c ∧
        (p.regWriteAtomic && d.wpOld.isSome) = false ∧
        (d.consume p n).rp.toNat = (d.rp.toNat + n) % p.c ∧ (d.consume p n).rp.toNat < p.c) := by
  unfold Device.consume
  split
  · next h =>
    right
    simp only [Device.mayConsume, Bool.and_eq_true, decide_eq_true_eq, Bool.not_eq_true',
      bne_iff_ne] at h
    obtain ⟨⟨⟨⟨-, h1⟩, h2⟩, h3⟩, h4⟩ := h
    have hlt : (d.rp.toNat + n) % p.c < p.c := Nat.mod_lt _ (by omega)
    have he : (BitVec.ofNat 32 ((d.rp.toNat + n) % p.c)).toNat = (d.rp.toNat + n) % p.c := by
      rw [BitVec.toNat_ofNat]
      exact Nat.mod_eq_of_lt (by simp only [deviceSize] at hc; omega)
    exact ⟨h2, h3, h1, h4, by simpa using he, by simp only [he]; exact hlt⟩
  · exact .inl rfl

end consume

/-! A store. -/

theorem Device.store_lost (p : Params) (a : Nat) (b : Byte) (d : Device) :
    (d.store p a b).lost = d.lost := by
  unfold Device.store; split <;> [rfl; (split <;> rfl)]

theorem Device.store_phase (p : Params) (a : Nat) (b : Byte) (d : Device) :
    (d.store p a b).phase = d.phase := by
  unfold Device.store; split <;> [rfl; (split <;> rfl)]

theorem Device.store_latch (p : Params) (a : Nat) (b : Byte) (d : Device) :
    (d.store p a b).latch = d.latch := by
  unfold Device.store; split <;> [rfl; (split <;> rfl)]

/-- A stored byte is read back, a byte elsewhere is untouched (R63, R72). -/
theorem Device.byteAt_store {p : Params} {d : Device} (hl : d.lost = false) {a x : Nat} (b : Byte) :
    (d.store p a b).byteAt p x = if x = a then some b else d.byteAt p x := by
  have hst := Device.store_lost p a b d
  unfold Device.byteAt
  rw [hst, hl]
  simp only [Bool.false_eq_true, if_false]
  unfold Device.store
  have key : ∀ (base : Addr) (i j : Nat), regOffset base a = some i → regOffset base x = some j →
      (j = i ↔ x = a) := by
    intro base i j h1 h2
    unfold regOffset at h1 h2
    split at h1 <;> split at h2 <;> simp at h1 h2
    omega
  cases hra : regOffset p.regCmdRead a with
  | some i =>
    simp only
    cases hrx : regOffset p.regCmdRead x with
    | some j =>
      simp only
      by_cases hxa : x = a
      · have := (key _ _ _ hra hrx).2 hxa
        subst this
        simp [hxa, byteOf_withByte_same _ _ (regOffset_lt hra)]
      · have hij : j ≠ i := fun h => hxa ((key _ _ _ hra hrx).1 h)
        simp [hxa, byteOf_withByte_other _ hij (regOffset_lt hra) (regOffset_lt hrx)]
    | none =>
      have hxa : x ≠ a := by rintro rfl; rw [hra] at hrx; cases hrx
      simp [hxa]
  | none =>
    simp only
    cases hwa : regOffset p.regCmdWrite a with
    | some i =>
      simp only
      cases hrx : regOffset p.regCmdRead x with
      | some j =>
        have hxa : x ≠ a := by rintro rfl; rw [hra] at hrx; cases hrx
        simp [hxa]
      | none =>
        simp only
        cases hwx : regOffset p.regCmdWrite x with
        | some j =>
          simp only
          by_cases hxa : x = a
          · have := (key _ _ _ hwa hwx).2 hxa
            subst this
            simp [hxa, byteOf_withByte_same _ _ (regOffset_lt hwa)]
          · have hij : j ≠ i := fun h => hxa ((key _ _ _ hwa hwx).1 h)
            simp [hxa, byteOf_withByte_other _ hij (regOffset_lt hwa) (regOffset_lt hwx)]
        | none =>
          have hxa : x ≠ a := by rintro rfl; rw [hwa] at hwx; cases hwx
          simp [hxa]
    | none =>
      simp only
      by_cases hxa : x = a
      · subst hxa
        simp [hra, hwa, Memory.read_write_same]
      · simp [hxa, Memory.read_write_other hxa]

/-! The canonical form is kept by every operation of the device. -/

theorem Device.store_mem_wf {p : Params} {a : Nat} {b : Byte} {d : Device} (ha : a < deviceSize)
    (h : d.mem.wf) : (d.store p a b).mem.wf := by
  unfold Device.store
  split
  · exact h
  · split
    · exact h
    · exact Memory.write_wf ha b h

theorem Device.readData_mem (p : Params) (d : Device) : (d.readData p).1.mem = d.mem := by
  unfold Device.readData
  split
  · rfl
  · split <;> rfl

theorem Device.writeData_mem_wf {p : Params} {b : Byte} {d : Device} (h : d.mem.wf) :
    (d.writeData p b).mem.wf := by
  unfold Device.writeData
  split
  · exact h
  · next hc =>
    simp only [Bool.or_eq_true, decide_eq_true_eq, not_or, not_le] at hc
    exact Device.store_mem_wf hc.2 h

theorem Device.enterFrame_mem (p : Params) (w : Addr) (d : Device) :
    (d.enterFrame p w).mem = d.mem := by
  unfold Device.enterFrame
  simp only
  split
  · rfl
  · split <;> rfl

theorem Device.exchange_mem_wf {p : Params} {b : Byte} {d : Device} (h : d.mem.wf) :
    (d.exchange p b).1.mem.wf := by
  unfold Device.exchange
  split
  · exact h
  · simp only
    split
    · exact h
    · rw [Device.enterFrame_mem]; exact h
  · exact h
  · rw [Device.readData_mem]; exact h
  · exact Device.writeData_mem_wf h
  · exact h

@[simp] theorem Device.select_mem (d : Device) : d.select.mem = d.mem := rfl
@[simp] theorem Device.deselect_mem (d : Device) : d.deselect.mem = d.mem := rfl
@[simp] theorem Device.select_rp (d : Device) : d.select.rp = d.rp := rfl
@[simp] theorem Device.deselect_rp (d : Device) : d.deselect.rp = d.rp := rfl
@[simp] theorem Device.select_wp (d : Device) : d.select.wp = d.wp := rfl
@[simp] theorem Device.deselect_wp (d : Device) : d.deselect.wp = d.wp := rfl
@[simp] theorem Device.select_lost (d : Device) : d.select.lost = d.lost := rfl
@[simp] theorem Device.deselect_lost (d : Device) : d.deselect.lost = d.lost := rfl

/-- A COMMIT that failed changes nothing of the device but `WP` (41_ring_manager.md R158, U9). -/
theorem Device.settleWP_eq (p : Params) (d : Device) :
    d.settleWP p = d ∨ d.settleWP p = { d with wp := d.wpOld.getD d.wp } := by
  unfold Device.settleWP
  split
  · exact .inr rfl
  · exact .inl rfl

end Sys2Proof.Machine
end

