-- ==== Sys2Proof/Laws/Encoding.lean ====
section
/-! SUPPORT. The three fields of a request word are read back from it (30_encoding.md R90). -/

namespace Sys2Proof

theorem getLsbD_requestWord (op : Byte) (a d : Word) (l : Nat) :
    (requestWord op a d).getLsbD l =
      if l < 32 then d.getLsbD l
      else if l - 32 < 32 then a.getLsbD (l - 32) else op.getLsbD (l - 32 - 32) := by
  have h1 := BitVec.getLsbD_append (x := op ++ a) (y := d) (i := l)
  have h2 := BitVec.getLsbD_append (x := op) (y := a) (i := l - 32)
  rw [h2] at h1
  exact h1

theorem opField_requestWord (op : Byte) (a d : Word) : opField (requestWord op a d) = op := by
  apply BitVec.eq_of_getLsbD_eq
  intro l hl
  have h1 : ¬ 64 + l < 32 := by omega
  have h2 : ¬ 64 + l - 32 < 32 := by omega
  have h3 : 64 + l - 32 - 32 = l := by omega
  simp only [opField, BitVec.getLsbD_extractLsb', getLsbD_requestWord, h1, h2, h3, hl, if_false,
    decide_true, Bool.true_and]

theorem aField_requestWord (op : Byte) (a d : Word) : aField (requestWord op a d) = a := by
  apply BitVec.eq_of_getLsbD_eq
  intro l hl
  have h1 : ¬ 32 + l < 32 := by omega
  have h2 : 32 + l - 32 = l := by omega
  simp only [aField, BitVec.getLsbD_extractLsb', getLsbD_requestWord, h1, h2, hl, if_false, if_true,
    decide_true, Bool.true_and]

theorem dField_requestWord (op : Byte) (a d : Word) : dField (requestWord op a d) = d := by
  apply BitVec.eq_of_getLsbD_eq
  intro l hl
  simp only [dField, BitVec.getLsbD_extractLsb', getLsbD_requestWord, Nat.zero_add, hl, if_true,
    decide_true, Bool.true_and]

end Sys2Proof
end

