-- ==== Sys2Proof/Laws/Feed.lean ====
section
/-! SUPPORT. What the device does over a run of exchanges, phase by phase: preamble, dummies, read
data, write data (20_memory.md R71 to R74). -/

namespace Sys2Proof.Machine

/-- The coprocessor's consumption at the next turn. -/
abbrev headConsume (ts : List Turn) : Nat := (ts.headD ⟨0, .reply⟩).consume

/-- The device after a run of exchanges whose bytes all reach it. -/
def feed (p : Params) : List Byte → List Turn → Device → Device
  | [], _, d => d
  | b :: bs, ts, d => feed p bs ts.tail ((d.consume p (headConsume ts)).exchange p b).1

/-- What the reference device answers over such a run. -/
def answers (p : Params) : List Byte → List Turn → Device → List (Option Byte)
  | [], _, _ => []
  | b :: bs, ts, d =>
    ((d.consume p (headConsume ts)).exchange p b).2 ::
      answers p bs ts.tail ((d.consume p (headConsume ts)).exchange p b).1

/-- Several steps of the coprocessor. -/
def consumes (p : Params) (ns : List Nat) (d : Device) : Device :=
  ns.foldl (fun d n => d.consume p n) d

theorem feed_append (p : Params) (xs ys : List Byte) (ts : List Turn) (d : Device) :
    feed p (xs ++ ys) ts d = feed p ys (ts.drop xs.length) (feed p xs ts d) := by
  induction xs generalizing ts d with
  | nil => rfl
  | cons b bs ih => simp [feed, ih]

theorem answers_append (p : Params) (xs ys : List Byte) (ts : List Turn) (d : Device) :
    answers p (xs ++ ys) ts d = answers p xs ts d ++
      answers p ys (ts.drop xs.length) (feed p xs ts d) := by
  induction xs generalizing ts d with
  | nil => rfl
  | cons b bs ih => simp [feed, answers, ih]

@[simp] theorem answers_length (p : Params) (xs : List Byte) (ts : List Turn) (d : Device) :
    (answers p xs ts d).length = xs.length := by
  induction xs generalizing ts d with
  | nil => rfl
  | cons b bs ih => simp [answers, ih]

theorem feed_mem_wf (p : Params) (xs : List Byte) (ts : List Turn) (d : Device)
    (h : d.mem.wf) : (feed p xs ts d).mem.wf := by
  induction xs generalizing ts d with
  | nil => exact h
  | cons b bs ih => exact ih _ _ (Device.exchange_mem_wf (by simpa using h))

/-- The coprocessor's step reads neither `phase` nor the frame's other fields. -/
theorem Device.consume_eq (p : Params) (n : Nat) (d : Device) :
    d.consume p n = { d with rp := (d.consume p n).rp } := by
  unfold Device.consume
  split <;> rfl

theorem Device.consume_rp_congr (p : Params) (n : Nat) {d e : Device} (hr : d.rp = e.rp)
    (hw : d.wp = e.wp) (ho : d.wpOld = e.wpOld) : (d.consume p n).rp = (e.consume p n).rp := by
  unfold Device.consume Device.mayConsume
  rw [hr, hw, ho]
  split <;> simp_all

@[simp] theorem consumes_nil (p : Params) (d : Device) : consumes p [] d = d := rfl

theorem consumes_append (p : Params) (ns ms : List Nat) (d : Device) :
    consumes p (ns ++ ms) d = consumes p ms (consumes p ns d) := by
  simp [consumes]

theorem consumes_eq (p : Params) (ns : List Nat) (d : Device) :
    consumes p ns d = { d with rp := (consumes p ns d).rp } := by
  induction ns generalizing d with
  | nil => rfl
  | cons n ns ih =>
    have h : consumes p (n :: ns) d = consumes p ns (d.consume p n) := rfl
    rw [h, ih]
    rw [Device.consume_eq]

theorem consumes_rp_congr (p : Params) (ns : List Nat) {d e : Device} (hr : d.rp = e.rp)
    (hw : d.wp = e.wp) (ho : d.wpOld = e.wpOld) : (consumes p ns d).rp = (consumes p ns e).rp := by
  induction ns generalizing d e with
  | nil => exact hr
  | cons n ns ih =>
    exact ih (Device.consume_rp_congr p n hr hw ho) (by simpa using hw) (by simpa using ho)

theorem consumes_rest (p : Params) {ns : List Nat} (h : ∀ n ∈ ns, n = 0) (d : Device) :
    consumes p ns d = d := by
  induction ns generalizing d with
  | nil => rfl
  | cons n ns ih =>
    have h0 : n = 0 := h n (by simp)
    subst h0
    exact (ih (fun m hm => h m (by simp [hm])) _).trans (Device.consume_zero p d)

/-- A device with the fields of its frame decoder set. -/
def framed (ph : Phase) (cur : Nat) (latch : List Byte) (d : Device) : Device :=
  { d with phase := ph, cur := cur, latch := latch }

section framed
variable (ph : Phase) (cur : Nat) (latch : List Byte) (d : Device)
@[simp] theorem framed_mem : (framed ph cur latch d).mem = d.mem := rfl
@[simp] theorem framed_wp : (framed ph cur latch d).wp = d.wp := rfl
@[simp] theorem framed_rp : (framed ph cur latch d).rp = d.rp := rfl
@[simp] theorem framed_phase : (framed ph cur latch d).phase = ph := rfl
@[simp] theorem framed_cur : (framed ph cur latch d).cur = cur := rfl
@[simp] theorem framed_latch : (framed ph cur latch d).latch = latch := rfl
@[simp] theorem framed_wpOld : (framed ph cur latch d).wpOld = d.wpOld := rfl
@[simp] theorem framed_wpMask : (framed ph cur latch d).wpMask = d.wpMask := rfl
@[simp] theorem framed_lost : (framed ph cur latch d).lost = d.lost := rfl
@[simp] theorem framed_framed (ph' : Phase) (cur' : Nat) (latch' : List Byte) :
    framed ph' cur' latch' (framed ph cur latch d) = framed ph' cur' latch' d := rfl
@[simp] theorem framed_self : framed d.phase d.cur d.latch d = d := rfl
@[simp] theorem framed_byteAt (p : Params) (x : Nat) :
    (framed ph cur latch d).byteAt p x = d.byteAt p x := rfl

theorem consume_framed (p : Params) (n : Nat) :
    (framed ph cur latch d).consume p n = framed ph cur latch (d.consume p n) := by
  rw [Device.consume_eq p n (framed ph cur latch d),
    Device.consume_rp_congr p n (d := framed ph cur latch d) (e := d) rfl rfl rfl,
    Device.consume_eq p n d]
  rfl

@[simp] theorem consumes_framed (p : Params) (ns : List Nat) :
    consumes p ns (framed ph cur latch d) = framed ph cur latch (consumes p ns d) := by
  induction ns generalizing d with
  | nil => rfl
  | cons n ns ih =>
    have h : ∀ e : Device, consumes p (n :: ns) e = consumes p ns (e.consume p n) := fun _ => rfl
    rw [h, h, consume_framed, ih]
end framed

section consumes
variable (p : Params) (ns : List Nat) (d : Device)
@[simp] theorem consumes_mem : (consumes p ns d).mem = d.mem := by rw [consumes_eq]
@[simp] theorem consumes_wp : (consumes p ns d).wp = d.wp := by rw [consumes_eq]
@[simp] theorem consumes_phase : (consumes p ns d).phase = d.phase := by rw [consumes_eq]
@[simp] theorem consumes_cur : (consumes p ns d).cur = d.cur := by rw [consumes_eq]
@[simp] theorem consumes_latch : (consumes p ns d).latch = d.latch := by rw [consumes_eq]
@[simp] theorem consumes_wpOld : (consumes p ns d).wpOld = d.wpOld := by rw [consumes_eq]
@[simp] theorem consumes_wpMask : (consumes p ns d).wpMask = d.wpMask := by rw [consumes_eq]
@[simp] theorem consumes_lost : (consumes p ns d).lost = d.lost := by rw [consumes_eq]
theorem consumes_cons (n : Nat) : consumes p (n :: ns) d = consumes p ns (d.consume p n) := rfl
end consumes

/-- What the coprocessor consumes at the next `k` turns. -/
def takes : Nat → List Turn → List Nat
  | 0, _ => []
  | k + 1, ts => headConsume ts :: takes k ts.tail

theorem takes_rest {ts : List Turn} (h : ∀ u ∈ ts, u.consume = 0) (k : Nat) :
    ∀ n ∈ takes k ts, n = 0 := by
  induction k generalizing ts with
  | zero => simp [takes]
  | succ k ih =>
    intro n hn
    rcases List.mem_cons.1 hn with rfl | hn
    · cases ts with
      | nil => rfl
      | cons u us => exact h u (by simp)
    · exact ih (fun u hu => h u (List.mem_of_mem_tail hu)) n hn

/-! Preamble and dummies. -/

/-- The preamble word fixes direction and cursor (R71). -/
theorem feed_preamble (p : Params) (w : Addr) (ts : List Turn) (d : Device)
    (h : d.phase = .pre 0 0) :
    feed p (addrBytes w) ts d = (consumes p (takes 3 ts) d).enterFrame p w := by
  have e0 : ∀ n : Nat, (d.consume p n).phase = .pre 0 0 := fun n => by simp [h]
  simp only [addrBytes, feed, takes]
  have hx : ∀ (b : Byte) (k : Nat) (acc : Addr) (e : Device), e.phase = .pre k acc → k < 2 →
      (e.exchange p b).1 =
        framed (.pre (k + 1) ((acc <<< 8) ||| b.setWidth 24)) e.cur e.latch e := by
    intro b k acc e he hk
    simp [Device.exchange, he, hk, framed]
  have hy : ∀ (b : Byte) (acc : Addr) (e : Device), e.phase = .pre 2 acc →
      (e.exchange p b).1 = e.enterFrame p ((acc <<< 8) ||| b.setWidth 24) := by
    intro b acc e he
    simp [Device.exchange, he]
  rw [hx _ 0 0 (d.consume p _) (e0 _) (by omega), consume_framed]
  rw [hx _ 1 _ _ (framed_phase _ _ _ _) (by omega), framed_framed, consume_framed]
  rw [hy _ _ _ (framed_phase _ _ _ _), addrBytes_accumulate]
  simp only [consumes_cons, consumes_nil]
  generalize hd3 : Device.consume p (headConsume ts.tail.tail)
    (Device.consume p (headConsume ts.tail) (Device.consume p (headConsume ts) d)) = e
  have h1 : e.cur = d.cur := by simp [← hd3]
  have h2 : e.latch = d.latch := by simp [← hd3]
  simp only [framed_cur, framed_latch, Device.consume_cur, Device.consume_latch, ← h1, ← h2]
  rfl

/-- Dummy bytes pass (R71). -/
theorem feed_dummy (p : Params) (bs : List Byte) (ts : List Turn) (d : Device) (k : Nat)
    (hk : 0 < k) (hl : bs.length = k) (h : d.phase = .dummy k) :
    feed p bs ts d = framed .rdData d.cur d.latch (consumes p (takes k ts) d) := by
  induction bs generalizing ts d k with
  | nil => simp at hl; omega
  | cons b bs ih =>
    simp only [List.length_cons] at hl
    obtain ⟨m, rfl⟩ : ∃ m, k = m + 1 := ⟨k - 1, by omega⟩
    have hm : bs.length = m := by omega
    simp only [feed, takes, consumes_cons]
    have hx : ((d.consume p (headConsume ts)).exchange p b).1 =
        framed (if 1 < m + 1 then .dummy m else .rdData) d.cur d.latch
          (d.consume p (headConsume ts)) := by
      have hc := Device.consume_cur p (headConsume ts) d
      have hl := Device.consume_latch p (headConsume ts) d
      simp [Device.exchange, h, framed]
    rw [hx]
    rcases Nat.eq_zero_or_pos m with h0 | h0
    · subst h0
      have : bs = [] := List.eq_nil_of_length_eq_zero hm
      subst this
      simp [feed, takes]
    · have h1 : 1 < m + 1 := by omega
      rw [if_pos h1, ih ts.tail _ m h0 hm (by simp)]
      simp

/-- One byte of `DevMem` depends on memory and the pointer registers alone. -/
theorem Device.byteAt_congr (p : Params) (x : Nat) {d e : Device} (hm : d.mem = e.mem)
    (hw : d.wp = e.wp) (hr : d.rp = e.rp) (hl : d.lost = e.lost) :
    d.byteAt p x = e.byteAt p x := by
  simp [Device.byteAt, hm, hw, hr, hl]

/-! Reading data. -/

/-- A device known throughout, in a read frame without a latch, `n` bytes of room ahead. -/
structure Reading (d : Device) (n : Nat) : Prop where
  phase : d.phase = .rdData
  lost : d.lost = false
  room : d.cur + n ≤ deviceSize

theorem Device.readData_room {p : Params} {d : Device} {n : Nat} (h : Reading d (n + 1)) :
    (d.readData p).1 = { d with cur := d.cur + 1, latch := d.latch.tail } ∧
      (d.readData p).2 = (d.latch.head?.or (d.byteAt p d.cur)) := by
  have h1 : ¬ deviceSize ≤ d.cur := by have := h.room; omega
  unfold Device.readData
  rw [h.lost]
  simp only [Bool.false_or, decide_eq_true_eq, h1, if_false]
  cases hl : d.latch with
  | nil =>
    refine ⟨?_, by simp⟩
    rw [← hl]
    simp [hl]
  | cons r rest => simp

/-- Read data: the cursor moves, the latch empties, the coprocessor may step, nothing else. -/
theorem feed_read (p : Params) (bs : List Byte) (ts : List Turn) (d : Device)
    (h : Reading d bs.length) :
    feed p bs ts d = framed .rdData (d.cur + bs.length) (d.latch.drop bs.length)
      (consumes p (takes bs.length ts) d) := by
  induction bs generalizing ts d with
  | nil => simp [feed, takes, ← h.phase]
  | cons b bs ih =>
    have hr : Reading (d.consume p (headConsume ts)) (bs.length + 1) :=
      ⟨by simpa using h.phase, by simpa using h.lost, by simpa using h.room⟩
    have hx : ((d.consume p (headConsume ts)).exchange p b).1 =
        framed .rdData (d.cur + 1) d.latch.tail (d.consume p (headConsume ts)) := by
      simp only [Device.exchange, Device.consume_phase, h.phase]
      rw [(Device.readData_room (p := p) hr).1]
      simp [framed, h.phase]
    simp only [feed, takes, List.length_cons, consumes_cons]
    rw [hx, ih]
    · have : d.cur + 1 + bs.length = d.cur + (bs.length + 1) := by omega
      simp [this]
    · have := h.room
      simp only [List.length_cons] at this
      exact ⟨rfl, by simpa using h.lost, by simp only [framed_cur]; omega⟩

/-- Bytes past the latch are those of `DevMem` under the cursor, where the coprocessor leaves them
alone (R72). -/
theorem answers_read (p : Params) (bs : List Byte) (ts : List Turn) (d : Device)
    (h : Reading d bs.length) (hl : d.latch = [])
    (hs : ∀ j < bs.length, OutsideRP p (d.cur + j) ∨ ∀ u ∈ ts, u.consume = 0) :
    ∀ j < bs.length, (answers p bs ts d)[j]? = some (d.byteAt p (d.cur + j)) := by
  induction bs generalizing ts d with
  | nil => simp
  | cons b bs ih =>
    have hr : Reading (d.consume p (headConsume ts)) (bs.length + 1) :=
      ⟨by simpa using h.phase, by simpa using h.lost, by simpa using h.room⟩
    obtain ⟨hx1, hx2⟩ := Device.readData_room (p := p) hr
    have hexc : (d.consume p (headConsume ts)).exchange p b =
        (d.consume p (headConsume ts)).readData p := by
      simp [Device.exchange, h.phase]
    have hroom := h.room
    simp only [List.length_cons] at hroom
    have hb : ∀ i < bs.length + 1,
        (d.consume p (headConsume ts)).byteAt p (d.cur + i) = d.byteAt p (d.cur + i) := by
      intro i hi
      rcases hs i hi with h | h
      · exact Device.consume_byteAt p _ d (regOffset_eq_none.2 h)
      · have h0 : headConsume ts = 0 := by
          cases ts with
          | nil => rfl
          | cons u us => exact h u (by simp)
        rw [h0, Device.consume_zero]
    intro j hj
    simp only [answers, hexc]
    cases j with
    | zero =>
      have h0 := hb 0 (by omega)
      simp only [Nat.add_zero] at h0
      simp [hx2, hl, h0]
    | succ j =>
      simp only [List.getElem?_cons_succ]
      rw [hx1]
      have hj' : j < bs.length := by simpa using hj
      rw [ih _ _ ⟨by simpa using h.phase, by simpa using h.lost, by simp; omega⟩ (by simp [hl])
        (fun i hi => by
          have := hs (i + 1) (by simp; omega)
          simp only [Device.consume_cur]
          rw [show d.cur + 1 + i = d.cur + (i + 1) by omega]
          exact this.imp id fun h u hu => h u (List.mem_of_mem_tail hu)) j hj']
      have h1 := hb (j + 1) hj
      simp only [Device.consume_cur]
      rw [show d.cur + 1 + j = d.cur + (j + 1) by omega, ← h1]
      exact congrArg some (Device.byteAt_congr p _ rfl rfl rfl rfl)

/-- The latched bytes come first (R73). -/
theorem answers_latch (p : Params) (bs : List Byte) (ts : List Turn) (d : Device)
    (h : Reading d bs.length) (hl : bs.length ≤ d.latch.length) :
    answers p bs ts d = (d.latch.take bs.length).map some := by
  induction bs generalizing ts d with
  | nil => simp [answers]
  | cons b bs ih =>
    have hr : Reading (d.consume p (headConsume ts)) (bs.length + 1) :=
      ⟨by simpa using h.phase, by simpa using h.lost, by simpa using h.room⟩
    obtain ⟨hx1, hx2⟩ := Device.readData_room (p := p) hr
    have hexc : (d.consume p (headConsume ts)).exchange p b =
        (d.consume p (headConsume ts)).readData p := by
      simp [Device.exchange, h.phase]
    have hroom := h.room
    simp only [List.length_cons] at hroom hl
    obtain ⟨r, rest, hd⟩ : ∃ r rest, d.latch = r :: rest := by
      cases hd : d.latch with
      | nil => rw [hd] at hl; simp at hl
      | cons r rest => exact ⟨r, rest, rfl⟩
    rw [hd] at hl
    simp only [answers, hexc, hx1, hx2]
    rw [ih _ _ ⟨by simpa using h.phase, by simpa using h.lost, by simp; omega⟩
      (by simp only [Device.consume_latch, hd, List.tail_cons]; simpa using hl)]
    simp [hd]

/-! Writing data. -/

theorem Device.store_cur (p : Params) (a : Nat) (b : Byte) (d : Device) :
    (d.store p a b).cur = d.cur := by
  unfold Device.store; split <;> [rfl; (split <;> rfl)]

theorem Device.writeData_room {p : Params} {d : Device} (b : Byte) (hl : d.lost = false)
    (hr : d.cur + 1 ≤ deviceSize) :
    d.writeData p b = { d.store p d.cur b with cur := d.cur + 1 } := by
  have h1 : ¬ deviceSize ≤ d.cur := by omega
  unfold Device.writeData
  simp [hl, h1]

/-- Write data: the bytes stand from the cursor on, every other byte the coprocessor leaves alone
is as before (R72). -/
theorem feed_write (p : Params) (bs : List Byte) (ts : List Turn) (d : Device)
    (hp : d.phase = .wrData) (hl : d.lost = false) (hr : d.cur + bs.length ≤ deviceSize) :
    (feed p bs ts d).phase = .wrData ∧ (feed p bs ts d).lost = false ∧
      (feed p bs ts d).cur = d.cur + bs.length ∧
      ∀ x, (OutsideRP p x ∨ ∀ u ∈ ts, u.consume = 0) →
        (feed p bs ts d).byteAt p x =
          if d.cur ≤ x ∧ x < d.cur + bs.length then bs[x - d.cur]? else d.byteAt p x := by
  induction bs generalizing ts d with
  | nil =>
    refine ⟨hp, hl, rfl, fun x _ => ?_⟩
    have : ¬ (d.cur ≤ x ∧ x < d.cur + ([] : List Byte).length) := by simp
    rw [if_neg this]
    rfl
  | cons b bs ih =>
    simp only [List.length_cons] at hr
    let e := (d.consume p (headConsume ts)).store p d.cur b
    have hx : ((d.consume p (headConsume ts)).exchange p b).1 = { e with cur := d.cur + 1 } := by
      simp only [Device.exchange, Device.consume_phase, hp]
      rw [Device.writeData_room b (by simpa using hl) (by simp; omega)]
      simp [e]
    have he1 : e.phase = .wrData := by simp [e, Device.store_phase, hp]
    have he2 : e.lost = false := by simp [e, Device.store_lost, hl]
    simp only [feed, hx]
    obtain ⟨k1, k2, k3, k5⟩ := ih ts.tail { e with cur := d.cur + 1 } he1 he2
      (by simp only; omega)
    refine ⟨k1, k2, by rw [k3]; simp; omega, fun x hx' => ?_⟩
    rw [k5 x (hx'.imp id fun h u hu => h u (List.mem_of_mem_tail hu))]
    have hb : ({ e with cur := d.cur + 1 } : Device).byteAt p x =
        if x = d.cur then some b else d.byteAt p x := by
      have h1 : ({ e with cur := d.cur + 1 } : Device).byteAt p x = e.byteAt p x := by
        simp [Device.byteAt]
      rw [h1, Device.byteAt_store (by simpa using hl) b]
      split
      · rfl
      · rcases hx' with h | h
        · exact Device.consume_byteAt p _ d (regOffset_eq_none.2 h)
        · have h0 : headConsume ts = 0 := by
            cases ts with
            | nil => rfl
            | cons u us => exact h u (by simp)
          rw [h0, Device.consume_zero]
    rw [hb]
    simp only [List.length_cons]
    by_cases hxd : x = d.cur
    · subst hxd
      have h1 : ¬ (d.cur + 1 ≤ d.cur ∧ d.cur < d.cur + 1 + bs.length) := by omega
      have h2 : d.cur ≤ d.cur ∧ d.cur < d.cur + (bs.length + 1) := by omega
      rw [if_neg h1, if_pos h2, if_pos rfl]
      simp
    · rw [if_neg hxd]
      by_cases hin : d.cur + 1 ≤ x ∧ x < d.cur + 1 + bs.length
      · have h2 : d.cur ≤ x ∧ x < d.cur + (bs.length + 1) := by omega
        rw [if_pos hin, if_pos h2]
        obtain ⟨m, rfl⟩ : ∃ m, x = d.cur + 1 + m := ⟨x - (d.cur + 1), by omega⟩
        have e1 : d.cur + 1 + m - (d.cur + 1) = m := by omega
        have e2 : d.cur + 1 + m - d.cur = m + 1 := by omega
        simp [e1, e2]
      · have h2 : ¬ (d.cur ≤ x ∧ x < d.cur + (bs.length + 1)) := by omega
        rw [if_neg hin, if_neg h2]

end Sys2Proof.Machine
end

