-- ==== Sys2Proof/Laws/State.lean ====
section
/-! SUPPORT. One lemma per field per named update of the state: a later proof never unfolds one. -/

namespace Sys2Proof.Machine

variable (s : State)


/-! Fields after `respond`. -/

@[simp] theorem respond_cfg (st : Byte) (v : Word) (rd : List Byte) : (respond st v rd s).cfg = s.cfg := rfl
@[simp] theorem respond_w (st : Byte) (v : Word) (rd : List Byte) : (respond st v rd s).w = s.w := rfl
@[simp] theorem respond_cw (st : Byte) (v : Word) (rd : List Byte) : (respond st v rd s).cw = s.cw := rfl
@[simp] theorem respond_lf (st : Byte) (v : Word) (rd : List Byte) : (respond st v rd s).lf = s.lf := rfl
@[simp] theorem respond_scope (st : Byte) (v : Word) (rd : List Byte) : (respond st v rd s).scope = s.scope := rfl
@[simp] theorem respond_sel (st : Byte) (v : Word) (rd : List Byte) : (respond st v rd s).sel = s.sel := rfl
@[simp] theorem respond_f (st : Byte) (v : Word) (rd : List Byte) : (respond st v rd s).f = s.f := rfl
@[simp] theorem respond_fc (st : Byte) (v : Word) (rd : List Byte) : (respond st v rd s).fc = s.fc := rfl
@[simp] theorem respond_fi (st : Byte) (v : Word) (rd : List Byte) : (respond st v rd s).fi = s.fi := rfl
@[simp] theorem respond_wdata (st : Byte) (v : Word) (rd : List Byte) : (respond st v rd s).wdata = s.wdata := rfl
@[simp] theorem respond_rsp (st : Byte) (v : Word) (rd : List Byte) : (respond st v rd s).rsp = some ⟨st, v, rd⟩ := rfl
@[simp] theorem respond_dev (st : Byte) (v : Word) (rd : List Byte) : (respond st v rd s).dev = s.dev := rfl
@[simp] theorem respond_draws (st : Byte) (v : Word) (rd : List Byte) : (respond st v rd s).draws = s.draws := rfl
@[simp] theorem respond_turns (st : Byte) (v : Word) (rd : List Byte) : (respond st v rd s).turns = s.turns := rfl
@[simp] theorem respond_inputs (st : Byte) (v : Word) (rd : List Byte) : (respond st v rd s).inputs = s.inputs := rfl
@[simp] theorem respond_trace (st : Byte) (v : Word) (rd : List Byte) : (respond st v rd s).trace = s.trace := rfl
@[simp] theorem respond_served (st : Byte) (v : Word) (rd : List Byte) : (respond st v rd s).served = s.served := rfl

/-! Fields after `record`. -/

@[simp] theorem record_cfg (e : Event) : (record e s).cfg = s.cfg := rfl
@[simp] theorem record_w (e : Event) : (record e s).w = s.w := rfl
@[simp] theorem record_cw (e : Event) : (record e s).cw = s.cw := rfl
@[simp] theorem record_lf (e : Event) : (record e s).lf = s.lf := rfl
@[simp] theorem record_scope (e : Event) : (record e s).scope = s.scope := rfl
@[simp] theorem record_sel (e : Event) : (record e s).sel = s.sel := rfl
@[simp] theorem record_f (e : Event) : (record e s).f = s.f := rfl
@[simp] theorem record_fc (e : Event) : (record e s).fc = s.fc := rfl
@[simp] theorem record_fi (e : Event) : (record e s).fi = s.fi := rfl
@[simp] theorem record_wdata (e : Event) : (record e s).wdata = s.wdata := rfl
@[simp] theorem record_rsp (e : Event) : (record e s).rsp = s.rsp := rfl
@[simp] theorem record_dev (e : Event) : (record e s).dev = s.dev := rfl
@[simp] theorem record_draws (e : Event) : (record e s).draws = s.draws := rfl
@[simp] theorem record_turns (e : Event) : (record e s).turns = s.turns := rfl
@[simp] theorem record_inputs (e : Event) : (record e s).inputs = s.inputs := rfl
@[simp] theorem record_trace (e : Event) : (record e s).trace = s.trace ++ [e] := rfl
@[simp] theorem record_served (e : Event) : (record e s).served = s.served := rfl

/-! Fields after `setSel`. -/

@[simp] theorem setSel_cfg (on : Bool) : (setSel on s).cfg = s.cfg := rfl
@[simp] theorem setSel_w (on : Bool) : (setSel on s).w = s.w := rfl
@[simp] theorem setSel_cw (on : Bool) : (setSel on s).cw = s.cw := rfl
@[simp] theorem setSel_lf (on : Bool) : (setSel on s).lf = s.lf := rfl
@[simp] theorem setSel_scope (on : Bool) : (setSel on s).scope = s.scope := rfl
@[simp] theorem setSel_sel (on : Bool) : (setSel on s).sel = on := rfl
@[simp] theorem setSel_f (on : Bool) : (setSel on s).f = s.f := rfl
@[simp] theorem setSel_fc (on : Bool) : (setSel on s).fc = s.fc := rfl
@[simp] theorem setSel_fi (on : Bool) : (setSel on s).fi = s.fi := rfl
@[simp] theorem setSel_wdata (on : Bool) : (setSel on s).wdata = s.wdata := rfl
@[simp] theorem setSel_rsp (on : Bool) : (setSel on s).rsp = s.rsp := rfl
@[simp] theorem setSel_dev (on : Bool) : (setSel on s).dev = if on then s.dev.select else s.dev.deselect := rfl
@[simp] theorem setSel_draws (on : Bool) : (setSel on s).draws = s.draws := rfl
@[simp] theorem setSel_turns (on : Bool) : (setSel on s).turns = s.turns := rfl
@[simp] theorem setSel_inputs (on : Bool) : (setSel on s).inputs = s.inputs := rfl
@[simp] theorem setSel_trace (on : Bool) : (setSel on s).trace = s.trace ++ [.sel on] := rfl
@[simp] theorem setSel_served (on : Bool) : (setSel on s).served = s.served := rfl

/-! Fields after `takeTurn`. -/

@[simp] theorem takeTurn_cfg : (takeTurn s).cfg = s.cfg := rfl
@[simp] theorem takeTurn_w : (takeTurn s).w = s.w := rfl
@[simp] theorem takeTurn_cw : (takeTurn s).cw = s.cw := rfl
@[simp] theorem takeTurn_lf : (takeTurn s).lf = s.lf := rfl
@[simp] theorem takeTurn_scope : (takeTurn s).scope = s.scope := rfl
@[simp] theorem takeTurn_sel : (takeTurn s).sel = s.sel := rfl
@[simp] theorem takeTurn_f : (takeTurn s).f = s.f := rfl
@[simp] theorem takeTurn_fc : (takeTurn s).fc = s.fc := rfl
@[simp] theorem takeTurn_fi : (takeTurn s).fi = s.fi := rfl
@[simp] theorem takeTurn_wdata : (takeTurn s).wdata = s.wdata := rfl
@[simp] theorem takeTurn_rsp : (takeTurn s).rsp = s.rsp := rfl
@[simp] theorem takeTurn_dev : (takeTurn s).dev = s.dev.consume s.cfg (nextTurn s).consume := rfl
@[simp] theorem takeTurn_draws : (takeTurn s).draws = s.draws := rfl
@[simp] theorem takeTurn_turns : (takeTurn s).turns = s.turns.tail := rfl
@[simp] theorem takeTurn_inputs : (takeTurn s).inputs = s.inputs := rfl
@[simp] theorem takeTurn_trace : (takeTurn s).trace = s.trace := rfl
@[simp] theorem takeTurn_served : (takeTurn s).served = s.served := rfl

/-! Fields after `deliver`. -/

@[simp] theorem deliver_cfg (b : Byte) : (deliver b s).cfg = s.cfg := rfl
@[simp] theorem deliver_w (b : Byte) : (deliver b s).w = s.w := rfl
@[simp] theorem deliver_cw (b : Byte) : (deliver b s).cw = s.cw := rfl
@[simp] theorem deliver_lf (b : Byte) : (deliver b s).lf = s.lf := rfl
@[simp] theorem deliver_scope (b : Byte) : (deliver b s).scope = s.scope := rfl
@[simp] theorem deliver_sel (b : Byte) : (deliver b s).sel = s.sel := rfl
@[simp] theorem deliver_f (b : Byte) : (deliver b s).f = s.f := rfl
@[simp] theorem deliver_fc (b : Byte) : (deliver b s).fc = s.fc := rfl
@[simp] theorem deliver_fi (b : Byte) : (deliver b s).fi = s.fi := rfl
@[simp] theorem deliver_wdata (b : Byte) : (deliver b s).wdata = s.wdata := rfl
@[simp] theorem deliver_rsp (b : Byte) : (deliver b s).rsp = s.rsp := rfl
@[simp] theorem deliver_dev (b : Byte) : (deliver b s).dev = (s.dev.exchange s.cfg b).1 := rfl
@[simp] theorem deliver_draws (b : Byte) : (deliver b s).draws = s.draws := rfl
@[simp] theorem deliver_turns (b : Byte) : (deliver b s).turns = s.turns := rfl
@[simp] theorem deliver_inputs (b : Byte) : (deliver b s).inputs = s.inputs := rfl
@[simp] theorem deliver_trace (b : Byte) : (deliver b s).trace = s.trace := rfl
@[simp] theorem deliver_served (b : Byte) : (deliver b s).served = s.served := rfl

/-! Fields after `cutExchange`. -/

@[simp] theorem cutExchange_cfg (b : Byte) (d : Bool) : (cutExchange b d s).cfg = s.cfg := by cases d <;> rfl
@[simp] theorem cutExchange_w (b : Byte) (d : Bool) : (cutExchange b d s).w = s.w := by cases d <;> rfl
@[simp] theorem cutExchange_cw (b : Byte) (d : Bool) : (cutExchange b d s).cw = s.cw := by cases d <;> rfl
@[simp] theorem cutExchange_lf (b : Byte) (d : Bool) : (cutExchange b d s).lf = s.lf := by cases d <;> rfl
@[simp] theorem cutExchange_scope (b : Byte) (d : Bool) : (cutExchange b d s).scope = s.scope := by cases d <;> rfl
@[simp] theorem cutExchange_sel (b : Byte) (d : Bool) : (cutExchange b d s).sel = s.sel := by cases d <;> rfl
@[simp] theorem cutExchange_f (b : Byte) (d : Bool) : (cutExchange b d s).f = s.f := by cases d <;> rfl
@[simp] theorem cutExchange_fc (b : Byte) (d : Bool) : (cutExchange b d s).fc = s.fc := by cases d <;> rfl
@[simp] theorem cutExchange_fi (b : Byte) (d : Bool) : (cutExchange b d s).fi = s.fi := by cases d <;> rfl
@[simp] theorem cutExchange_wdata (b : Byte) (d : Bool) : (cutExchange b d s).wdata = s.wdata := by cases d <;> rfl
@[simp] theorem cutExchange_rsp (b : Byte) (d : Bool) : (cutExchange b d s).rsp = s.rsp := by cases d <;> rfl
@[simp] theorem cutExchange_dev (b : Byte) (d : Bool) : (cutExchange b d s).dev = (if d then deliver b s else s).dev := by cases d <;> rfl
@[simp] theorem cutExchange_draws (b : Byte) (d : Bool) : (cutExchange b d s).draws = s.draws := by cases d <;> rfl
@[simp] theorem cutExchange_turns (b : Byte) (d : Bool) : (cutExchange b d s).turns = s.turns := by cases d <;> rfl
@[simp] theorem cutExchange_inputs (b : Byte) (d : Bool) : (cutExchange b d s).inputs = s.inputs := by cases d <;> rfl
@[simp] theorem cutExchange_trace (b : Byte) (d : Bool) : (cutExchange b d s).trace = s.trace := by cases d <;> rfl
@[simp] theorem cutExchange_served (b : Byte) (d : Bool) : (cutExchange b d s).served = s.served := by cases d <;> rfl

/-! Fields after `answerFaulted`. -/

@[simp] theorem answerFaulted_cfg : (answerFaulted s).cfg = s.cfg := rfl
@[simp] theorem answerFaulted_w : (answerFaulted s).w = s.w := rfl
@[simp] theorem answerFaulted_cw : (answerFaulted s).cw = s.cw := rfl
@[simp] theorem answerFaulted_lf : (answerFaulted s).lf = s.lf := rfl
@[simp] theorem answerFaulted_scope : (answerFaulted s).scope = s.scope := rfl
@[simp] theorem answerFaulted_sel : (answerFaulted s).sel = s.sel := rfl
@[simp] theorem answerFaulted_f : (answerFaulted s).f = s.f := rfl
@[simp] theorem answerFaulted_fc : (answerFaulted s).fc = s.fc := rfl
@[simp] theorem answerFaulted_fi : (answerFaulted s).fi = s.fi := rfl
@[simp] theorem answerFaulted_wdata : (answerFaulted s).wdata = s.wdata := rfl
@[simp] theorem answerFaulted_rsp : (answerFaulted s).rsp = some ⟨statusFaulted, s.fc.setWidth 32, []⟩ := rfl
@[simp] theorem answerFaulted_dev : (answerFaulted s).dev = s.dev := rfl
@[simp] theorem answerFaulted_draws : (answerFaulted s).draws = s.draws := rfl
@[simp] theorem answerFaulted_turns : (answerFaulted s).turns = s.turns := rfl
@[simp] theorem answerFaulted_inputs : (answerFaulted s).inputs = s.inputs := rfl
@[simp] theorem answerFaulted_trace : (answerFaulted s).trace = s.trace := rfl
@[simp] theorem answerFaulted_served : (answerFaulted s).served = s.served := rfl

/-! Fields after `dropLine`. -/

@[simp] theorem dropLine_cfg : (dropLine s).cfg = s.cfg := by unfold dropLine; split <;> simp_all
@[simp] theorem dropLine_w : (dropLine s).w = s.w := by unfold dropLine; split <;> simp_all
@[simp] theorem dropLine_cw : (dropLine s).cw = s.cw := by unfold dropLine; split <;> simp_all
@[simp] theorem dropLine_lf : (dropLine s).lf = s.lf := by unfold dropLine; split <;> simp_all
@[simp] theorem dropLine_scope : (dropLine s).scope = s.scope := by unfold dropLine; split <;> simp_all
@[simp] theorem dropLine_sel : (dropLine s).sel = false := by unfold dropLine; split <;> simp_all
@[simp] theorem dropLine_f : (dropLine s).f = s.f := by unfold dropLine; split <;> simp_all
@[simp] theorem dropLine_fc : (dropLine s).fc = s.fc := by unfold dropLine; split <;> simp_all
@[simp] theorem dropLine_fi : (dropLine s).fi = s.fi := by unfold dropLine; split <;> simp_all
@[simp] theorem dropLine_wdata : (dropLine s).wdata = s.wdata := by unfold dropLine; split <;> simp_all
@[simp] theorem dropLine_rsp : (dropLine s).rsp = s.rsp := by unfold dropLine; split <;> simp_all
@[simp] theorem dropLine_dev : (dropLine s).dev = if s.sel then s.dev.deselect else s.dev := by unfold dropLine; split <;> simp_all
@[simp] theorem dropLine_draws : (dropLine s).draws = s.draws := by unfold dropLine; split <;> simp_all
@[simp] theorem dropLine_turns : (dropLine s).turns = s.turns := by unfold dropLine; split <;> simp_all
@[simp] theorem dropLine_inputs : (dropLine s).inputs = s.inputs := by unfold dropLine; split <;> simp_all
@[simp] theorem dropLine_trace : (dropLine s).trace = s.trace ++ (if s.sel then [.sel false] else []) := by unfold dropLine; split <;> simp_all
@[simp] theorem dropLine_served : (dropLine s).served = s.served := by unfold dropLine; split <;> simp_all

/-! Fields after `resetBlock`. -/

@[simp] theorem resetBlock_cfg : (resetBlock s).cfg = s.cfg := by simp [resetBlock]
@[simp] theorem resetBlock_w : (resetBlock s).w = 0 := by simp [resetBlock]
@[simp] theorem resetBlock_cw : (resetBlock s).cw = 0 := by simp [resetBlock]
@[simp] theorem resetBlock_lf : (resetBlock s).lf = 0 := by simp [resetBlock]
@[simp] theorem resetBlock_scope : (resetBlock s).scope = .idle := by simp [resetBlock]
@[simp] theorem resetBlock_sel : (resetBlock s).sel = false := by simp [resetBlock]
@[simp] theorem resetBlock_f : (resetBlock s).f = false := by simp [resetBlock]
@[simp] theorem resetBlock_fc : (resetBlock s).fc = 0 := by simp [resetBlock]
@[simp] theorem resetBlock_fi : (resetBlock s).fi = 0 := by simp [resetBlock]
@[simp] theorem resetBlock_wdata : (resetBlock s).wdata = [] := by simp [resetBlock]
@[simp] theorem resetBlock_rsp : (resetBlock s).rsp = none := by simp [resetBlock]
@[simp] theorem resetBlock_dev : (resetBlock s).dev = if s.sel then s.dev.deselect else s.dev := by simp [resetBlock]
@[simp] theorem resetBlock_draws : (resetBlock s).draws = s.draws := by simp [resetBlock]
@[simp] theorem resetBlock_turns : (resetBlock s).turns = s.turns := by simp [resetBlock]
@[simp] theorem resetBlock_inputs : (resetBlock s).inputs = s.inputs := by simp [resetBlock]
@[simp] theorem resetBlock_trace : (resetBlock s).trace = s.trace ++ (if s.sel then [.sel false] else []) := by simp [resetBlock]
@[simp] theorem resetBlock_served : (resetBlock s).served = s.served := by simp [resetBlock]

/-! Fields after `raiseFault`. -/

@[simp] theorem raiseFault_cfg (c : Byte) (i : Word) : (raiseFault c i s).cfg = s.cfg := by unfold raiseFault; split <;> simp_all
@[simp] theorem raiseFault_w (c : Byte) (i : Word) : (raiseFault c i s).w = s.w := by unfold raiseFault; split <;> simp_all
@[simp] theorem raiseFault_cw (c : Byte) (i : Word) : (raiseFault c i s).cw = s.cw := by unfold raiseFault; split <;> simp_all
@[simp] theorem raiseFault_lf (c : Byte) (i : Word) : (raiseFault c i s).lf = s.lf := by unfold raiseFault; split <;> simp_all
@[simp] theorem raiseFault_scope (c : Byte) (i : Word) : (raiseFault c i s).scope = .idle := by unfold raiseFault; split <;> simp_all
@[simp] theorem raiseFault_sel (c : Byte) (i : Word) : (raiseFault c i s).sel = if s.scope = .idle then s.sel else false := by unfold raiseFault; split <;> simp_all
@[simp] theorem raiseFault_f (c : Byte) (i : Word) : (raiseFault c i s).f = true := by unfold raiseFault; split <;> simp_all
@[simp] theorem raiseFault_fc (c : Byte) (i : Word) : (raiseFault c i s).fc = c := by unfold raiseFault; split <;> simp_all
@[simp] theorem raiseFault_fi (c : Byte) (i : Word) : (raiseFault c i s).fi = i := by unfold raiseFault; split <;> simp_all
@[simp] theorem raiseFault_wdata (c : Byte) (i : Word) : (raiseFault c i s).wdata = s.wdata := by unfold raiseFault; split <;> simp_all
@[simp] theorem raiseFault_rsp (c : Byte) (i : Word) : (raiseFault c i s).rsp = some ⟨c, i, []⟩ := by unfold raiseFault; split <;> simp_all
@[simp] theorem raiseFault_dev (c : Byte) (i : Word) : (raiseFault c i s).dev = if s.scope = .idle then s.dev else s.dev.deselect := by unfold raiseFault; split <;> simp_all
@[simp] theorem raiseFault_draws (c : Byte) (i : Word) : (raiseFault c i s).draws = s.draws := by unfold raiseFault; split <;> simp_all
@[simp] theorem raiseFault_turns (c : Byte) (i : Word) : (raiseFault c i s).turns = s.turns := by unfold raiseFault; split <;> simp_all
@[simp] theorem raiseFault_inputs (c : Byte) (i : Word) : (raiseFault c i s).inputs = s.inputs := by unfold raiseFault; split <;> simp_all
@[simp] theorem raiseFault_trace (c : Byte) (i : Word) : (raiseFault c i s).trace = s.trace ++ (if s.scope = .idle then [] else [.sel false]) := by unfold raiseFault; split <;> simp_all
@[simp] theorem raiseFault_served (c : Byte) (i : Word) : (raiseFault c i s).served = s.served := by unfold raiseFault; split <;> simp_all

/-! Fields after `accept`. -/

@[simp] theorem accept_cfg (r : Request) (rest : List Input) : (accept r rest s).cfg = s.cfg := rfl
@[simp] theorem accept_w (r : Request) (rest : List Input) : (accept r rest s).w = s.w := rfl
@[simp] theorem accept_cw (r : Request) (rest : List Input) : (accept r rest s).cw = s.cw := rfl
@[simp] theorem accept_lf (r : Request) (rest : List Input) : (accept r rest s).lf = s.lf := rfl
@[simp] theorem accept_scope (r : Request) (rest : List Input) : (accept r rest s).scope = s.scope := rfl
@[simp] theorem accept_sel (r : Request) (rest : List Input) : (accept r rest s).sel = s.sel := rfl
@[simp] theorem accept_f (r : Request) (rest : List Input) : (accept r rest s).f = s.f := rfl
@[simp] theorem accept_fc (r : Request) (rest : List Input) : (accept r rest s).fc = s.fc := rfl
@[simp] theorem accept_fi (r : Request) (rest : List Input) : (accept r rest s).fi = s.fi := rfl
@[simp] theorem accept_wdata (r : Request) (rest : List Input) : (accept r rest s).wdata = r.wdata := rfl
@[simp] theorem accept_rsp (r : Request) (rest : List Input) : (accept r rest s).rsp = none := rfl
@[simp] theorem accept_dev (r : Request) (rest : List Input) : (accept r rest s).dev = s.dev := rfl
@[simp] theorem accept_draws (r : Request) (rest : List Input) : (accept r rest s).draws = s.draws := rfl
@[simp] theorem accept_turns (r : Request) (rest : List Input) : (accept r rest s).turns = s.turns := rfl
@[simp] theorem accept_inputs (r : Request) (rest : List Input) : (accept r rest s).inputs = rest := rfl
@[simp] theorem accept_trace (r : Request) (rest : List Input) : (accept r rest s).trace = s.trace := rfl
@[simp] theorem accept_served (r : Request) (rest : List Input) : (accept r rest s).served = s.served := rfl

end Sys2Proof.Machine
end

