-- ==== Sys2Proof/Laws/Transport.lean ====
section
/-! SUPPORT. What the transport operations can do, said once: one event, a run of exchanges, a
frame. The provers cite these instead of unfolding the operations. -/

namespace Sys2Proof.Machine

/-- What no transport event changes: everything but `SEL`, the device, the free-value counter, the
turns and the trace. -/
structure SameBlock (s t : State) : Prop where
  cfg : t.cfg = s.cfg
  w : t.w = s.w
  cw : t.cw = s.cw
  lf : t.lf = s.lf
  scope : t.scope = s.scope
  f : t.f = s.f
  fc : t.fc = s.fc
  fi : t.fi = s.fi
  wdata : t.wdata = s.wdata
  rsp : t.rsp = s.rsp
  inputs : t.inputs = s.inputs
  served : t.served = s.served

theorem SameBlock.refl (s : State) : SameBlock s s := by constructor <;> rfl

theorem SameBlock.trans {s t u : State} (h : SameBlock s t) (k : SameBlock t u) : SameBlock s u := by
  constructor
  · rw [k.cfg, h.cfg]
  · rw [k.w, h.w]
  · rw [k.cw, h.cw]
  · rw [k.lf, h.lf]
  · rw [k.scope, h.scope]
  · rw [k.f, h.f]
  · rw [k.fc, h.fc]
  · rw [k.fi, h.fi]
  · rw [k.wdata, h.wdata]
  · rw [k.rsp, h.rsp]
  · rw [k.inputs, h.inputs]
  · rw [k.served, h.served]

theorem takeTurn_same (s : State) : SameBlock s (takeTurn s) := by constructor <;> rfl
theorem setSel_same (on : Bool) (s : State) : SameBlock s (setSel on s) := by constructor <;> rfl
theorem deliver_same (b : Byte) (s : State) : SameBlock s (deliver b s) := by constructor <;> rfl
theorem record_same (e : Event) (s : State) : SameBlock s (record e s) := by constructor <;> rfl
theorem cutExchange_same (b : Byte) (d : Bool) (s : State) : SameBlock s (cutExchange b d s) := by
  constructor <;> simp

/-! One `Sel` event. -/

/-- Either the line is set, or `RST` came first. -/
theorem selEvent_cases (on : Bool) (s : State) :
    selEvent on s = .ok [] (setSel on (takeTurn s)) ∨
      ((∃ b, (nextTurn s).link = .rst b) ∧
        selEvent on s = .stop .rst [] (resetBlock (takeTurn s))) := by
  unfold selEvent
  cases h : (nextTurn s).link <;> simp

theorem selEvent_clean {on : Bool} {s : State} (h : (nextTurn s).link.clean = true) :
    selEvent on s = .ok [] (setSel on (takeTurn s)) := by
  unfold selEvent
  cases h' : (nextTurn s).link <;> simp_all [Link.clean]

/-- A `Sel` event heeds nothing but a reset (00_scope.md R12). -/
theorem selEvent_noReset {on : Bool} {s : State} (h : NoResetAt 0 s) :
    selEvent on s = .ok [] (setSel on (takeTurn s)) := by
  have hn : ∀ b, (nextTurn s).link ≠ .rst b := by
    intro b
    unfold nextTurn
    cases hs : s.turns with
    | nil => simp
    | cons u us => exact h u b (by simp [hs])
  unfold selEvent
  cases h' : (nextTurn s).link with
  | rst b => exact absurd h' (hn b)
  | reply => rfl
  | replyWith r => rfl
  | fail e d => rfl
  | hang => rfl

/-! One exchange. -/

/-- A successful exchange: one byte received, the device has taken the byte sent. -/
structure XchgOk (b r : Byte) (s t : State) : Prop where
  same : SameBlock s t
  sel : t.sel = s.sel
  trace : t.trace = s.trace ++ [.xchg b (.ok r)]
  turns : t.turns = s.turns.tail
  dev : t.dev = ((s.dev.consume s.cfg (nextTurn s).consume).exchange s.cfg b).1

/-- An exchange that failed or was cut, before its event is recorded. -/
structure XchgCut (s t : State) : Prop where
  same : SameBlock s t
  sel : t.sel = s.sel
  turns : t.turns = s.turns.tail
  dev : ∃ b d, t.dev = (cutExchange b d (takeTurn s)).dev

theorem XchgCut.mem_wf {s t : State} (h : XchgCut s t) (hm : s.dev.mem.wf) : t.dev.mem.wf := by
  obtain ⟨b, d, hd⟩ := h.dev
  rw [hd]
  have h0 : (takeTurn s).dev.mem.wf := by simpa [takeTurn] using hm
  cases d
  · simpa [cutExchange] using h0
  · simpa [cutExchange, deliver] using Device.exchange_mem_wf h0

theorem XchgOk.mem_wf {b r : Byte} {s t : State} (h : XchgOk b r s t) (hm : s.dev.mem.wf) :
    t.dev.mem.wf := by
  rw [h.dev]; exact Device.exchange_mem_wf (by simpa using hm)

theorem replyOf_ok (b : Byte) (s : State) :
    ∃ r t, replyOf b s = .ok [r] t ∧ SameBlock s t ∧ t.sel = s.sel ∧
      t.trace = s.trace ++ [.xchg b (.ok r)] ∧ t.turns = s.turns ∧
      t.dev = (s.dev.exchange s.cfg b).1 ∧
      (∀ v, (s.dev.exchange s.cfg b).2 = some v → r = v) := by
  unfold replyOf
  split
  · next v h =>
    exact ⟨v, _, rfl, (deliver_same b s).trans (record_same _ _), rfl, rfl, rfl, rfl,
      fun w hw => by rw [h] at hw; exact Option.some.inj hw⟩
  · next h =>
    refine ⟨_, _, rfl, ?_, rfl, rfl, rfl, rfl, fun w hw => by rw [h] at hw; cases hw⟩
    constructor <;> rfl

/-- Everything one exchange can do. -/
theorem xchg_cases (b : Byte) (s : State) :
    (∃ r t, xchg b s = .ok [r] t ∧ XchgOk b r s t ∧ (nextTurn s).link.clean = true) ∨
    (∃ e t, xchg b s = .stop (.err e) [] (record (.xchg b (.err e)) t) ∧ XchgCut s t ∧
      t.trace = s.trace ∧ ∃ d, (nextTurn s).link = .fail e d) ∨
    (∃ t, xchg b s = .stop .rst [] (resetBlock t) ∧ XchgCut s t ∧ t.trace = s.trace ∧
      ∃ d, (nextTurn s).link = .rst d) ∨
    (∃ t, xchg b s = .stop .hang [] t ∧ (nextTurn s).link = .hang) := by
  unfold xchg
  cases h : (nextTurn s).link with
  | reply =>
    obtain ⟨r, t, h1, h2, h3, h4, h5, h6, -⟩ := replyOf_ok b (takeTurn s)
    exact .inl ⟨r, t, by simpa using h1,
      ⟨(takeTurn_same s).trans h2, h3, h4, h5, h6⟩, rfl⟩
  | replyWith r =>
    exact .inl ⟨r, _, rfl,
      ⟨(takeTurn_same s).trans ((deliver_same b _).trans (record_same _ _)), rfl, rfl, rfl, rfl⟩,
      rfl⟩
  | fail e d =>
    refine .inr (.inl ⟨e, _, rfl, ⟨(takeTurn_same s).trans (cutExchange_same b d _), ?_, ?_,
      ⟨b, d, rfl⟩⟩, ?_, d, rfl⟩) <;> simp
  | rst d =>
    refine .inr (.inr (.inl ⟨_, rfl, ⟨(takeTurn_same s).trans (cutExchange_same b d _), ?_, ?_,
      ⟨b, d, rfl⟩⟩, ?_, d, rfl⟩)) <;> simp
  | hang => exact .inr (.inr (.inr ⟨_, rfl, rfl⟩))

/-- Under the reference device the byte received is the device's, where it has one. -/
theorem xchg_reply {b : Byte} {s : State} (h : (nextTurn s).link = .reply) :
    ∃ r t, xchg b s = .ok [r] t ∧ XchgOk b r s t ∧
      ∀ v, ((s.dev.consume s.cfg (nextTurn s).consume).exchange s.cfg b).2 = some v → r = v := by
  obtain ⟨r, t, h1, h2, h3, h4, h5, h6, h7⟩ := replyOf_ok b (takeTurn s)
  refine ⟨r, t, by simpa [xchg, h] using h1, ⟨(takeTurn_same s).trans h2, h3, h4, h5, h6⟩, h7⟩

/-! A run of exchanges. -/

/-- A run of exchanges that all succeeded. -/
structure BurstOk (out got : List Byte) (s t : State) : Prop where
  same : SameBlock s t
  sel : t.sel = s.sel
  length : got.length = out.length
  trace : t.trace = s.trace ++ exchanges out got
  turns : t.turns = s.turns.drop out.length
  dev : t.dev = feed s.cfg out s.turns s.dev

/-- A run of exchanges that stopped at its `got.length`-th byte, before that event. -/
structure BurstCut (out got : List Byte) (s t : State) : Prop where
  same : SameBlock s t
  sel : t.sel = s.sel
  length : got.length < out.length
  trace : t.trace = s.trace ++ exchanges (out.take got.length) got
  turns : t.turns = s.turns.drop (got.length + 1)
  mem_wf : s.dev.mem.wf → t.dev.mem.wf

theorem BurstOk.mem_wf {out got : List Byte} {s t : State} (h : BurstOk out got s t)
    (hm : s.dev.mem.wf) : t.dev.mem.wf := by
  rw [h.dev]; exact feed_mem_wf _ _ _ _ hm

theorem headConsume_nextTurn (s : State) : headConsume s.turns = (nextTurn s).consume := rfl

theorem XchgOk.cons {b r : Byte} {bs got : List Byte} {s t u : State} (h : XchgOk b r s t)
    (k : BurstOk bs got t u) : BurstOk (b :: bs) (r :: got) s u := by
  refine ⟨h.same.trans k.same, by rw [k.sel, h.sel], by simp [k.length], ?_, ?_, ?_⟩
  · rw [k.trace, h.trace]; simp [exchanges]
  · rw [k.turns, h.turns]; simp
  · rw [k.dev, h.same.cfg, h.turns, h.dev]; rfl

theorem BurstOk.nil (s : State) : BurstOk [] [] s s :=
  ⟨SameBlock.refl s, rfl, rfl, by simp [exchanges], rfl, rfl⟩

/-- Everything a run of exchanges can do. -/
theorem burst_cases (out : List Byte) (s : State) :
    (∃ got t, burst out s = .ok got t ∧ BurstOk out got s t) ∨
    (∃ e got b t, burst out s = .stop (.err e) got (record (.xchg b (.err e)) t) ∧
      BurstCut out got s t ∧ out[got.length]? = some b) ∨
    (∃ got t, burst out s = .stop .rst got (resetBlock t) ∧ BurstCut out got s t ∧
      ∃ u ∈ s.turns, ∃ d, u.link = .rst d) ∨
    (∃ got t, burst out s = .stop .hang got t ∧ ∃ u ∈ s.turns, u.link = .hang) := by
  induction out generalizing s with
  | nil => exact .inl ⟨[], s, rfl, BurstOk.nil s⟩
  | cons b bs ih =>
    have hmem : (nextTurn s).link ≠ .reply → nextTurn s ∈ s.turns := by
      unfold nextTurn
      cases hs : s.turns with
      | nil => simp
      | cons u us => simp
    rcases xchg_cases b s with ⟨r, t, h1, h2, -⟩ | ⟨e, t, h1, h2, h3, -⟩ |
      ⟨t, h1, h2, h3, v, h4⟩ | ⟨t, h1, h2⟩
    · have hb : burst (b :: bs) s = (burst bs t).after [r] := by simp [burst, Bus.bind, h1]
      have hcut : ∀ got u, BurstCut bs got t u → BurstCut (b :: bs) (r :: got) s u := by
        intro got u k2
        refine ⟨h2.same.trans k2.same, by rw [k2.sel, h2.sel], by simpa using k2.length, ?_, ?_,
          fun hm => k2.mem_wf (h2.mem_wf hm)⟩
        · rw [k2.trace, h2.trace]; simp [exchanges]
        · rw [k2.turns, h2.turns]; simp
      rcases ih t with ⟨got, u, k1, k2⟩ | ⟨e, got, b', u, k1, k2, k3⟩ | ⟨got, u, k1, k2, v, k3, k4⟩ |
        ⟨got, u, k1, v, k2, k3⟩
      · exact .inl ⟨r :: got, u, by rw [hb, k1]; rfl, h2.cons k2⟩
      · exact .inr (.inl ⟨e, r :: got, b', u, by rw [hb, k1]; rfl, hcut _ _ k2, by simpa using k3⟩)
      · refine .inr (.inr (.inl ⟨r :: got, u, by rw [hb, k1]; rfl, hcut _ _ k2, v, ?_, k4⟩))
        rw [h2.turns] at k3
        exact List.mem_of_mem_tail k3
      · refine .inr (.inr (.inr ⟨r :: got, u, by rw [hb, k1]; rfl, v, ?_, k3⟩))
        rw [h2.turns] at k2
        exact List.mem_of_mem_tail k2
    · exact .inr (.inl ⟨e, [], b, t, by simp [burst, Bus.bind, h1], ⟨h2.same, h2.sel, by simp,
        by simp [h3, exchanges], by simp [h2.turns], h2.mem_wf⟩, by simp⟩)
    · exact .inr (.inr (.inl ⟨[], t, by simp [burst, Bus.bind, h1], ⟨h2.same, h2.sel, by simp,
        by simp [h3, exchanges], by simp [h2.turns], h2.mem_wf⟩, nextTurn s, hmem (by simp [h4]),
        v, h4⟩))
    · exact .inr (.inr (.inr ⟨[], t, by simp [burst, Bus.bind, h1], nextTurn s,
        hmem (by simp [h2]), h2⟩))

theorem Calm.tail {n : Nat} {s t : State} (h : Calm (n + 1) s) (ht : t.turns = s.turns.tail) :
    Calm n t := by
  intro u hu
  rw [ht] at hu
  refine h u ?_
  cases hs : s.turns with
  | nil => rw [hs] at hu; simp at hu
  | cons v vs => rw [hs] at hu; simp only [List.tail_cons] at hu; simp [hu]

theorem Calm.head {n : Nat} {s : State} (h : Calm (n + 1) s) : (nextTurn s).link.clean = true := by
  unfold nextTurn
  cases hs : s.turns with
  | nil => rfl
  | cons u us => exact h u (by simp [hs])

theorem Calm.mono {n m : Nat} {s : State} (h : Calm n s) (hm : m ≤ n) : Calm m s := fun u hu =>
  h u ((List.take_subset_take_left s.turns hm) hu)

/-- Calm exchanges all succeed, whatever bytes come back. -/
theorem burst_calm (out : List Byte) (s : State) (n : Nat) (h : Calm (out.length + n) s) :
    ∃ got t, burst out s = .ok got t ∧ BurstOk out got s t ∧ Calm n t := by
  induction out generalizing s with
  | nil => exact ⟨[], s, rfl, BurstOk.nil s, by simpa using h⟩
  | cons b bs ih =>
    have h' : Calm ((bs.length + n) + 1) s := by
      have : (b :: bs).length + n = (bs.length + n) + 1 := by simp; omega
      rwa [this] at h
    have hc := h'.head
    rcases xchg_cases b s with ⟨r, t, h1, h2, -⟩ | ⟨e, t, h1, h2, h3, d, h4⟩ |
      ⟨t, h1, h2, h3, d, h4⟩ | ⟨t, h1, h2⟩
    · obtain ⟨got, u, k1, k2, k3⟩ := ih t (h'.tail h2.turns)
      exact ⟨r :: got, u, by simp [burst, Bus.bind, h1, k1, Bus.after], h2.cons k2, k3⟩
    · rw [h4] at hc; cases hc
    · rw [h4] at hc; cases hc
    · rw [h2] at hc; cases hc

theorem nextTurn_of_get {s : State} {u : Turn} (h : s.turns[0]? = some u) : nextTurn s = u := by
  unfold nextTurn
  cases hs : s.turns with
  | nil => rw [hs] at h; simp at h
  | cons v vs => rw [hs] at h; simpa using h

/-- A run whose exchange number `j` is the first that does not succeed and fails with `e`. -/
theorem burst_fails {e : Word} {delivered : Bool} {c : Nat} (out : List Byte) (j : Nat) (s : State)
    (hj : j < out.length) (hc : Calm j s) (ht : s.turns[j]? = some ⟨c, .fail e delivered⟩) :
    ∃ got b t, burst out s = .stop (.err e) got t ∧ got.length = j ∧ out[j]? = some b ∧
      SameBlock s t ∧ t.sel = s.sel ∧ t.turns = s.turns.drop (j + 1) ∧
      t.trace = s.trace ++ exchanges (out.take j) got ++ [.xchg b (.err e)] := by
  induction out generalizing j s with
  | nil => simp at hj
  | cons b bs ih =>
    cases j with
    | zero =>
      have hx : xchg b s = .stop (.err e) []
          (record (.xchg b (.err e)) (cutExchange b delivered (takeTurn s))) := by
        simp [xchg, nextTurn_of_get ht]
      exact ⟨[], b, record (.xchg b (.err e)) (cutExchange b delivered (takeTurn s)),
        by simp only [burst, hx, Bus.bind], rfl, rfl,
        (takeTurn_same s).trans ((cutExchange_same b delivered _).trans (record_same _ _)),
        by simp, by simp, by simp [exchanges]⟩
    | succ j =>
      rcases xchg_cases b s with ⟨r, t, h1, h2, -⟩ | ⟨e', t, h1, h2, h3, d, h4⟩ |
        ⟨t, h1, h2, h3, d, h4⟩ | ⟨t, h1, h2⟩
      · obtain ⟨got, b', u, k1, k2, k3, k4, k5, k6, k7⟩ := ih j t (by simpa using hj)
          (hc.tail h2.turns) (by rw [h2.turns]; simpa using ht)
        exact ⟨r :: got, b', u, by simp [burst, Bus.bind, h1, k1, Bus.after], by simp [k2],
          by simpa using k3, h2.same.trans k4, by rw [k5, h2.sel], by rw [k6, h2.turns]; simp,
          by rw [k7, h2.trace]; simp [exchanges]⟩
      · have := hc.head; rw [h4] at this; cases this
      · have := hc.head; rw [h4] at this; cases this
      · have := hc.head; rw [h2] at this; cases this

theorem ReferenceEnv.calm {s : State} (h : ReferenceEnv s) (n : Nat) : Calm n s := fun t ht => by
  rw [h t (List.mem_of_mem_take ht)]; rfl

theorem ReferenceEnv.of_turns {s t : State} (h : ReferenceEnv s) {n : Nat}
    (ht : t.turns = s.turns.drop n) : ReferenceEnv t := fun u hu =>
  h u (List.mem_of_mem_drop (ht ▸ hu))

theorem ReferenceEnv.head {s : State} (h : ReferenceEnv s) : (nextTurn s).link = .reply := by
  unfold nextTurn
  cases hs : s.turns with
  | nil => rfl
  | cons u us => exact h u (by simp [hs])

/-- Against the reference device the bytes received are those it answers, where it has one. -/
theorem burst_reference (out : List Byte) (s : State) (h : ReferenceEnv s) :
    ∃ got t, burst out s = .ok got t ∧ BurstOk out got s t ∧
      ∀ (j : Nat) (v : Byte), (answers s.cfg out s.turns s.dev)[j]? = some (some v) →
        got[j]? = some v := by
  induction out generalizing s with
  | nil => exact ⟨[], s, rfl, BurstOk.nil s, by simp [answers]⟩
  | cons b bs ih =>
    obtain ⟨r, t, h1, h2, h3⟩ := xchg_reply (b := b) h.head
    obtain ⟨got, u, k1, k2, k3⟩ := ih t (h.of_turns (n := 1) (by simp [h2.turns]))
    refine ⟨r :: got, u, by simp [burst, Bus.bind, h1, k1, Bus.after], h2.cons k2, ?_⟩
    intro j v hj
    rw [h2.same.cfg, h2.turns, h2.dev] at k3
    cases j with
    | zero =>
      simp only [answers, List.getElem?_cons_zero, Option.some.injEq] at hj
      simpa using h3 v hj
    | succ j =>
      simp only [answers, List.getElem?_cons_succ] at hj
      simpa using k3 j v hj

/-- The device before the first byte of a frame: the coprocessor's turn, then the selection. -/
def frameStart (s : State) : Device := (s.dev.consume s.cfg (nextTurn s).consume).select

/-- The device after a frame all of whose bytes reached it. -/
def frameEnd (out : List Byte) (s : State) : Device :=
  ((feed s.cfg out s.turns.tail (frameStart s)).consume s.cfg
    (headConsume (s.turns.drop (out.length + 1)))).deselect

/-- What a frame that ran to its end leaves (30_encoding.md R101, R102). -/
structure FrameOk (out got : List Byte) (s t : State) : Prop where
  same : SameBlock s t
  sel : t.sel = false
  length : got.length = out.length
  trace : t.trace = s.trace ++ .sel true :: exchanges out got ++ [.sel false]
  turns : t.turns = s.turns.drop (out.length + 2)
  dev : t.dev = frameEnd out s

/-- What an opened frame leaves (40_framer.md R130, R131). -/
structure OpenOk (out got : List Byte) (s t : State) : Prop where
  same : SameBlock s t
  sel : t.sel = true
  length : got.length = out.length
  trace : t.trace = s.trace ++ .sel true :: exchanges out got
  turns : t.turns = s.turns.drop (out.length + 1)
  dev : t.dev = feed s.cfg out s.turns.tail (frameStart s)

theorem openFrame_of_burst {out got : List Byte} {s t : State}
    (h1 : selEvent true s = .ok [] (setSel true (takeTurn s)))
    (h2 : burst out (setSel true (takeTurn s)) = .ok got t)
    (h3 : BurstOk out got (setSel true (takeTurn s)) t) :
    openFrame out s = .ok got t ∧ OpenOk out got s t := by
  refine ⟨by simp [openFrame, h1, h2, Bus.bind, Bus.after],
    ((takeTurn_same s).trans (setSel_same _ _)).trans h3.same, h3.sel, h3.length, ?_, ?_, ?_⟩
  · simp [h3.trace]
  · simp [h3.turns]
  · rw [h3.dev]; rfl

theorem frame_of_open {out got : List Byte} {s t : State}
    (h1 : openFrame out s = .ok got t) (h2 : OpenOk out got s t)
    (h3 : selEvent false t = .ok [] (setSel false (takeTurn t))) :
    frame out s = .ok got (setSel false (takeTurn t)) ∧
      FrameOk out got s (setSel false (takeTurn t)) := by
  refine ⟨?_, h2.same.trans ((takeTurn_same t).trans (setSel_same _ _)), rfl, h2.length, ?_, ?_, ?_⟩
  · have : frame out s = (openFrame out s).bind (selEvent false) := rfl
    rw [this, h1]
    simp [Bus.bind, Bus.after, h3]
  · simp [h2.trace]
  · simp [h2.turns]
  · simp only [setSel_dev, takeTurn_dev, Bool.false_eq_true, if_false]
    rw [h2.dev, h2.same.cfg, ← headConsume_nextTurn, h2.turns]
    rfl

theorem openFrame_calm (out : List Byte) (s : State) (n : Nat) (h : Calm (out.length + 1 + n) s) :
    ∃ got t, openFrame out s = .ok got t ∧ OpenOk out got s t ∧ Calm n t := by
  have h0 : Calm ((out.length + n) + 1) s := by
    have : (out.length + n) + 1 = out.length + 1 + n := by omega
    rwa [this]
  obtain ⟨got, t, k1, k2, k3⟩ := burst_calm out (setSel true (takeTurn s)) n (h0.tail rfl)
  obtain ⟨h1, h2⟩ := openFrame_of_burst (selEvent_clean h0.head) k1 k2
  exact ⟨got, t, h1, h2, k3⟩

/-- A calm frame runs to its end. -/
theorem frame_calm (out : List Byte) (s : State) (n : Nat) (h : Calm (out.length + 2 + n) s) :
    ∃ got t, frame out s = .ok got t ∧ FrameOk out got s t ∧ Calm n t := by
  have h0 : Calm (out.length + 1 + (n + 1)) s := by
    have : out.length + 1 + (n + 1) = out.length + 2 + n := by omega
    rwa [this]
  obtain ⟨got, t, k1, k2, k3⟩ := openFrame_calm out s (n + 1) h0
  obtain ⟨h1, h2⟩ := frame_of_open k1 k2 (selEvent_clean k3.head)
  exact ⟨got, _, h1, h2, k3.tail rfl⟩

theorem openFrame_reference (out : List Byte) (s : State) (h : ReferenceEnv s) :
    ∃ got t, openFrame out s = .ok got t ∧ OpenOk out got s t ∧ ReferenceEnv t ∧
      ∀ (j : Nat) (v : Byte),
        (answers s.cfg out s.turns.tail (frameStart s))[j]? = some (some v) → got[j]? = some v := by
  have h0 : ReferenceEnv (setSel true (takeTurn s)) :=
    h.of_turns (n := 1) (by simp)
  obtain ⟨got, t, k1, k2, k3⟩ := burst_reference out _ h0
  obtain ⟨h1, h2⟩ := openFrame_of_burst (selEvent_clean (h.calm 1).head) k1 k2
  exact ⟨got, t, h1, h2, h.of_turns h2.turns, k3⟩

/-- Against the reference device a frame runs to its end and receives what the device answers. -/
theorem frame_reference (out : List Byte) (s : State) (h : ReferenceEnv s) :
    ∃ got t, frame out s = .ok got t ∧ FrameOk out got s t ∧ ReferenceEnv t ∧
      ∀ (j : Nat) (v : Byte),
        (answers s.cfg out s.turns.tail (frameStart s))[j]? = some (some v) → got[j]? = some v := by
  obtain ⟨got, t, k1, k2, k3, k4⟩ := openFrame_reference out s h
  obtain ⟨h1, h2⟩ := frame_of_open k1 k2 (selEvent_clean (k3.calm 1).head)
  exact ⟨got, _, h1, h2, h.of_turns h2.turns, k4⟩

/-! Every outcome of a run of events, and of an operation built on one. -/

/-- What a run of transport events leaves, however it went: the block's registers, the canonical
form of memory, and a trace legal from the level `level` on (40_framer.md R144). -/
structure Wire (level : Bool) (s t : State) : Prop where
  same : SameBlock s t
  mem_wf : s.dev.mem.wf → t.dev.mem.wf
  turns : ∀ u ∈ t.turns, u ∈ s.turns
  trace : ∃ es, t.trace = s.trace ++ es ∧
    (s.sel = level → es.foldlM eventLevel level = some t.sel)

theorem Wire.trans {l m : Bool} {s t u : State} (h : Wire l s t) (k : Wire m t u)
    (hm : s.sel = l → t.sel = m) : Wire l s u := by
  refine ⟨h.same.trans k.same, fun hw => k.mem_wf (h.mem_wf hw), fun v hv => h.turns v (k.turns v hv),
    ?_⟩
  obtain ⟨es, h1, h2⟩ := h.trace
  obtain ⟨fs, k1, k2⟩ := k.trace
  refine ⟨es ++ fs, by rw [k1, h1, List.append_assoc], fun hs => ?_⟩
  have hb := hm hs
  rw [List.foldlM_append, h2 hs, hb]
  exact k2 hb

/-- The level of the line after the run. -/
theorem Wire.line {l : Bool} {s t : State} (h : Wire l s t) (hs : s.sel = l)
    (hl : lineLevel s.trace = some s.sel) : lineLevel t.trace = some t.sel := by
  obtain ⟨es, h1, h2⟩ := h.trace
  unfold lineLevel at hl ⊢
  rw [h1, List.foldlM_append, hl, hs]
  exact h2 hs

theorem exchanges_level (out got : List Byte) :
    (exchanges out got).foldlM eventLevel true = some true := by
  induction out generalizing got with
  | nil => simp [exchanges]
  | cons b bs ih =>
    cases got with
    | nil => simp [exchanges]
    | cons r rs =>
      have := ih rs
      simp only [exchanges] at this
      simp [exchanges, eventLevel, this]

theorem takeTurn_wire (l : Bool) (s : State) : Wire l s (takeTurn s) :=
  ⟨takeTurn_same s, fun h => by simpa using h, fun u hu => List.mem_of_mem_tail (by simpa using hu),
    [], by simp, fun h => by simp [h]⟩

theorem setSel_wire (l : Bool) (s : State) : Wire l s (setSel (!l) s) := by
  refine ⟨setSel_same _ s, fun h => ?_, fun u hu => by simpa using hu, [.sel (!l)], by simp, fun _ => ?_⟩
  · cases l <;> simpa using h
  · cases l <;> simp [eventLevel]

theorem BurstOk.wire {out got : List Byte} {s t : State} (h : BurstOk out got s t) :
    Wire true s t :=
  ⟨h.same, h.mem_wf, fun _ hu => List.mem_of_mem_drop (h.turns ▸ hu), _, h.trace, fun hs => by rw [h.sel, hs]; exact exchanges_level out got⟩

theorem BurstCut.wire {out got : List Byte} {s t : State} (h : BurstCut out got s t) :
    Wire true s t :=
  ⟨h.same, h.mem_wf, fun _ hu => List.mem_of_mem_drop (h.turns ▸ hu), _, h.trace, fun hs => by rw [h.sel, hs]; exact exchanges_level _ got⟩

theorem record_err_wire (b : Byte) (e : Word) (s : State) :
    Wire true s (record (.xchg b (.err e)) s) :=
  ⟨record_same _ s, fun h => h, fun _ hu => hu, _, rfl, fun h => by simp [eventLevel, h]⟩

/-- Everything the opening of a frame can do. -/
theorem openFrame_cases (out : List Byte) (s : State) :
    (∃ got t, openFrame out s = .ok got t ∧ OpenOk out got s t ∧ Wire false s t) ∨
    (∃ e got t, openFrame out s = .stop (.err e) got t ∧ Wire false s t ∧ t.sel = true) ∨
    (∃ got t, openFrame out s = .stop .rst got (resetBlock t) ∧ Wire false s t ∧
      ∃ u ∈ s.turns, ∃ d, u.link = .rst d) ∨
    (∃ got t, openFrame out s = .stop .hang got t ∧ ∃ u ∈ s.turns, u.link = .hang) := by
  have hturn : ∀ u ∈ (setSel true (takeTurn s)).turns, u ∈ s.turns := fun u hu =>
    List.mem_of_mem_tail (by simpa using hu)
  have hw : Wire false s (setSel true (takeTurn s)) :=
    (takeTurn_wire false s).trans (setSel_wire false _) (fun h => by simpa using h)
  rcases selEvent_cases true s with h | ⟨⟨d, hd⟩, h⟩
  · rcases burst_cases out (setSel true (takeTurn s)) with ⟨got, t, h1, h2⟩ |
      ⟨e, got, b, t, h1, h2, -⟩ | ⟨got, t, h1, h2, u, hu, hu'⟩ | ⟨got, t, h1, u, hu, hu'⟩
    · obtain ⟨k1, k2⟩ := openFrame_of_burst h h1 h2
      exact .inl ⟨got, t, k1, k2, hw.trans h2.wire (fun _ => rfl)⟩
    · refine .inr (.inl ⟨e, got, _, by simp [openFrame, h, h1, Bus.bind, Bus.after],
        (hw.trans h2.wire (fun _ => rfl)).trans (record_err_wire b e t) (fun _ => h2.sel), ?_⟩)
      simpa using h2.sel
    · exact .inr (.inr (.inl ⟨got, t, by simp [openFrame, h, h1, Bus.bind, Bus.after],
        hw.trans h2.wire (fun _ => rfl), u, hturn u hu, hu'⟩))
    · exact .inr (.inr (.inr ⟨got, t, by simp [openFrame, h, h1, Bus.bind, Bus.after], u,
        hturn u hu, hu'⟩))
  · refine .inr (.inr (.inl ⟨[], takeTurn s, by simp [openFrame, h, Bus.bind],
      takeTurn_wire false s, nextTurn s, ?_, d, hd⟩))
    unfold nextTurn at hd ⊢
    cases hs : s.turns with
    | nil => rw [hs] at hd; simp at hd
    | cons u us => simp

/-- Everything the release of the line can do. -/
theorem release_cases (s : State) :
    (selEvent false s = .ok [] (setSel false (takeTurn s)) ∧
      Wire true s (setSel false (takeTurn s))) ∨
    (selEvent false s = .stop .rst [] (resetBlock (takeTurn s)) ∧ Wire true s (takeTurn s) ∧
      ∃ u ∈ s.turns, ∃ d, u.link = .rst d) := by
  rcases selEvent_cases false s with h | ⟨⟨d, hd⟩, h⟩
  · exact .inl ⟨h, (takeTurn_wire true s).trans (setSel_wire true _) (fun h => by simpa using h)⟩
  · refine .inr ⟨h, takeTurn_wire true s, nextTurn s, ?_, d, hd⟩
    unfold nextTurn at hd ⊢
    cases hs : s.turns with
    | nil => rw [hs] at hd; simp at hd
    | cons u us => simp

/-- Everything a frame can do. -/
theorem frame_cases (out : List Byte) (s : State) :
    (∃ got t, frame out s = .ok got t ∧ FrameOk out got s t ∧ Wire false s t) ∨
    (∃ e got t, frame out s = .stop (.err e) got t ∧ Wire false s t ∧ t.sel = true) ∨
    (∃ got t, frame out s = .stop .rst got (resetBlock t) ∧ Wire false s t ∧
      ∃ u ∈ s.turns, ∃ d, u.link = .rst d) ∨
    (∃ got t, frame out s = .stop .hang got t ∧ ∃ u ∈ s.turns, u.link = .hang) := by
  have hf : frame out s = (openFrame out s).bind (selEvent false) := rfl
  rcases openFrame_cases out s with ⟨got, t, h1, h2, h3⟩ | ⟨e, got, t, h1, h2, h3⟩ |
    ⟨got, t, h1, h2, h3⟩ | ⟨got, t, h1, h2⟩
  · rcases release_cases t with ⟨k1, k2⟩ | ⟨k1, k2, u, hu, hd⟩
    · obtain ⟨m1, m2⟩ := frame_of_open h1 h2 k1
      exact .inl ⟨got, _, m1, m2, h3.trans k2 (fun _ => h2.sel)⟩
    · exact .inr (.inr (.inl ⟨got ++ [], takeTurn t, by rw [hf, h1]; simp [Bus.bind, k1, Bus.after],
        h3.trans k2 (fun _ => h2.sel), u, h3.turns u hu, hd⟩))
  · exact .inr (.inl ⟨e, got, t, by rw [hf, h1]; rfl, h2, h3⟩)
  · exact .inr (.inr (.inl ⟨got, t, by rw [hf, h1]; rfl, h2, h3⟩))
  · exact .inr (.inr (.inr ⟨got, t, by rw [hf, h1]; rfl, h2⟩))

/-! Operations: how a run of events becomes the operation's outcome (60_exceptions.md R186). -/

/-- The three ways in which an operation other than its rule's normal end may go: the transport
failure, the reset event, the exchange that never returns. -/
def OwnedFails (s : State) (o : Out) : Prop :=
  (∃ e t, o = .next (respond statusTransportFailure e [] { t with scope := .idle }) ∧
    Wire false s t ∧ t.sel = false) ∨
  (∃ t, o = .next (resetBlock t) ∧ Wire false s t ∧ ∃ u ∈ s.turns, ∃ d, u.link = .rst d) ∨
  (o = .fault .transportNeverReturns ∧ ∃ u ∈ s.turns, u.link = .hang)

theorem endOwned_err {s t : State} {e : Word} {got : List Byte} (ok : List Byte → State → State)
    (h : Wire false s t) (hs : t.sel = true) :
    OwnedFails s (endOwned (.stop (.err e) got t) ok) := by
  rcases release_cases t with ⟨k1, k2⟩ | ⟨k1, k2, u, hu, hd⟩
  · exact .inl ⟨e, _, by simp only [endOwned, k1], h.trans k2 (fun _ => hs), rfl⟩
  · exact .inr (.inl ⟨_, by simp only [endOwned, k1], h.trans k2 (fun _ => hs), u, h.turns u hu, hd⟩)

/-- Everything an operation made of one frame can do. -/
theorem endOwned_frame_cases (out : List Byte) (s : State) (ok : List Byte → State → State) :
    (∃ got t, endOwned (frame out s) ok = .next (ok got t) ∧ FrameOk out got s t ∧
      Wire false s t) ∨ OwnedFails s (endOwned (frame out s) ok) := by
  rcases frame_cases out s with ⟨got, t, h1, h2, h3⟩ | ⟨e, got, t, h1, h2, h3⟩ |
    ⟨got, t, h1, h2, h3⟩ | ⟨got, t, h1, h2⟩
  · exact .inl ⟨got, t, by rw [h1]; rfl, h2, h3⟩
  · rw [h1]; exact .inr (endOwned_err ok h2 h3)
  · exact .inr (.inr (.inl ⟨t, by rw [h1]; rfl, h2, h3⟩))
  · exact .inr (.inr (.inr ⟨by rw [h1]; rfl, h2⟩))

/-- COMMIT's settling of a failure changes nothing but the device's write pointer. -/
theorem settleCommit_wire (s : State) : Wire true s (settleCommit s) := by
  refine ⟨by constructor <;> rfl, fun h => ?_, fun u hu => hu, [], (List.append_nil _).symm,
    fun h => by simp [settleCommit, h]⟩
  rcases Device.settleWP_eq s.cfg s.dev with hd | hd <;> simpa [settleCommit, hd] using h

/-- A COMMIT whose write frame runs to its end has nothing to settle. -/
theorem commitTxn_ok {s t : State} {got : List Byte}
    (h : frame (writeFrameBytes s.cfg (writePtrAddr s.cfg) (zext32 s.w) (xferBytes s.cfg)) s =
      .ok got t) : commitTxn s = .ok got t := by
  unfold commitTxn writeTxn
  rw [h]
  rfl

/-- Everything COMMIT can do. -/
theorem endOwned_commit_cases (s : State) (ok : List Byte → State → State) :
    (∃ got t, endOwned (commitTxn s) ok = .next (ok got t) ∧
      FrameOk (writeFrameBytes s.cfg (writePtrAddr s.cfg) (zext32 s.w) (xferBytes s.cfg)) got s t ∧
      Wire false s t) ∨ OwnedFails s (endOwned (commitTxn s) ok) := by
  unfold commitTxn writeTxn
  rcases frame_cases (writeFrameBytes s.cfg (writePtrAddr s.cfg) (zext32 s.w) (xferBytes s.cfg)) s
    with ⟨got, t, h1, h2, h3⟩ | ⟨e, got, t, h1, h2, h3⟩ | ⟨got, t, h1, h2, h3⟩ | ⟨got, t, h1, h2⟩
  · exact .inl ⟨got, t, by rw [h1]; rfl, h2, h3⟩
  · rw [h1]
    exact .inr (endOwned_err (got := got) ok (h2.trans (settleCommit_wire t) (fun _ => h3)) h3)
  · exact .inr (.inr (.inl ⟨t, by rw [h1]; rfl, h2, h3⟩))
  · exact .inr (.inr (.inr ⟨by rw [h1]; rfl, h2⟩))

/-- Everything OPENRD and OPENWR can do. -/
theorem endOwned_open_cases (out : List Byte) (s : State) (ok : List Byte → State → State) :
    (∃ got t, endOwned (openFrame out s) ok = .next (ok got t) ∧ OpenOk out got s t ∧
      Wire false s t) ∨ OwnedFails s (endOwned (openFrame out s) ok) := by
  rcases openFrame_cases out s with ⟨got, t, h1, h2, h3⟩ | ⟨e, got, t, h1, h2, h3⟩ |
    ⟨got, t, h1, h2, h3⟩ | ⟨got, t, h1, h2⟩
  · exact .inl ⟨got, t, by rw [h1]; rfl, h2, h3⟩
  · rw [h1]; exact .inr (endOwned_err ok h2 h3)
  · exact .inr (.inr (.inl ⟨t, by rw [h1]; rfl, h2, h3⟩))
  · exact .inr (.inr (.inr ⟨by rw [h1]; rfl, h2⟩))

/-- Everything CLOSE can do. -/
theorem endOwned_release_cases (s : State) (ok : List Byte → State → State) :
    endOwned (selEvent false s) ok = .next (ok [] (setSel false (takeTurn s))) ∨
    (endOwned (selEvent false s) ok = .next (resetBlock (takeTurn s)) ∧
      ∃ u ∈ s.turns, ∃ d, u.link = .rst d) := by
  rcases release_cases s with ⟨h, -⟩ | ⟨h, -, k⟩
  · exact .inl (by rw [h]; rfl)
  · exact .inr ⟨by rw [h]; rfl, k⟩

/-- Everything a stream operation can do. -/
theorem endStream_cases (out : List Byte) (s : State) (rdata : List Byte → List Byte)
    (ok : List Byte → State → State) :
    (∃ got t, endStream (burst out s) rdata ok = .next (ok got t) ∧ BurstOk out got s t) ∨
    (∃ e got t, endStream (burst out s) rdata ok =
      .next (respond statusTransportFailure e (rdata got) t) ∧ Wire true s t ∧ t.sel = s.sel) ∨
    (∃ t, endStream (burst out s) rdata ok = .next (resetBlock t) ∧ Wire true s t ∧
      ∃ u ∈ s.turns, ∃ d, u.link = .rst d) ∨
    (endStream (burst out s) rdata ok = .fault .transportNeverReturns ∧
      ∃ u ∈ s.turns, u.link = .hang) := by
  rcases burst_cases out s with ⟨got, t, h1, h2⟩ | ⟨e, got, b, t, h1, h2, -⟩ |
    ⟨got, t, h1, h2, h3⟩ | ⟨got, t, h1, h2⟩
  · exact .inl ⟨got, t, by rw [h1]; rfl, h2⟩
  · exact .inr (.inl ⟨e, got, _, by rw [h1]; rfl,
      h2.wire.trans (record_err_wire b e t) (fun hs => by rw [h2.sel, hs]), by simpa using h2.sel⟩)
  · exact .inr (.inr (.inl ⟨t, by rw [h1]; rfl, h2.wire, h3⟩))
  · exact .inr (.inr (.inr ⟨by rw [h1]; rfl, h2⟩))

theorem OwnedFails.earlier {s t : State} {o : Out} (hw : Wire false s t) (hs : t.sel = false)
    (h : OwnedFails t o) : OwnedFails s o := by
  rcases h with ⟨e, u, h1, h2, h3⟩ | ⟨u, h1, h2, v, hv, hd⟩ | ⟨h1, v, hv, hd⟩
  · exact .inl ⟨e, u, h1, hw.trans h2 (fun _ => hs), h3⟩
  · exact .inr (.inl ⟨u, h1, hw.trans h2 (fun _ => hs), v, hw.turns v hv, hd⟩)
  · exact .inr (.inr ⟨h1, v, hw.turns v hv, hd⟩)

/-- WAITDRAIN's loop either reads once and ends, reads once and goes on, or fails
(41_ring_manager.md R160). -/
theorem pollLoop_step (left i : Nat) (s : State) :
    (∃ got t, readPtrTxn s = .ok got t ∧
      FrameOk (readFrameBytes s.cfg (readPtrAddr s.cfg) (xferBytes s.cfg)) got s t ∧
      Wire false s t ∧
      ((readPtrValue s.cfg got = zext32 t.cw ∧
          pollLoop left i s = .next (respond statusOk (zext32 i) [] t)) ∨
        (readPtrValue s.cfg got ≠ zext32 t.cw ∧ left = 0 ∧
          pollLoop left i s = .next (respond statusDrainTimeout (readPtrValue s.cfg got) [] t)) ∨
        (readPtrValue s.cfg got ≠ zext32 t.cw ∧ ∃ n, left = n + 1 ∧
          pollLoop left i s = pollLoop n (i + 1) t))) ∨
    OwnedFails s (pollLoop left i s) := by
  have hstop : ∀ why got t, readPtrTxn s = .stop why got t →
      pollLoop left i s = endOwned (.stop why got t) (fun _ t => t) := by
    intro why got t h
    unfold pollLoop
    simp only [h]
  rcases frame_cases (readFrameBytes s.cfg (readPtrAddr s.cfg) (xferBytes s.cfg)) s with
    ⟨got, t, h1, h2, h3⟩ | ⟨e, got, t, h1, h2, h3⟩ | ⟨got, t, h1, h2, h3⟩ | ⟨got, t, h1, h2⟩
  · refine .inl ⟨got, t, h1, h2, h3, ?_⟩
    have h1' : readPtrTxn s = .ok got t := h1
    by_cases hv : readPtrValue s.cfg got = zext32 t.cw
    · refine .inl ⟨hv, ?_⟩
      unfold pollLoop
      simp only [h1', hv, if_true]
    · refine .inr ?_
      cases left with
      | zero => exact .inl ⟨hv, rfl, by unfold pollLoop; simp only [h1', hv, if_false]⟩
      | succ n => exact .inr ⟨hv, n, rfl, by conv_lhs => unfold pollLoop; simp only [h1', hv, if_false]⟩
  · rw [hstop _ _ _ h1]; exact .inr (endOwned_err _ h2 h3)
  · rw [hstop _ _ _ h1]; exact .inr (.inr (.inl ⟨t, rfl, h2, h3⟩))
  · rw [hstop _ _ _ h1]; exact .inr (.inr (.inr ⟨rfl, h2⟩))

/-- Everything WAITDRAIN's loop can do. -/
theorem pollLoop_cases (left i : Nat) (s : State) :
    (∃ t v st, pollLoop left i s = .next (respond st v [] t) ∧ Wire false s t ∧ t.sel = false ∧
      (st = statusOk ∨ st = statusDrainTimeout)) ∨ OwnedFails s (pollLoop left i s) := by
  induction left generalizing i s with
  | zero =>
    rcases pollLoop_step 0 i s with ⟨got, t, -, h2, h3, ⟨-, h⟩ | ⟨-, -, h⟩ | ⟨-, n, hn, -⟩⟩ | h
    · exact .inl ⟨t, _, _, h, h3, h2.sel, .inl rfl⟩
    · exact .inl ⟨t, _, _, h, h3, h2.sel, .inr rfl⟩
    · omega
    · exact .inr h
  | succ n ih =>
    rcases pollLoop_step (n + 1) i s with ⟨got, t, -, h2, h3, ⟨-, h⟩ | ⟨-, hn, -⟩ | ⟨-, m, hm, h⟩⟩ | h
    · exact .inl ⟨t, _, _, h, h3, h2.sel, .inl rfl⟩
    · omega
    · obtain rfl : n = m := by omega
      rw [h]
      rcases ih (i + 1) t with ⟨u, v, st, k1, k2, k3, k4⟩ | k
      · exact .inl ⟨u, v, st, k1, h3.trans k2 (fun _ => h2.sel), k3, k4⟩
      · exact .inr (k.earlier h3 h2.sel)
    · exact .inr h

/-! Prologue and fault entry. -/

/-- The faulted answer, the scope fault, or the operation's own rule (60_exceptions.md R187). -/
theorem prologue_cases (allowed : Scope → Bool) (s : State) (body : Out) :
    (s.f = true ∧ prologue allowed s body = .next (answerFaulted s)) ∨
    (s.f = false ∧ allowed s.scope = false ∧
      prologue allowed s body = .next (raiseFault faultScopeViolation (scopeCode s.scope) s)) ∨
    (s.f = false ∧ allowed s.scope = true ∧ prologue allowed s body = body) := by
  unfold prologue
  cases s.f <;> cases allowed s.scope <;> simp

theorem prologue_runs {allowed : Scope → Bool} {s : State} (body : Out) (hf : s.f = false)
    (hs : allowed s.scope = true) : prologue allowed s body = body := by
  simp [prologue, hf, hs]

/-- The two outcomes of an encoding that is no operation (60_exceptions.md R187). -/
theorem raiseEncoding_cases (code op : Byte) (s : State) :
    (s.f = true ∧ raiseEncoding code op s = .next (answerFaulted s)) ∨
    (s.f = false ∧ raiseEncoding code op s = .next (raiseFault code (op.setWidth 32) s)) := by
  unfold raiseEncoding
  cases s.f <;> simp

/-- Fault entry leaves what 60_exceptions.md R188 says. -/
theorem raiseFault_entry (code : Byte) (info : Word) (s : State) :
    FaultEntry s (raiseFault code info s) code info := by
  have hd := raiseFault_dev s code info
  exact
    { f := by simp, fc := by simp, fi := by simp, scope := by simp
      ring := by constructor <;> simp
      responds := by simp [Responds]
      closed := fun h => by simp [h]
      released := fun h => by simp [h]
      mem := by rw [hd]; split <;> rfl
      rp := by rw [hd]; split <;> rfl
      wp := by rw [hd]; split <;> rfl }

end Sys2Proof.Machine
end

