-- ==== Sys2Proof/Laws/Frames.lean ====
section
/-! SUPPORT. What whole frames do to the device: the read frame keeps its bytes and delivers them,
the write frame stores its payload (30_encoding.md R100 to R104, 20_memory.md R71 to R73). -/

namespace Sys2Proof.Machine

/-! The preamble word. -/

theorem readFrameBytes_eq (p : Params) (a : Word) (k : Nat) :
    readFrameBytes p a k = busReadFrame p a k := by
  simp [readFrameBytes, preamble, addrBytes, preambleWord, deviceAddr]

theorem writeFrameBytes_eq (p : Params) (a v : Word) (k : Nat) :
    writeFrameBytes p a v k = busWriteFrame p a (payload v k) := by
  simp [writeFrameBytes, preamble, addrBytes, preambleWord, deviceAddr]

@[simp] theorem readFrameBytes_length (p : Params) (a : Word) (k : Nat) :
    (readFrameBytes p a k).length = 3 + p.rdDummy + k := by
  simp [readFrameBytes]

@[simp] theorem writeFrameBytes_length (p : Params) (a v : Word) (k : Nat) :
    (writeFrameBytes p a v k).length = 3 + k := by
  simp [writeFrameBytes]

/-- A framable address passes the direction mask unharmed (70_reset_and_hazards.md R220). -/
theorem preamble_split {x m dir : Addr} (hx : x &&& dir = 0) (hm : m &&& ~~~ dir = 0) :
    (x ||| m) &&& dir = m ∧ (x ||| m) &&& ~~~ dir = x := by
  have hx' : ∀ i : Nat, x.getLsbD i = true → dir.getLsbD i = false := by
    intro i h
    have := congrArg (fun v : Addr => v.getLsbD i) hx
    simpa [h] using this
  have hm' : ∀ i : Nat, i < 24 → m.getLsbD i = true → dir.getLsbD i = true := by
    intro i hi h
    have := congrArg (fun v : Addr => v.getLsbD i) hm
    simpa [h, hi] using this
  refine ⟨BitVec.eq_of_getLsbD_eq fun i hi => ?_, BitVec.eq_of_getLsbD_eq fun i hi => ?_⟩
  · have h1 := hx' i
    have h2 := hm' i hi
    simp only [BitVec.getLsbD_and, BitVec.getLsbD_or]
    cases hxi : x.getLsbD i <;> cases hmi : m.getLsbD i <;> cases hdi : dir.getLsbD i <;>
      simp_all
  · have h1 := hx' i
    have h2 := hm' i hi
    simp only [BitVec.getLsbD_and, BitVec.getLsbD_or, BitVec.getLsbD_not, hi, decide_true,
      Bool.true_and]
    cases hxi : x.getLsbD i <;> cases hmi : m.getLsbD i <;> cases hdi : dir.getLsbD i <;>
      simp_all

theorem masksOk_parts {p : Params} (h : p.masksOk) :
    p.rdMask &&& ~~~ p.dirField = 0 ∧ p.wrMask &&& ~~~ p.dirField = 0 := by
  have h2 := h.2
  refine ⟨BitVec.eq_of_getLsbD_eq fun i hi => ?_, BitVec.eq_of_getLsbD_eq fun i hi => ?_⟩ <;>
    (have h3 := congrArg (fun v : Addr => v.getLsbD i) h2
     simp only [BitVec.getLsbD_and, BitVec.getLsbD_or, BitVec.getLsbD_not, hi,
       decide_true, Bool.true_and] at h3 ⊢
     revert h3
     cases p.rdMask.getLsbD i <;> cases p.wrMask.getLsbD i <;> cases p.dirField.getLsbD i <;> simp)

/-! Both preambles. -/

/-- The device after a write preamble: in its write-data phase, the cursor at the address. -/
theorem feed_preamble_wr {p : Params} {a : Word} (hm : p.masksOk) (hf : Framable p a)
    (ts : List Turn) {d : Device} (hd : d.phase = .pre 0 0) :
    feed p (preamble p .wr a) ts d =
      framed .wrData (addrOf a) d.latch (consumes p (takes 3 ts) d) := by
  obtain ⟨h1, h2⟩ := preamble_split (x := deviceAddr a) hf (masksOk_parts hm).2
  simp only [preamble, List.append_nil]
  rw [feed_preamble p _ ts d hd]
  have hl := consumes_latch p (takes 3 ts) d
  simp only [preambleWord, Device.enterFrame, h1, h2, if_true, ← hl]
  rfl

/-- The device after a read preamble and its dummies: in its read-data phase, the cursor at the
address, `RP` latched at the third byte where the read starts there (R73). -/
theorem feed_preamble_rd {p : Params} {a : Word} (hm : p.masksOk) (hf : Framable p a)
    (ts : List Turn) {d : Device} (hd : d.phase = .pre 0 0) :
    feed p (preamble p .rd a) ts d =
      framed .rdData (addrOf a) ((consumes p (takes 3 ts) d).latchFor p (deviceAddr a))
        (consumes p (takes 3 ts ++ takes p.rdDummy (ts.drop 3)) d) := by
  obtain ⟨h1, h2⟩ := preamble_split (x := deviceAddr a) hf (masksOk_parts hm).1
  simp only [preamble]
  rw [feed_append, feed_preamble p _ ts d hd, addrBytes_length]
  generalize he : consumes p (takes 3 ts) d = e
  have hent : e.enterFrame p (preambleWord p .rd a) =
      framed (if 0 < p.rdDummy then .dummy p.rdDummy else .rdData) (addrOf a)
        (e.latchFor p (deviceAddr a)) e := by
    simp only [preambleWord, Device.enterFrame, h1, h2, if_neg hm.1, if_true]
    rfl
  rw [hent, consumes_append, he]
  rcases Nat.eq_zero_or_pos p.rdDummy with h0 | h0
  · simp [h0, feed, takes]
  · rw [feed_dummy p _ _ _ p.rdDummy h0 (by simp) (by simp [h0])]
    simp

/-! Device bytes across frames. -/

theorem consumes_byteAt (p : Params) (ns : List Nat) (d : Device) (x : Nat)
    (h : OutsideRP p x ∨ ∀ n ∈ ns, n = 0) : (consumes p ns d).byteAt p x = d.byteAt p x := by
  rcases h with h | h
  · have h0 : regOffset p.regCmdRead x = none := regOffset_eq_none.2 h
    rw [consumes_eq]
    simp [Device.byteAt, h0]
  · rw [consumes_rest p h]

theorem Device.byteAt_deselect (p : Params) (d : Device) (x : Nat) :
    d.deselect.byteAt p x = d.byteAt p x :=
  Device.byteAt_congr p x rfl rfl rfl rfl

/-- Once the device's data are unspecified they stay so (R72). -/
theorem Device.exchange_lost {p : Params} {b : Byte} {d : Device} (h : d.lost = true) :
    (d.exchange p b).1.lost = true := by
  unfold Device.exchange
  split
  · exact h
  · simp only
    split
    · exact h
    · simp only [Device.enterFrame]
      split
      · exact h
      · split <;> exact h
  · exact h
  · simp [Device.readData, h]
  · simp [Device.writeData, h]
  · exact h

theorem feed_lost {p : Params} (bs : List Byte) (ts : List Turn) {d : Device} (h : d.lost = true) :
    (feed p bs ts d).lost = true := by
  induction bs generalizing ts d with
  | nil => exact h
  | cons b bs ih => exact ih _ (Device.exchange_lost (by simpa using h))

theorem Device.byteAt_lost (p : Params) {d : Device} (h : d.lost = true) (x : Nat) :
    d.byteAt p x = none := by simp [Device.byteAt, h]

theorem Settled.head {s : State} {x : Nat} (h : Settled s x) :
    OutsideRP s.cfg x ∨ ∀ n ∈ [(nextTurn s).consume], n = 0 := by
  refine h.imp id fun h n hn => ?_
  rw [List.mem_singleton.1 hn, ← headConsume_nextTurn]
  cases hs : s.turns with
  | nil => rfl
  | cons u us => exact h u (by simp [hs])

theorem Settled.takes {s : State} {x : Nat} (h : Settled s x) (k m : Nat) :
    OutsideRP s.cfg x ∨ ∀ n ∈ takes k (s.turns.drop m), n = 0 :=
  h.imp id fun h => takes_rest (fun u hu => h u (List.mem_of_mem_drop hu)) k

/-- The device at the start of a frame. -/
theorem frameStart_fields (s : State) :
    (frameStart s).phase = .pre 0 0 ∧ (frameStart s).latch = [] ∧ (frameStart s).wpOld = none ∧
      (frameStart s).wp = s.dev.wp ∧
      (frameStart s).lost = s.dev.lost ∧
      (frameStart s).rp = (s.dev.consume s.cfg (nextTurn s).consume).rp := by
  refine ⟨rfl, rfl, rfl, ?_, ?_, rfl⟩ <;> simp [frameStart]

theorem frameStart_byteAt {s : State} {x : Nat} (h : Settled s x) :
    (frameStart s).byteAt s.cfg x = s.dev.byteAt s.cfg x := by
  have h1 : (frameStart s).byteAt s.cfg x =
      (consumes s.cfg [(nextTurn s).consume] s.dev).byteAt s.cfg x :=
    Device.byteAt_congr _ _ rfl rfl rfl rfl
  rw [h1]
  exact consumes_byteAt _ _ _ _ h.head

/-- The end of a frame: the line is released. -/
theorem frameEnd_byteAt {out : List Byte} {s : State} {x : Nat} (h : Settled s x) :
    (frameEnd out s).byteAt s.cfg x =
      (feed s.cfg out s.turns.tail (frameStart s)).byteAt s.cfg x := by
  unfold frameEnd
  rw [Device.byteAt_deselect]
  refine consumes_byteAt s.cfg [headConsume (s.turns.drop (out.length + 1))] _ x
    (h.imp id fun h n hn => ?_)
  rw [List.mem_singleton.1 hn]
  cases hs : s.turns.drop (out.length + 1) with
  | nil => rfl
  | cons u us => exact h u (List.mem_of_mem_drop (by rw [hs]; simp))

/-- The device during the data bytes of a read frame. -/
theorem feed_readFrame {p : Params} {a : Word} {k : Nat} (hm : p.masksOk) (hf : Framable p a)
    (hr : addrOf a + k ≤ deviceSize) (ts : List Turn) {d : Device} (hd : d.phase = .pre 0 0)
    (hl : d.lost = false) :
    feed p (readFrameBytes p a k) ts d =
      framed .rdData (addrOf a + k)
        (((consumes p (takes 3 ts) d).latchFor p (deviceAddr a)).drop k)
        (consumes p (takes 3 ts ++ takes p.rdDummy (ts.drop 3) ++
          takes k (ts.drop (3 + p.rdDummy))) d) := by
  unfold readFrameBytes
  rw [feed_append, feed_preamble_rd hm hf ts hd, preamble_rd_length,
    feed_read _ _ _ _ ⟨rfl, by simpa using hl, by simpa using hr⟩]
  simp [consumes_append]

/-- A completed read frame leaves every device byte the coprocessor leaves alone. -/
theorem readFrame_keeps {s t : State} {a : Word} {k : Nat} {got : List Byte} (hw : s.cfg.wf)
    (hf : Framable s.cfg a) (hr : addrOf a + k ≤ deviceSize)
    (h : FrameOk (readFrameBytes s.cfg a k) got s t) : KeepsDevice s t := by
  intro x hx
  simp only [devByte]
  rw [h.dev, h.same.cfg]
  obtain ⟨f1, f2, f4, f5, f6, f7⟩ := frameStart_fields s
  have hm : s.cfg.masksOk := hw.2.2.2.2.1
  cases hl : s.dev.lost with
  | true =>
    have h1 : (frameEnd (readFrameBytes s.cfg a k) s).lost = true := by
      have := feed_lost (p := s.cfg) (readFrameBytes s.cfg a k) s.turns.tail (f6.trans hl)
      simpa [frameEnd] using this
    rw [Device.byteAt_lost _ h1, Device.byteAt_lost _ hl]
  | false =>
    have hfeed := feed_readFrame (k := k) hm hf hr s.turns.tail f1 (f6.trans hl)
    rw [frameEnd_byteAt hx, hfeed]
    rw [framed_byteAt, consumes_byteAt, frameStart_byteAt hx]
    have h1 := hx.takes 3 1
    have h2 := hx.takes s.cfg.rdDummy 4
    have h3 := hx.takes k (4 + s.cfg.rdDummy)
    rcases h1 with h1 | h1
    · exact .inl h1
    rcases h2 with h2 | h2
    · exact .inl h2
    rcases h3 with h3 | h3
    · exact .inl h3
    refine .inr fun n hn => ?_
    simp only [← List.drop_one, List.drop_drop] at hn
    rcases List.mem_append.1 hn with hn | hn
    · rcases List.mem_append.1 hn with hn | hn
      · exact h1 n hn
      · exact h2 n (by simpa using hn)
    · refine h3 n ?_
      rw [show 1 + (3 + s.cfg.rdDummy) = 4 + s.cfg.rdDummy by omega] at hn
      exact hn

/-- A completed write frame stores its payload and leaves every other device byte the coprocessor
leaves alone (R72). -/
theorem writeFrame_stores {s t : State} {a : Word} {pay got : List Byte} (hw : s.cfg.wf)
    (hf : Framable s.cfg a) (hl : s.dev.lost = false) (hr : addrOf a + pay.length ≤ deviceSize)
    (h : FrameOk (preamble s.cfg .wr a ++ pay) got s t) : StoresAt s t (addrOf a) pay := by
  intro x hx
  simp only [devByte]
  rw [h.dev, h.same.cfg]
  obtain ⟨f1, f2, f4, f5, f6, f7⟩ := frameStart_fields s
  have hm : s.cfg.masksOk := hw.2.2.2.2.1
  have hpre := feed_preamble_wr hm hf s.turns.tail f1
  have hfeed : feed s.cfg (preamble s.cfg .wr a ++ pay) s.turns.tail (frameStart s) =
      feed s.cfg pay (s.turns.tail.drop 3)
        (framed .wrData (addrOf a) (frameStart s).latch
          (consumes s.cfg (takes 3 s.turns.tail) (frameStart s))) := by
    rw [feed_append, hpre, preamble_wr_length]
  obtain ⟨-, -, -, k5⟩ := feed_write s.cfg pay (s.turns.tail.drop 3)
    (framed .wrData (addrOf a) (frameStart s).latch
      (consumes s.cfg (takes 3 s.turns.tail) (frameStart s))) rfl (by simpa using f6.trans hl) hr
  have h3 := hx.takes 3 1
  rw [List.drop_one] at h3
  have k6 := k5 x (hx.imp id fun h u hu => h u (List.mem_of_mem_tail (List.mem_of_mem_drop hu)))
  rw [framed_byteAt, consumes_byteAt _ _ _ _ h3, frameStart_byteAt hx] at k6
  rw [frameEnd_byteAt hx, hfeed]
  exact k6

/-- A preamble alone, of either direction or none, changes no device byte (R71). -/
theorem Device.enterFrame_byteAt (p : Params) (w : Addr) (d : Device) (x : Nat) :
    (d.enterFrame p w).byteAt p x = d.byteAt p x := by
  simp only [Device.enterFrame]
  split
  · rfl
  · split <;> rfl

/-- A frame of three bytes stores nothing (R71). -/
theorem threeByteFrame_keeps {s t : State} {b0 b1 b2 : Byte} {got : List Byte}
    (h : FrameOk [b0, b1, b2] got s t) : KeepsDevice s t := by
  intro x hx
  have f := frameStart_fields s
  have hfeed := feed_preamble s.cfg ((b0 ++ b1) ++ b2) s.turns.tail (frameStart s) f.1
  rw [addrBytes_append] at hfeed
  have h3 := hx.takes 3 1
  rw [List.drop_one] at h3
  simp only [devByte]
  rw [h.dev, h.same.cfg, frameEnd_byteAt hx, hfeed,
    Device.enterFrame_byteAt, consumes_byteAt _ _ _ _ h3, frameStart_byteAt hx]

/-! What a read receives. -/

/-- Against the reference device a read frame receives the device's bytes at its address, where the
coprocessor leaves them alone (R72). -/
theorem readFrame_got {s : State} {a : Word} {k : Nat} (hw : s.cfg.wf) (hf : Framable s.cfg a)
    (hl : s.dev.lost = false) (hr : addrOf a + k ≤ deviceSize)
    (hs : ∀ j < k, Settled s (addrOf a + j))
    (hx : s.cfg.regReadAtomic = true → addrOf a ≠ s.cfg.regCmdRead.toNat) {got : List Byte}
    (hgot : ∀ (j : Nat) (v : Byte),
      (answers s.cfg (readFrameBytes s.cfg a k) s.turns.tail (frameStart s))[j]? = some (some v) →
        got[j]? = some v) :
    ∀ j < k, devByte s (addrOf a + j) = (got.drop (3 + s.cfg.rdDummy))[j]? := by
  intro j hj
  obtain ⟨f1, f2, f4, f5, f6, f7⟩ := frameStart_fields s
  have hm : s.cfg.masksOk := hw.2.2.2.2.1
  have hpre := feed_preamble_rd hm hf s.turns.tail f1
  generalize hns : takes 3 s.turns.tail ++ takes s.cfg.rdDummy (s.turns.tail.drop 3) = ns at hpre
  have hnl : ((consumes s.cfg (takes 3 s.turns.tail) (frameStart s)).latchFor s.cfg
      (deviceAddr a)) = [] := by
    unfold Device.latchFor
    rw [if_neg]
    simp only [Bool.and_eq_true, beq_iff_eq, not_and]
    exact fun h heq => hx h (congrArg BitVec.toNat heq)
  rw [hnl] at hpre
  generalize hdd : framed .rdData (addrOf a) [] (consumes s.cfg ns (frameStart s)) = dd at hpre
  have hb : dd.byteAt s.cfg (addrOf a + j) = devByte s (addrOf a + j) := by
    have ho := hs j hj
    rw [← hdd, framed_byteAt, ← hns, consumes_byteAt, frameStart_byteAt ho]
    have h1 := ho.takes 3 1
    have h2 := ho.takes s.cfg.rdDummy 4
    rcases h1 with h1 | h1
    · exact .inl h1
    rcases h2 with h2 | h2
    · exact .inl h2
    refine .inr fun n hn => ?_
    simp only [← List.drop_one, List.drop_drop] at hn
    rcases List.mem_append.1 hn with hn | hn
    · exact h1 n hn
    · exact h2 n (by simpa using hn)
  have hlost : dd.lost = false := by rw [← hdd]; simpa using f6.trans hl
  have hcur : dd.cur = addrOf a := by rw [← hdd]; rfl
  have hans := answers_read s.cfg (List.replicate k s.cfg.fill)
    (s.turns.tail.drop (3 + s.cfg.rdDummy)) dd
    ⟨by rw [← hdd]; rfl, hlost, by rw [hcur]; simpa using hr⟩ (by rw [← hdd]; rfl)
    (by
      rw [hcur]
      intro i hi
      exact (hs i (by simpa using hi)).imp id fun h u hu =>
        h u (List.mem_of_mem_tail (List.mem_of_mem_drop hu))) j (by simpa using hj)
  rw [hcur, hb] at hans
  have hidx : (answers s.cfg (readFrameBytes s.cfg a k) s.turns.tail (frameStart s))[
      3 + s.cfg.rdDummy + j]? = some (devByte s (addrOf a + j)) := by
    unfold readFrameBytes
    rw [answers_append, hpre, preamble_rd_length, List.getElem?_append_right (by simp)]
    simpa using hans
  cases hv : devByte s (addrOf a + j) with
  | none =>
    exfalso
    have : s.dev.byteAt s.cfg (addrOf a + j) = none := hv
    unfold Device.byteAt at this
    rw [hl] at this
    simp only [Bool.false_eq_true, if_false] at this
    split at this
    · cases this
    · split at this <;> cases this
  | some v =>
    rw [hv] at hidx
    rw [List.getElem?_drop, hgot _ v hidx]

/-! The pointer registers. -/

@[simp] theorem addrOf_register (r : Addr) : addrOf (r.setWidth 32) = r.toNat := by
  simp [addrOf]

theorem xferBytes_le (p : Params) : xferBytes p ≤ 4 := by
  unfold xferBytes; split <;> omega

theorem pollTrace_one (p : Params) (got : List Byte) :
    pollTrace p [got] =
      .sel true :: exchanges (readFrameBytes p (readPtrAddr p) (xferBytes p)) got ++
        [.sel false] := by
  simp [pollTrace, readFrameBytes_eq, readPtrAddr]

theorem readPtrValue_eq (p : Params) (got : List Byte) : readPtrValue p got = pollValue p got := by
  simp [readPtrValue, readValue, pollValue]

/-- A pointer that fits the access is read whole (00_scope.md R7). -/
theorem leValue_payload_xfer {p : Params} {v : Word} (h : v.toNat < 2 ^ p.ptrXfer.bits) :
    leValue (payload v (xferBytes p)) = v := by
  unfold xferBytes
  cases hx : p.ptrXfer with
  | w8 =>
    rw [hx] at h
    simp only [Width.bits] at h
    simp only
    rw [leValue_payload_one]
    apply BitVec.eq_of_toNat_eq
    simp only [BitVec.toNat_setWidth]
    omega
  | w16 =>
    rw [hx] at h
    simp only [Width.bits] at h
    simp only
    rw [leValue_payload_two]
    apply BitVec.eq_of_toNat_eq
    simp only [BitVec.toNat_setWidth]
    omega
  | w32 => exact leValue_payload_four v

/-- The four bytes of a word determine it. -/
theorem word_ext {v w : Word} (h : ∀ i < 4, byteOf v i = byteOf w i) : v = w := by
  rw [← leValue_payload_four v, ← leValue_payload_four w]
  congr 1
  exact List.map_congr_left fun i hi => h i (List.mem_range.1 hi)

/-- Under `REG_READ_ATOMIC` the bytes received from the read-pointer register are those of the value
`RP` had at the third preamble byte (R73). -/
theorem readPtr_got {s : State} (hw : s.cfg.wf) (hra : s.cfg.regReadAtomic = true)
    (hf : Framable s.cfg (readPtrAddr s.cfg)) (hl : s.dev.lost = false) {k : Nat} (hk : k ≤ 4)
    {got : List Byte} (hlen : got.length = 3 + s.cfg.rdDummy + k)
    (hgot : ∀ (j : Nat) (v : Byte),
      (answers s.cfg (readFrameBytes s.cfg (readPtrAddr s.cfg) k) s.turns.tail
        (frameStart s))[j]? = some (some v) → got[j]? = some v) :
    got.drop (3 + s.cfg.rdDummy) =
      payload (consumes s.cfg (takes 3 s.turns.tail) (frameStart s)).rp k := by
  have f := frameStart_fields s
  have hm : s.cfg.masksOk := hw.2.2.2.2.1
  have hpre := feed_preamble_rd hm hf s.turns.tail f.1
  generalize hv : (consumes s.cfg (takes 3 s.turns.tail) (frameStart s)).rp = v
  have hlat : (consumes s.cfg (takes 3 s.turns.tail) (frameStart s)).latchFor s.cfg
      (deviceAddr (readPtrAddr s.cfg)) = payload v 4 := by
    have : deviceAddr (readPtrAddr s.cfg) = s.cfg.regCmdRead := by
      simp [deviceAddr, readPtrAddr]
    simp [Device.latchFor, hra, this, hv]
  rw [hlat] at hpre
  generalize hdd : framed .rdData (addrOf (readPtrAddr s.cfg)) (payload v 4)
    (consumes s.cfg (takes 3 s.turns.tail ++ takes s.cfg.rdDummy (s.turns.tail.drop 3))
      (frameStart s)) = dd at hpre
  have hroom : addrOf (readPtrAddr s.cfg) + k ≤ deviceSize := by
    rw [show addrOf (readPtrAddr s.cfg) = _ from addrOf_register _]
    have := hw.2.2.1.2
    omega
  have hdl : dd.latch = payload v 4 := by rw [← hdd]; rfl
  have hans := answers_latch s.cfg (List.replicate k s.cfg.fill)
    (s.turns.tail.drop (3 + s.cfg.rdDummy)) dd
    ⟨by rw [← hdd]; rfl, by rw [← hdd]; simpa using f.2.2.2.2.1.trans hl,
      by rw [← hdd]; simpa using hroom⟩ (by rw [hdl]; simpa using hk)
  rw [hdl] at hans
  apply List.ext_getElem?
  intro j
  by_cases hj : j < k
  · rw [List.getElem?_drop, payload_getElem? _ hj]
    apply hgot
    unfold readFrameBytes
    rw [answers_append, hpre, preamble_rd_length, List.getElem?_append_right (by simp), hans]
    have h4 : j < 4 := by omega
    have := payload_getElem? v h4
    simp [hj, this]
  · rw [List.getElem?_eq_none (by simp [hlen]; omega), List.getElem?_eq_none (by simp; omega)]

end Sys2Proof.Machine
end

