-- ==== Sys2Proof/Laws/PerInstr.lean ====
section
/-! SUPPORT. One lemma per constructor: the encoding of an operation holds its code and its operands
in the fields of 30_encoding.md R90, zero in the fields it does not use (R107). -/

namespace Sys2Proof.Laws.EncodedOpcode

/-- The three fields of the encoding. -/
def Statement (i : Instr) : Prop :=
  opField (encode i) = opcode i ∧ aField (encode i) = operandA i ∧ dField (encode i) = operandD i

theorem of_requestWord (i : Instr) : Statement i :=
  ⟨opField_requestWord _ _ _, aField_requestWord _ _ _, dField_requestWord _ _ _⟩

theorem rd8 (x : Word) : Statement (.rd8 x) := of_requestWord _
theorem rd16 (x : Word) : Statement (.rd16 x) := of_requestWord _
theorem rd32 (x : Word) : Statement (.rd32 x) := of_requestWord _
theorem wr8 (x y : Word) : Statement (.wr8 x y) := of_requestWord _
theorem wr16 (x y : Word) : Statement (.wr16 x y) := of_requestWord _
theorem wr32 (x y : Word) : Statement (.wr32 x y) := of_requestWord _
theorem openrd (x : Word) : Statement (.openrd x) := of_requestWord _
theorem openwr (x : Word) : Statement (.openwr x) := of_requestWord _
theorem close : Statement .close := of_requestWord _
theorem srd8 : Statement .srd8 := of_requestWord _
theorem srd16 : Statement .srd16 := of_requestWord _
theorem srd32 : Statement .srd32 := of_requestWord _
theorem srdblk (x : Word) : Statement (.srdblk x) := of_requestWord _
theorem swr8 (x : Word) : Statement (.swr8 x) := of_requestWord _
theorem swr16 (x : Word) : Statement (.swr16 x) := of_requestWord _
theorem swr32 (x : Word) : Statement (.swr32 x) := of_requestWord _
theorem swrblk (x : Word) : Statement (.swrblk x) := of_requestWord _
theorem hostcmd (x y : Word) : Statement (.hostcmd x y) := of_requestWord _
theorem free : Statement .free := of_requestWord _
theorem advance (x : Word) : Statement (.advance x) := of_requestWord _
theorem curptr : Statement .curptr := of_requestWord _
theorem commit : Statement .commit := of_requestWord _
theorem waitdrain (x : Word) : Statement (.waitdrain x) := of_requestWord _
theorem rinit : Statement .rinit := of_requestWord _
theorem invalidWidth13 : Statement .invalidWidth13 := of_requestWord _
theorem invalidWidth23 : Statement .invalidWidth23 := of_requestWord _
theorem invalidWidth43 : Statement .invalidWidth43 := of_requestWord _
theorem invalidWidth53 : Statement .invalidWidth53 := of_requestWord _

end Sys2Proof.Laws.EncodedOpcode
end

