-- ==== Sys2Proof/Laws/Width.lean ====
section
/-! SUPPORT. The width `PTRW` of the data registers (00_scope.md R5): it holds every value below `C`,
so a state whose registers are in range has them within their width. -/

namespace Sys2Proof.Machine

theorem le_two_pow_ptrw (p : Params) : p.c ≤ 2 ^ p.ptrw := by
  unfold Params.ptrw
  split
  · omega
  · have := Nat.lt_log2_self (n := p.c - 1)
    omega

theorem FitsWidth.of_block {s : State} (h : BlockInv s) : FitsWidth s := by
  have hc := le_two_pow_ptrw s.cfg
  exact ⟨h.w_lt.trans_le hc, h.cw_lt.trans_le hc, by have := h.lf_le; omega⟩

/-- The machine's invariant from its parts: the widths follow from the ranges. -/
theorem Inv.of_block {s : State} (hw : s.cfg.wf) (hb : BlockInv s)
    (hl : lineLevel s.trace = some s.sel) (hm : s.dev.mem.wf) : Inv s :=
  ⟨hw, hb, .of_block hb, hl, hm⟩

end Sys2Proof.Machine
end

