-- ==== Sys2Proof/Tests/Slice0.lean ====
section
/-! SUPPORT. The model's own tests. Every expected value is the spec's: 95_test_vectors.md and
96_test_vectors_faults.md, or the rule named, worked by hand. At the end, a witness for the
hypotheses of each obligation that has some. -/

namespace Sys2Proof.Tests

open Sys2Proof.Machine

/-! Helpers. -/

/-- The response an outcome leaves. -/
def rsp : Out → Option Response
  | .next s => s.rsp
  | .fault _ => none
  | .refused _ => none

/-- Some view of the next state, where there is one. -/
def view {α : Type} (f : State → α) : Out → Option α
  | .next s => some (f s)
  | .fault _ => none
  | .refused _ => none

/-- What the block put on the bus: `none` for `S1` and `S0`, the byte sent for an exchange. -/
def sent (s : State) : List (Option Byte) :=
  s.trace.map fun e => match e with
    | .sel _ => none
    | .xchg b _ => some b

/-- `W`, `CW`, `LF`. -/
def ring (s : State) : Nat × Nat × Nat := (s.w, s.cw, s.lf)

/-- `F`, `FC`, `FI`. -/
def faulted (s : State) : Bool × Byte × Word := (s.f, s.fc, s.fi)

/-- `SEL`, `SCOPE`. -/
def line (s : State) : Bool × Scope := (s.sel, s.scope)

/-- The reset state beside a device whose memory holds `m`. -/
def withMem (m : Memory) : State :=
  { State.reset with dev := { State.reset.dev with mem := m } }

/-- The preset of V6. -/
def v6 : State := withMem [(0x302000, 0x7C), (0x302001, 0), (0x302002, 0), (0x302003, 0),
  (0x345678, 0x11), (0x345679, 0x22), (0x34567A, 0x33), (0x34567B, 0x44)]

/-- The preset of V7, from its address on. -/
def v7 : Memory := [(0x100, 0x11), (0x101, 0x22), (0x102, 0x33), (0x103, 0x55), (0x104, 0x66),
  (0x105, 0x77), (0x106, 0x88)]

/-- A read scope whose device stands at `cur` of V7's memory. -/
def reading (cur : Nat) : State :=
  { State.reset with
    scope := .rdOpen, sel := true, trace := [.sel true]
    dev := { State.reset.dev with mem := v7, phase := .rdData, cur := cur } }

/-- A write scope whose device stands at `0x200`. -/
def writing : State :=
  { State.reset with
    scope := .wrOpen, sel := true, trace := [.sel true]
    dev := { State.reset.dev with phase := .wrData, cur := 0x200 } }

/-- A block with the given `W`, `CW`, `LF` beside a device with the given `RP` and `WP`. -/
def at' (w cw lf : Nat) (rp wp : Word) : State :=
  { State.reset with w := w, cw := cw, lf := lf, dev := { State.reset.dev with rp := rp, wp := wp } }

/-- The faulted state that V8.20 leaves. -/
def broken : State := { State.reset with f := true, fc := 0x82, fi := 1 }

/-- A healthy turn. -/
def fine : Turn := ⟨0, .reply⟩

/-- `n` healthy turns, then one exchange that fails with the code of V9. -/
def failAt (n : Nat) : List Turn := List.replicate n fine ++ [⟨0, .fail 0xE0000005 true⟩]

/-- The next state where an outcome has one, the state given where it has none. -/
def next (o : Out) (s : State) : State :=
  match o with
  | .next t => t
  | .fault _ => s
  | .refused _ => s

/-! WellFormed: an ill-formed term for each check, which the check refuses. -/

theorem test_reference_instances_wf : Params.reference.wf ∧ Params.small.wf := by decide

theorem test_ring_size_refused :
    ¬ { Params.reference with c := 5 }.ringSizeOk ∧ ¬ { Params.reference with c := 5 }.wf ∧
    ¬ { Params.reference with c := 2 ^ 24 + 1 }.ringSizeOk := by decide

theorem test_ring_past_space_refused :
    ¬ { Params.reference with ramCmdBase := 0xFFF001 }.ringFits ∧
    { Params.reference with ramCmdBase := 0xFFF000 }.ringFits := by decide

theorem test_register_past_space_refused :
    ¬ { Params.reference with regCmdRead := 0xFFFFFD }.regsFit ∧
    ¬ { Params.reference with regCmdWrite := 0xFFFFFD }.regsFit := by decide

theorem test_overlapping_registers_refused :
    ¬ { Params.reference with regCmdRead := 0x3020FD }.regsDisjoint ∧
    ¬ { Params.reference with regCmdWrite := 0x308FFF }.regsDisjoint ∧
    ¬ { Params.reference with regCmdRead := 0x307FFD }.regsDisjoint := by decide

theorem test_bad_masks_refused :
    ¬ { Params.reference with rdMask := 0x800000 }.masksOk ∧
    ¬ { Params.reference with dirField := 0x400000 }.masksOk := by decide

theorem test_narrow_pointer_refused :
    ¬ { Params.reference with ptrXfer := .w8 }.xferWide ∧
    { Params.reference with ptrXfer := .w16 }.xferWide := by decide

theorem test_broken_contract_refused :
    ¬ Request.wf ⟨0x540000000000000003, [1, 2]⟩ ∧ ¬ Request.wf ⟨0x100000000000000000, [1]⟩ ∧
    Request.wf ⟨0x540000000000000003, [1, 2, 3]⟩ ∧ Request.wf ⟨0x100000000000000000, []⟩ := by
  decide

/-! Decode: each constructor from a word written out from 30_encoding.md R90, R96, R98, the
unused fields filled with ones. -/

theorem test_decode_reads :
    decode 0x1000302000FFFFFFFF = .instr (.rd8 0x302000) ∧
    decode 0x1112345678FFFFFFFF = .instr (.rd16 0x12345678) ∧
    decode 0x12FF302000DEADBEEF = .instr (.rd32 0xFF302000) := by decide

theorem test_decode_writes :
    decode 0x2000001000AABBCCDD = .instr (.wr8 0x00001000 0xAABBCCDD) ∧
    decode 0x2100001000AABBCCDD = .instr (.wr16 0x00001000 0xAABBCCDD) ∧
    decode 0x22003FFFFC01020304 = .instr (.wr32 0x003FFFFC 0x01020304) := by decide

theorem test_decode_scopes :
    decode 0x3000000100FFFFFFFF = .instr (.openrd 0x100) ∧
    decode 0x3100000200FFFFFFFF = .instr (.openwr 0x200) ∧
    decode 0x32FFFFFFFFFFFFFFFF = .instr .close := by decide

theorem test_decode_stream_reads :
    decode 0x40FFFFFFFFFFFFFFFF = .instr .srd8 ∧ decode 0x41FFFFFFFFFFFFFFFF = .instr .srd16 ∧
    decode 0x42FFFFFFFFFFFFFFFF = .instr .srd32 ∧
    decode 0x44FFFFFFFF00000003 = .instr (.srdblk 3) := by decide

theorem test_decode_stream_writes :
    decode 0x50FFFFFFFF1234AB11 = .instr (.swr8 0x1234AB11) ∧
    decode 0x51FFFFFFFF99993322 = .instr (.swr16 0x99993322) ∧
    decode 0x52FFFFFFFF88776655 = .instr (.swr32 0x88776655) ∧
    decode 0x540000000000000003 = .instr (.swrblk 3) := by decide

theorem test_decode_hostcmd :
    decode 0x60FFFFFF6212345615 = .instr (.hostcmd 0xFFFFFF62 0x12345615) := by decide

theorem test_decode_ring :
    decode 0x80FFFFFFFFFFFFFFFF = .instr .free ∧ decode 0x815555555500000005 = .instr (.advance 5) ∧
    decode 0x82FFFFFFFFFFFFFFFF = .instr .curptr ∧ decode 0x83FFFFFFFFFFFFFFFF = .instr .commit ∧
    decode 0x8400000000FFFFFFFF = .instr (.waitdrain 0xFFFFFFFF) ∧
    decode 0x85FFFFFFFFFFFFFFFF = .instr .rinit := by decide

theorem test_decode_invalid_widths :
    decode 0x13FFFFFFFFFFFFFFFF = .instr .invalidWidth13 ∧
    decode 0x230000000000000000 = .instr .invalidWidth23 ∧
    decode 0x430000000000000000 = .instr .invalidWidth43 ∧
    decode 0x530000000000000000 = .instr .invalidWidth53 := by decide

theorem test_decode_reserved :
    decode 0x000000000000000000 = .reserved 0x00 ∧ decode 0xFFFFFFFFFFFFFFFFFF = .reserved 0xFF ∧
    decode 0x140000000000000000 = .reserved 0x14 ∧ decode 0x330000000000000000 = .reserved 0x33 ∧
    decode 0x450000000000000000 = .reserved 0x45 ∧ decode 0x550000000000000000 = .reserved 0x55 ∧
    decode 0x610000000000000000 = .reserved 0x61 ∧ decode 0x700000000000000000 = .reserved 0x70 ∧
    decode 0x860000000000000000 = .reserved 0x86 ∧ decode 0x900000000000000000 = .reserved 0x90 := by
  decide

theorem test_decodeTableWord :
    decodeTableWord 72 0x815555555500000005 = some (.advance 5) ∧
    decodeTableWord 72 0x860000000000000000 = none := by decide

/-! One step per operation. -/

theorem test_rd8 : rsp (exec (.rd8 0xFF302000) v6) = some ⟨0x00, 0x7C, []⟩ ∧
    view sent (exec (.rd8 0xFF302000) v6) =
      some [none, some 0x30, some 0x20, some 0x00, some 0x00, some 0x00, none] := by decide

theorem test_rd16 : rsp (exec (.rd16 0x345679) v6) = some ⟨0x00, 0x3322, []⟩ ∧
    view sent (exec (.rd16 0x345679) v6) =
      some [none, some 0x34, some 0x56, some 0x79, some 0x00, some 0x00, some 0x00, none] := by
  decide

theorem test_rd32 : rsp (exec (.rd32 0x12345678) v6) = some ⟨0x00, 0x44332211, []⟩ := by decide

theorem test_rd32_failure : rsp (exec (.rd32 0x345678) { v6 with turns := failAt 7 }) =
      some ⟨0x02, 0xE0000005, []⟩ ∧
    view sent (exec (.rd32 0x345678) { v6 with turns := failAt 7 }) =
      some [none, some 0x34, some 0x56, some 0x78, some 0x00, some 0x00, some 0x00, some 0x00,
        none] := by decide

theorem test_wr8 : view sent (exec (.wr8 0x1000 0xAABBCCDD) v6) =
      some [none, some 0x80, some 0x10, some 0x00, some 0xDD, none] ∧
    view (fun t => t.dev.mem.read 0x1000) (exec (.wr8 0x1000 0xAABBCCDD) v6) =
      some (some 0xDD) := by decide

theorem test_wr16 : view sent (exec (.wr16 0x1000 0xAABBCCDD) v6) =
      some [none, some 0x80, some 0x10, some 0x00, some 0xDD, some 0xCC, none] ∧
    view (fun t => t.dev.mem.read 0x1001) (exec (.wr16 0x1000 0xAABBCCDD) v6) =
      some (some 0xCC) := by decide

theorem test_wr32 : rsp (exec (.wr32 0x12345678 1) v6) = some ⟨0x00, 0, []⟩ ∧
    view sent (exec (.wr32 0x12345678 1) v6) =
      some [none, some 0xB4, some 0x56, some 0x78, some 0x01, some 0x00, some 0x00, some 0x00,
        none] := by decide

/-- The aliasing case of V6: the preamble of `RD8 0x900000` decodes at the device as a write. -/
theorem test_rd8_direction_alias :
    view (fun t => (t.dev.mem.read 0x100000, t.dev.mem.read 0x100001))
      (exec (.rd8 0x900000) State.reset) = some (some 0x00, some 0x00) := by decide

theorem test_openrd : rsp (exec (.openrd 0x100) v6) = some ⟨0x00, 0, []⟩ ∧
    view (fun t => (sent t, t.scope, t.sel)) (exec (.openrd 0x100) v6) =
      some ([none, some 0x00, some 0x01, some 0x00, some 0x00], .rdOpen, true) := by decide

theorem test_openwr : view (fun t => (sent t, t.scope, t.sel)) (exec (.openwr 0x200) v6) =
      some ([none, some 0x80, some 0x02, some 0x00], .wrOpen, true) ∧
    rsp (exec (.openwr 0x300) writing) = some ⟨0x83, 1, []⟩ := by decide

theorem test_close : view (fun t => (t.trace, t.scope, t.sel)) (exec .close writing) =
      some ([.sel true, .sel false], .idle, false) ∧
    rsp (exec .close State.reset) = some ⟨0x83, 0, []⟩ := by decide

theorem test_srd8 : rsp (exec .srd8 (reading 0x100)) = some ⟨0x00, 0x11, []⟩ ∧
    view (fun t => (t.trace, t.scope)) (exec .srd8 (reading 0x100)) =
      some ([.sel true, .xchg 0x00 (.ok 0x11)], .rdOpen) := by decide

theorem test_srd16 : rsp (exec .srd16 (reading 0x101)) = some ⟨0x00, 0x3322, []⟩ := by decide

theorem test_srd32 : rsp (exec .srd32 (reading 0x103)) = some ⟨0x00, 0x88776655, []⟩ := by decide

theorem test_srdblk : rsp (exec (.srdblk 3) (reading 0x100)) =
      some ⟨0x00, 3, [0x11, 0x22, 0x33]⟩ ∧
    rsp (exec (.srdblk 0) (reading 0x100)) = some ⟨0x00, 0, []⟩ := by decide

theorem test_srdblk_failure : rsp (exec (.srdblk 3) { reading 0x101 with turns := failAt 1 }) =
      some ⟨0x02, 0xE0000005, [0x22]⟩ ∧
    view (fun t => (t.scope, t.sel)) (exec (.srdblk 3) { reading 0x101 with turns := failAt 1 }) =
      some (.rdOpen, true) := by decide

theorem test_swr8 : view (fun t => (sent t, t.dev.mem)) (exec (.swr8 0x1234AB11) writing) =
      some ([none, some 0x11], [(0x200, 0x11)]) ∧
    rsp (exec (.swr8 0x11) (reading 0x100)) = some ⟨0x83, 2, []⟩ := by decide

theorem test_swr16 : view (fun t => (sent t, t.dev.mem)) (exec (.swr16 0x99993322) writing) =
    some ([none, some 0x22, some 0x33], [(0x200, 0x22), (0x201, 0x33)]) := by decide

theorem test_swr32 : view sent (exec (.swr32 0x88776655) writing) =
      some [none, some 0x55, some 0x66, some 0x77, some 0x88] ∧
    rsp (exec (.swr32 0x88776655) writing) = some ⟨0x00, 0, []⟩ := by decide

theorem test_swrblk :
    view (fun t => (sent t, t.dev.mem)) (exec (.swrblk 3) { writing with wdata := [0x99, 0xAA, 0xBB] })
      = some ([none, some 0x99, some 0xAA, some 0xBB],
        [(0x200, 0x99), (0x201, 0xAA), (0x202, 0xBB)]) ∧
    rsp (exec (.swrblk 0) writing) = some ⟨0x00, 0, []⟩ := by decide

theorem test_swrblk_failure :
    rsp (exec (.swrblk 4) { writing with wdata := [0xA1, 0xA2, 0xA3, 0xA4], turns := failAt 2 }) =
      some ⟨0x02, 0xE0000005, []⟩ ∧
    view (fun t => (sent t, t.scope, t.sel))
        (exec (.swrblk 4) { writing with wdata := [0xA1, 0xA2, 0xA3, 0xA4], turns := failAt 2 }) =
      some ([none, some 0xA1, some 0xA2, some 0xA3], .wrOpen, true) := by decide

theorem test_hostcmd : rsp (exec (.hostcmd 0xFFFFFF62 0x12345615) State.reset) =
      some ⟨0x00, 0, []⟩ ∧
    view sent (exec (.hostcmd 0xFFFFFF62 0x12345615) State.reset) =
      some [none, some 0x62, some 0x15, some 0x00, none] := by decide

theorem test_free : rsp (exec .free (at' 3 3 0 4094 4094)) = some ⟨0x00, 4086, []⟩ ∧
    view ring (exec .free (at' 3 3 0 4094 4094)) = some (3, 3, 4086) := by decide

theorem test_free_corners : rsp (exec .free (at' 4092 0 9 0 0)) = some ⟨0x00, 0, []⟩ ∧
    rsp (exec .free (at' 0 0 0 0xFFFFFFFF 0)) = some ⟨0x00, 4090, []⟩ := by decide

theorem test_advance : rsp (exec (.advance 5) (at' 4094 0 97 0 0)) = some ⟨0x00, 0, []⟩ ∧
    view ring (exec (.advance 5) (at' 4094 0 97 0 0)) = some (3, 0, 92) := by decide

theorem test_advance_overrun : rsp (exec (.advance 51) (at' 100 0 50 0 0)) = some ⟨0x82, 51, []⟩ ∧
    view ring (exec (.advance 51) (at' 100 0 50 0 0)) = some (100, 0, 50) ∧
    view faulted (exec (.advance 51) (at' 100 0 50 0 0)) = some (true, 0x82, 51) := by decide

theorem test_curptr : rsp (exec .curptr { writing with w := 4090 }) = some ⟨0x00, 0xFFA, []⟩ := by
  decide

theorem test_commit : view sent (exec .commit (at' 4095 7 0 0 0)) =
      some [none, some 0xB0, some 0x20, some 0xFC, some 0xFF, some 0x0F, some 0x00, some 0x00,
        none] ∧
    view (fun t => (ring t, t.dev.wp)) (exec .commit (at' 4095 7 0 0 0)) =
      some ((4095, 4095, 0), 4095) := by decide

/-- U9: the failure of the last payload byte, not delivered, leaves the old write pointer. -/
theorem test_commit_failure :
    view (fun t => (t.dev.wp, t.cw, t.rsp))
      (exec .commit { at' 291 256 0 256 256 with
        turns := List.replicate 7 fine ++ [⟨0, .fail 0xE0000005 false⟩] }) =
      some (256, 256, some ⟨0x02, 0xE0000005, []⟩) := by decide

/-- V5.4: the coprocessor consumes between the polls, and the last allowed poll matches. -/
theorem test_waitdrain : rsp (exec (.waitdrain 1) { at' 100 100 0 0 100 with
      turns := List.replicate 10 fine ++ [⟨100, .reply⟩] }) = some ⟨0x00, 1, []⟩ := by decide +kernel

theorem test_waitdrain_timeout : rsp (exec (.waitdrain 2) (at' 100 100 0 0x1064 100)) =
      some ⟨0x01, 0x1064, []⟩ ∧
    rsp (exec (.waitdrain 0) (at' 100 100 0 100 100)) = some ⟨0x00, 0, []⟩ := by decide +kernel

theorem test_rinit : view (fun t => (ring t, t.scope)) (exec .rinit { writing with w := 9, cw := 8, lf := 7 })
    = some ((0, 0, 0), .wrOpen) := by decide

theorem test_invalidWidth13 : rsp (exec .invalidWidth13 State.reset) = some ⟨0x81, 0x13, []⟩ := by
  decide

theorem test_invalidWidth23 : rsp (exec .invalidWidth23 State.reset) = some ⟨0x81, 0x23, []⟩ := by
  decide

/-- V8.4: the width check precedes the scope check, and the fault releases the line. -/
theorem test_invalidWidth43 : rsp (exec .invalidWidth43 writing) = some ⟨0x81, 0x43, []⟩ ∧
    view State.trace (exec .invalidWidth43 writing) = some [.sel true, .sel false] ∧
    view line (exec .invalidWidth43 writing) = some (false, .idle) := by decide

theorem test_invalidWidth53 : rsp (exec .invalidWidth53 broken) = some ⟨0x80, 0x82, []⟩ := by decide

/-! Around an operation. -/

theorem test_reserved : rsp (step (State.reset.withFetchWord 72 0xFFFFFFFFFFFFFFFFFF)) =
    some ⟨0x84, 0xFF, []⟩ := by decide

theorem test_withFetchWord : rsp (step (State.reset.withFetchWord 72 0x800000000000000000)) =
      some ⟨0x00, 4091, []⟩ ∧
    view (fun t => t.inputs) (step (State.reset.withFetchWord 72 0x800000000000000000)) = some [] :=
  by decide

/-- V10: reset with a write scope open. -/
theorem test_reset_input :
    view State.trace (step { writing with w := 16, cw := 8, lf := 20, inputs := [.rst] }) =
      some [.sel true, .sel false] ∧
    view ring (step { writing with w := 16, cw := 8, lf := 20, inputs := [.rst] }) =
      some (0, 0, 0) ∧
    view line (step { writing with w := 16, cw := 8, lf := 20, inputs := [.rst] }) =
      some (false, .idle) := by decide

/-- R212: reset over an open frame that has stored one byte of `WP` leaves the register as it is. -/
theorem test_reset_leaves_write_pointer :
    view (fun t => t.dev.wp) (step { writing with
      dev := { writing.dev with wp := 0x111, wpOld := some 0x100, wpMask := 1 }
      inputs := [.rst] }) = some 0x111 := by decide

/-- The width of the pointers (00_scope.md R5) for rings of 4096, 8 and 10 bytes. -/
theorem test_ptrw : Params.reference.ptrw = 12 ∧ Params.small.ptrw = 3 ∧
    { Params.reference with c := 10 }.ptrw = 4 := by decide

/-- `RSP` packs status above value (30_encoding.md R93). -/
theorem test_responseWord : responseWord ⟨0x83, 0x12, []⟩ = 0x8300000012 := by decide

/-- V2's table at `W = 5`, and the ring of ten bytes. -/
theorem test_freeSpace :
    (List.range 8).map (fun r => freeSpace Params.small r 5) = [0, 1, 2, 3, 4, 5, 0, 0] ∧
    freeSpace { Params.reference with c := 10 } 13 7 = 1 := by decide

/-- P2: ten bytes at `W = 4090` split after six (70_reset_and_hazards.md R219). -/
theorem test_enqueue_splits :
    (enqueue Params.reference 4090 (List.replicate 10 0xE0)).map (fun r => (r.req, r.wdata.length)) =
      [(0x3100308FFA00000000, 0), (0x540000000000000006, 6), (0x320000000000000000, 0),
        (0x310030800000000000, 0), (0x540000000000000004, 4), (0x320000000000000000, 0),
        (0x81000000000000000A, 0)] := by decide

/-! Witnesses: for each obligation with hypotheses, a state and operands that meet all of them. -/

theorem view_eq_some {α : Type} {f : State → α} {o : Out} {a : α} (h : view f o = some a) :
    ∃ t, o = .next t ∧ f t = a := by
  cases o with
  | next t => exact ⟨t, rfl, Option.some.inj h⟩
  | fault e => cases h
  | refused e => cases h

/-- The reset state with one input presented. -/
def given (x : Input) : State := { State.reset with inputs := [x] }

/-- A FREE request. -/
def askFree : Request := ⟨0x800000000000000000, []⟩

/-- The addresses at the edges of what `Framable` and `PlainRun` allow. -/
def lowEdge : Word := 0x3020F4
def highEdge : Word := 0x3FFFFC

/-- A turn at which the coprocessor consumes four bytes. -/
def busy : State := { at' 4 4 0 0 4 with turns := [⟨4, .reply⟩, ⟨0, .replyWith 0x5A⟩] }

theorem witness_StepRunsDecodedRequest :
    (given (.request askFree)).inputs = .request askFree :: [] ∧
    decode askFree.req = .instr .free := by decide

theorem witness_ReservedCodeRaisesFault :
    decode 0xFF0000000000000000 = .reserved 0xFF ∧ decode 0 = .reserved 0x00 ∧
    State.reset.f = false ∧
    (given (.request ⟨0xFF0000000000000000, []⟩)).inputs =
      .request ⟨0xFF0000000000000000, []⟩ :: [] := by decide

theorem witness_FaultedAnswersEveryRequest : broken.f = true := by decide

theorem witness_OnlyResetLeavesFaulted :
    ∃ t, step { broken with inputs := [.rst] } = .next t ∧ t.f = false :=
  view_eq_some (f := State.f) (by decide)

theorem witness_InvalidWidthFaults : State.reset.f = false ∧ broken.f = true := by decide

theorem witness_WrongScopeFaults :
    writing.f = false ∧ scopeAllows (.rd8 0) writing.scope = false ∧
    scopeAllows .srd8 writing.scope = false ∧ scopeAllows .close State.reset.scope = false ∧
    (reading 0).f = false ∧ scopeAllows (.swr8 0) (reading 0).scope = false := by decide

theorem witness_AdvanceRule :
    broken.f = true ∧ (at' 0 0 91 0 0).f = false ∧ (91 : Word).toNat ≤ (at' 0 0 91 0 0).lf ∧
    (at' 0 0 91 0 0).lf < (92 : Word).toNat := by decide

theorem witness_CurptrReturnsLocalPointer : State.reset.f = false ∧ broken.f = true := by decide

theorem witness_RinitZeroesRingRegisters : (at' 1 2 3 0 0).f = false ∧ broken.f = true := by decide

theorem witness_FreeReportsSpace : busy.cfg.wf ∧ busy.f = false ∧ busy.scope = .idle ∧
    Calm (5 + busy.cfg.rdDummy + xferBytes busy.cfg) busy ∧
    Framable busy.cfg (busy.cfg.regCmdRead.setWidth 32) := by decide

theorem witness_FreeMeasuresFromReadPointer :
    (at' 3 3 0 4095 4094).cfg.wf ∧ (at' 3 3 0 4095 4094).f = false ∧
    (at' 3 3 0 4095 4094).scope = .idle ∧ (at' 3 3 0 4095 4094).turns = [] ∧
    (at' 3 3 0 4095 4094).dev.lost = false ∧
    Framable Params.reference (Params.reference.regCmdRead.setWidth 32) ∧
    (at' 3 3 0 4095 4094).dev.rp.toNat < (at' 3 3 0 4095 4094).cfg.c := by decide

theorem witness_CapacityIsRingLessMargin : Params.small.wf ∧ 7 < Params.small.c := by decide

theorem witness_CommitPublishesLocalPointer : busy.cfg.wf ∧ busy.f = false ∧
    busy.scope = .idle ∧ Calm (5 + xferBytes busy.cfg) busy ∧ busy.dev.lost = false ∧
    Framable busy.cfg (busy.cfg.regCmdWrite.setWidth 32) := by decide

theorem witness_CommitSetsDeviceWritePointer : busy.cfg.wf ∧ busy.cfg.ptrXfer = .w32 ∧
    busy.f = false ∧ busy.scope = .idle ∧ Calm 9 busy ∧ busy.dev.lost = false ∧
    Framable busy.cfg (busy.cfg.regCmdWrite.setWidth 32) := by decide

theorem witness_WaitdrainPollsUpToBound : busy.cfg.wf ∧ busy.f = false ∧ busy.scope = .idle ∧
    Calm (((0 : Word).toNat + 1) * (5 + busy.cfg.rdDummy + xferBytes busy.cfg)) busy ∧
    Calm (((3 : Word).toNat + 1) * (5 + busy.cfg.rdDummy + xferBytes busy.cfg)) busy := by decide

theorem witness_WaitdrainTimesOutOnStuckReader :
    (at' 4 4 0 0 4).cfg.wf ∧ (at' 4 4 0 0 4).cfg.ptrXfer = .w32 ∧ (at' 4 4 0 0 4).f = false ∧
    (at' 4 4 0 0 4).scope = .idle ∧ (at' 4 4 0 0 4).turns = [] ∧
    (at' 4 4 0 0 4).dev.lost = false ∧
    Framable Params.reference (Params.reference.regCmdRead.setWidth 32) ∧
    (at' 4 4 0 0 4).dev.rp ≠ BitVec.ofNat 32 (at' 4 4 0 0 4).cw := by decide

/-- A coupled state with bytes staged, bytes unread and some budget, the coprocessor stepping. -/
def coupled : State := { at' 8 4 3 0 4 with turns := [⟨1, .reply⟩, ⟨3, .reply⟩] }

theorem coupled_holds : Coupled coupled ∧ NoOverrun coupled :=
  ⟨⟨by decide, by decide, by decide, by decide, by decide, by decide, by decide⟩, by decide⟩

theorem witness_RingOperationsNeverOverrun :
    (∀ i ∈ [Instr.free, .advance 3, .advance 4, .curptr, .commit, .waitdrain 0],
      isRingOp i = true ∧ (view State.w (exec i coupled)).isSome = true) ∧
    coupled.cfg.wf ∧ coupled.cfg.regReadAtomic = true ∧ coupled.cfg.regWriteAtomic = true ∧
    Framable coupled.cfg (coupled.cfg.regCmdRead.setWidth 32) ∧
    Framable coupled.cfg (coupled.cfg.regCmdWrite.setWidth 32) ∧ ReferenceEnv coupled ∧
    Coupled coupled ∧ NoOverrun coupled :=
  ⟨by decide +kernel, by decide, by decide, by decide, by decide, by decide, by decide,
    coupled_holds.1, coupled_holds.2⟩

theorem witness_CoprocessorKeepsCoupling :
    Coupled { coupled with inputs := [.coprocessor 4] } ∧
    NoOverrun { coupled with inputs := [.coprocessor 4] } ∧
    ∃ t, step { coupled with inputs := [.coprocessor 4] } = .next t ∧ t.dev.rp = 4 :=
  ⟨⟨by decide, by decide, by decide, by decide, by decide, by decide, by decide⟩, by decide,
    view_eq_some (f := fun t => t.dev.rp) (by decide)⟩

theorem witness_SelfScopedReadsComplete : busy.cfg.wf ∧ busy.f = false ∧ busy.scope = .idle ∧
    Calm (6 + busy.cfg.rdDummy) busy ∧ Calm (7 + busy.cfg.rdDummy) busy ∧
    Calm (9 + busy.cfg.rdDummy) busy ∧ Framable busy.cfg highEdge ∧
    addrOf highEdge + 4 ≤ deviceSize := by decide

theorem witness_SelfScopedWritesComplete : busy.cfg.wf ∧ busy.f = false ∧ busy.scope = .idle ∧
    Calm 6 busy ∧ Calm 7 busy ∧ Calm 9 busy ∧ Framable busy.cfg highEdge ∧
    busy.dev.lost = false ∧ addrOf highEdge + 4 ≤ deviceSize := by decide

theorem witness_HostCommandSendsThreeBytes :
    busy.f = false ∧ busy.scope = .idle ∧ Calm 5 busy := by decide

theorem witness_UpperAddressBitsIgnored :
    (0x12345678 : Word).setWidth 24 = (0xFF345678 : Word).setWidth 24 := by decide

theorem witness_ReadReturnsDeviceBytes : v6.cfg.wf ∧ v6.f = false ∧ v6.scope = .idle ∧
    ReferenceEnv v6 ∧ v6.dev.lost = false ∧ Framable v6.cfg lowEdge ∧ PlainRun v6.cfg lowEdge 1 ∧
    PlainRun v6.cfg lowEdge 2 ∧ PlainRun v6.cfg lowEdge 4 ∧
    Framable v6.cfg highEdge ∧ PlainRun v6.cfg highEdge 4 ∧ PlainRun v6.cfg 0xFF3020FC 4 := by
  decide

theorem witness_WriteThenReadReturnsData : v6.cfg.wf ∧ v6.f = false ∧ v6.scope = .idle ∧
    ReferenceEnv v6 ∧ v6.dev.lost = false ∧ Framable v6.cfg lowEdge ∧ PlainRun v6.cfg lowEdge 1 ∧
    PlainRun v6.cfg lowEdge 2 ∧ PlainRun v6.cfg lowEdge 4 ∧ Framable v6.cfg highEdge ∧
    PlainRun v6.cfg highEdge 4 := by decide

theorem witness_OpenStartsScope : busy.cfg.wf ∧ busy.f = false ∧ busy.scope = .idle ∧
    Calm (4 + busy.cfg.rdDummy) busy ∧ Calm 4 busy ∧ Framable busy.cfg highEdge := by decide

theorem witness_CloseEndsScope : writing.f = false ∧ writing.scope ≠ .idle ∧ NoResetAt 0 writing ∧
    (reading 0).f = false ∧ (reading 0).scope ≠ .idle ∧
    NoResetAt 0 { writing with turns := failAt 0 } ∧
    NoResetAt 0 { reading 0 with turns := [⟨0, .hang⟩, ⟨0, .rst true⟩] } := by
  refine ⟨by decide, by decide, ?_, by decide, by decide, ?_, ?_⟩ <;>
    · intro u b h
      cases h <;> simp

theorem witness_StreamReadsComplete : (reading 0x100).f = false ∧
    (reading 0x100).scope = .rdOpen ∧ Calm 1 (reading 0x100) ∧ Calm 2 (reading 0x100) ∧
    Calm 4 (reading 0x100) ∧ Calm (0 : Word).toNat (reading 0x100) ∧
    Calm (7 : Word).toNat (reading 0x100) ∧ (reading 0x100).dev.phase = .rdData ∧
    (reading 0x100).dev.cur + 7 ≤ deviceSize := by decide

/-- The cursor on the last bytes before the read pointer, and at the end of the address space. -/
theorem witness_StreamReadsReturnDeviceBytes : (reading 0x3020F4).f = false ∧
    (reading 0x3020F4).scope = .rdOpen ∧ ReferenceEnv (reading 0x3020F4) ∧
    (reading 0x3020F4).dev.lost = false ∧ (reading 0x3020F4).dev.phase = .rdData ∧
    (reading 0x3020F4).dev.latch = [] ∧ CursorRun (reading 0x3020F4) 1 ∧
    CursorRun (reading 0x3020F4) 2 ∧ CursorRun (reading 0x3020F4) 4 ∧
    CursorRun (reading 0xFFFFFC) 4 ∧ CursorRun (reading 0xFFFFFF) (1 : Word).toNat ∧
    CursorRun (reading 0x3020FC) (0 : Word).toNat := by decide

theorem witness_StreamWritesComplete : writing.cfg.wf ∧ writing.f = false ∧
    writing.scope = .wrOpen ∧ Calm 1 writing ∧ Calm 2 writing ∧ Calm 4 writing ∧
    Calm (0 : Word).toNat writing ∧ writing.wdata.length = (0 : Word).toNat ∧
    writing.dev.phase = .wrData ∧ writing.dev.lost = false ∧
    writing.dev.cur + 4 ≤ deviceSize := by decide

theorem witness_StreamBlockWriteCompletes :
    Calm (3 : Word).toNat { writing with wdata := [1, 2, 3] } ∧
    { writing with wdata := [1, 2, 3] }.wdata.length = (3 : Word).toNat := by decide

theorem witness_SwrblkOfWrongLengthRefused : writing.f = false ∧ writing.scope = .wrOpen ∧
    writing.wdata.length ≠ (1 : Word).toNat := by decide

theorem witness_ScopedWritesFormOneFrame :
    busy.f = false ∧ busy.scope = .idle ∧ Calm 9 busy := by decide

theorem witness_WriteBlockThenReadBlock :
    let s := { v6 with wdata := [1, 2, 3, 4] }
    s.cfg.wf ∧ s.f = false ∧ s.scope = .idle ∧ ReferenceEnv s ∧ s.dev.lost = false ∧
    Framable s.cfg highEdge ∧ s.wdata.length = (4 : Word).toNat ∧
    PlainRun s.cfg highEdge (4 : Word).toNat := by decide

theorem witness_TransportFailureKeepsRegisters :
    State.reset.f = false ∧
    (∃ t, exec (.rd8 0) { State.reset with turns := failAt 1 } = .next t ∧
      t.rsp = some ⟨0x02, 0xE0000005, []⟩) ∧
    (∃ t, exec .srd8 { reading 0x100 with turns := failAt 0 } = .next t ∧
      t.rsp = some ⟨0x02, 0xE0000005, []⟩) ∧ isStream .srd8 = true ∧ isStream (.rd8 0) = false :=
  ⟨by decide, view_eq_some (f := State.rsp) (by decide), view_eq_some (f := State.rsp) (by decide),
    by decide, by decide⟩

theorem witness_FailedExchangeEndsReadFrame :
    let first := { State.reset with turns := failAt 1 }
    let last := { State.reset with turns := failAt 8 }
    first.f = false ∧ first.scope = .idle ∧ 0 < 7 + first.cfg.rdDummy ∧ Calm (0 + 1) first ∧
    first.turns[0 + 1]? = some ⟨0, .fail 0xE0000005 true⟩ ∧ first.turns[0 + 2]? = none ∧
    7 < 7 + last.cfg.rdDummy ∧ Calm (7 + 1) last ∧
    last.turns[7 + 1]? = some ⟨0, .fail 0xE0000005 true⟩ ∧ last.turns[7 + 2]? = none := by decide

theorem witness_FailedExchangeEndsOwnFrame :
    let first := { State.reset with turns := failAt 1 }
    let last := { State.reset with turns := failAt 7 ++ [⟨0, .hang⟩] }
    ownBytes first (.openrd 0x100) = some (busReadFrame first.cfg 0x100 0) ∧
    ownBytes last .commit = some [0xB0, 0x20, 0xFC, 0, 0, 0, 0] ∧
    first.f = false ∧ first.scope = .idle ∧ Calm (0 + 1) first ∧
    first.turns[0 + 1]? = some ⟨0, .fail 0xE0000005 true⟩ ∧ first.turns[0 + 2]? = none ∧
    Calm (6 + 1) last ∧ last.turns[6 + 1]? = some ⟨0, .fail 0xE0000005 true⟩ ∧
    last.turns[6 + 2]? = some ⟨0, .hang⟩ := by decide

/-- The first exchange of the first poll, and the last one of the last poll allowed. -/
theorem witness_FailedPollEndsWaitdrain :
    let first := { at' 4 4 0 0 4 with turns := failAt 1 }
    let last := { at' 4 4 0 0 4 with turns := failAt 18 }
    first.f = false ∧ first.scope = .idle ∧ 0 ≤ (0 : Word).toNat ∧ Calm (0 * 10 + (0 + 1)) first ∧
    first.turns[0 * 10 + (0 + 1)]? = some ⟨0, .fail 0xE0000005 true⟩ ∧
    first.turns[0 * 10 + (0 + 2)]? = none ∧ 5 + first.cfg.rdDummy + xferBytes first.cfg = 10 ∧
    1 ≤ (1 : Word).toNat ∧ 7 < 3 + last.cfg.rdDummy + xferBytes last.cfg ∧
    Calm (1 * 10 + (7 + 1)) last ∧
    last.turns[1 * 10 + (7 + 1)]? = some ⟨0, .fail 0xE0000005 true⟩ ∧
    last.turns[1 * 10 + (7 + 2)]? = none := by decide

theorem witness_FailedExchangeEndsStream :
    let first := { reading 0x100 with turns := failAt 0 }
    let last := { writing with wdata := [1, 2, 3], turns := failAt 2 }
    streamBytes first .srd8 = some [0] ∧ first.f = false ∧
    scopeAllows .srd8 first.scope = true ∧ 0 < [(0 : Byte)].length ∧ Calm 0 first ∧
    first.turns[0]? = some ⟨0, .fail 0xE0000005 true⟩ ∧
    streamBytes last (.swrblk 3) = some [1, 2, 3] ∧ last.f = false ∧
    scopeAllows (.swrblk 3) last.scope = true ∧ 2 < [(1 : Byte), 2, 3].length ∧ Calm 2 last ∧
    last.turns[2]? = some ⟨0, .fail 0xE0000005 true⟩ := by decide

theorem witness_FailedBlockReadDeliversPrefix :
    let first := { reading 0x100 with turns := failAt 0 }
    let last := { reading 0x100 with turns := failAt 2 }
    first.f = false ∧ first.scope = .rdOpen ∧ 0 < (3 : Word).toNat ∧ Calm 0 first ∧
    first.turns[0]? = some ⟨0, .fail 0xE0000005 true⟩ ∧ 2 < (3 : Word).toNat ∧ Calm 2 last ∧
    last.turns[2]? = some ⟨0, .fail 0xE0000005 true⟩ := by decide

theorem witness_EveryRequestIsAnswered :
    let s := { given (.request askFree) with turns := failAt 3 }
    s.inputs = .request askFree :: [] ∧ askFree.wf ∧ Returns s ∧ NoReset s := by
  refine ⟨rfl, by decide, by decide, ?_⟩
  simp [failAt, fine, NoReset]

theorem witness_StopsOnlyWhereSpecSays :
    exec (.rd8 0) { State.reset with turns := [⟨0, .reply⟩, ⟨0, .hang⟩] } =
      .fault .transportNeverReturns ∧
    exec (.swrblk 1) writing = .refused .wdataLength := ⟨rfl, rfl⟩

theorem witness_ResetInputResetsBlock :
    { writing with inputs := [.rst] }.inputs = .rst :: [] := by decide

theorem witness_AbandonedOperationLeavesReset :
    ∃ t, exec (.rd8 0) { at' 9 8 7 0 0 with turns := [⟨0, .reply⟩, ⟨0, .rst true⟩] } = .next t ∧
      t.rsp = none := view_eq_some (f := State.rsp) (by decide)

theorem witness_StepKeepsMachineInvariant :
    Machine.Inv (given (.request askFree)) ∧
    ∃ t, step (given (.request askFree)) = .next t ∧ t.lf = 4091 :=
  ⟨.of_block (by decide)
    ⟨by decide, by decide, by decide, by decide, by decide, by decide, by decide⟩
    (by decide) (by decide), view_eq_some (f := State.lf) (by decide)⟩

theorem witness_PointerWidthFitsRegisters :
    Params.reference.wf ∧ (1 ≤ 12 ∧ Params.reference.c ≤ 2 ^ 12) ∧
    Machine.Inv { at' 4095 0 4091 0 0 with inputs := [.rst] } :=
  ⟨by decide, by decide, .of_block (by decide)
    ⟨by decide, by decide, by decide, by decide, by decide, by decide, by decide⟩
    (by decide) (by decide)⟩

theorem witness_StepKeepsConfiguration :
    ∃ t, step (given (.request askFree)) = .next t ∧ t.lf = 4091 :=
  view_eq_some (f := State.lf) (by decide)

theorem witness_StepOnlyExtendsObservation :
    ∃ t, step (given (.request askFree)) = .next t ∧ t.served.length = 1 :=
  view_eq_some (f := fun t => t.served.length) (by decide)

theorem witness_CoprocessorStepRule :
    let s := { at' 4 4 0 4094 4 with inputs := [.coprocessor 6] }
    s.cfg.wf ∧ s.inputs = .coprocessor 6 :: [] ∧ s.dev.wpOld = none ∧
    s.dev.rp.toNat < s.cfg.c ∧ s.dev.wp.toNat < s.cfg.c ∧
    6 ≤ ringDiff s.cfg s.dev.wp.toNat s.dev.rp.toNat ∧
    ringDiff s.cfg s.dev.wp.toNat s.dev.rp.toNat < 7 ∧
    (at' 0 0 0 5 5).dev.rp = (at' 0 0 0 5 5).dev.wp ∧
    (at' 0 0 0 5 4096).cfg.c ≤ (at' 0 0 0 5 4096).dev.wp.toNat := by decide

theorem witness_AtomicReadReturnsHeldPointer :
    let s := { at' 4 4 0 0 4 with turns := List.replicate 6 ⟨1, .reply⟩ }
    s.cfg.wf ∧ s.cfg.regReadAtomic = true ∧ s.f = false ∧ s.scope = .idle ∧ ReferenceEnv s ∧
    s.dev.lost = false ∧ s.dev.wpOld = none ∧
    Framable s.cfg (s.cfg.regCmdRead.setWidth 32) := by decide

theorem witness_DeviceInitLeavesBlock :
    (given .deviceInit).inputs = .deviceInit :: [] := by decide

theorem witness_IdleBlockWaits : State.reset.inputs = [] := by decide

theorem witness_PseudoOperationsKeepContract :
    (List.replicate 10 (0xE0 : Byte)).length < 2 ^ 32 := by decide

theorem witness_FailedCommitLeavesOldOrNew :
    let s := { at' 291 256 0 256 256 with turns := failAt 7 }
    s.cfg.wf ∧ s.cfg.ptrXfer = .w32 ∧ s.cfg.regWriteAtomic = true ∧ s.f = false ∧
    s.scope = .idle ∧ s.dev.lost = false ∧
    Framable s.cfg (s.cfg.regCmdWrite.setWidth 32) ∧
    ∃ t, exec .commit s = .next t ∧ t.rsp = some ⟨0x02, 0xE0000005, []⟩ :=
  ⟨by decide, by decide, by decide, by decide, by decide, by decide, by decide,
    view_eq_some (f := State.rsp) (by decide)⟩

end Sys2Proof.Tests
end

/-! SUPPORT. `PTRW` is the least width for `C` values (00_scope.md R5), so it is at most the 24 bits
of a device address, and a register that fits it is carried unchanged by its 32-bit
zero-extension. -/

namespace Sys2Proof.Machine

theorem one_le_ptrw (p : Params) : 1 ≤ p.ptrw := by
  unfold Params.ptrw
  split <;> omega

theorem ptrw_le_iff (p : Params) {n : Nat} (hn : 1 ≤ n) : p.ptrw ≤ n ↔ p.c ≤ 2 ^ n := by
  constructor
  · intro h
    exact (le_two_pow_ptrw p).trans (Nat.pow_le_pow_right two_pos h)
  · intro h
    unfold Params.ptrw
    split
    · exact hn
    · have hlog : Nat.log2 (p.c - 1) < n := (Nat.log2_lt (by omega)).mpr (by omega)
      omega

theorem ptrw_le_addressBits {p : Params} (h : p.wf) : p.ptrw ≤ 24 := by
  obtain ⟨⟨_, hc⟩, _⟩ := h
  exact (ptrw_le_iff p (by decide)).mpr hc

theorem FitsWidth.of_mem {s : State} (h : FitsWidth s) {x : Nat} (hx : x ∈ [s.w, s.cw, s.lf]) :
    x < 2 ^ s.cfg.ptrw := by
  simp only [List.mem_cons, List.not_mem_nil, or_false] at hx
  obtain rfl | rfl | rfl := hx
  · exact h.w
  · exact h.cw
  · exact h.lf

/-- Settles O49: `PTRW` is least by `ptrw_le_iff`, and the registers fit it by the invariant. -/
theorem pointerWidthFitsRegisters : Obligations.PointerWidthFitsRegisters := by
  refine ⟨fun p hp => ?_, fun s hs x hx => ?_⟩
  · exact ⟨one_le_ptrw p, ptrw_le_addressBits hp, le_two_pow_ptrw p,
      fun n hn hc => (ptrw_le_iff p hn).mpr hc⟩
  · have hwidth : s.cfg.ptrw ≤ 32 := (ptrw_le_addressBits hs.cfg_wf).trans (by decide)
    have hfits : x < 2 ^ s.cfg.ptrw := hs.widths.of_mem hx
    have hx32 : x < 2 ^ 32 := hfits.trans_le (Nat.pow_le_pow_right two_pos hwidth)
    exact ⟨BitVec.setWidth_ofNat_of_le_of_lt hwidth hfits,
      (BitVec.toNat_ofNat x 32).trans (Nat.mod_eq_of_lt hx32)⟩

end Sys2Proof.Machine

/-! SUPPORT. The step and the state (10_state.md R28 to R39): what an operation can end with and
what a step can take, each said once, and the statements about reset, the waiting block, the
configuration and the machine's invariant read off from them. -/

namespace Sys2Proof.Machine

/-! Reset, the waiting block and the request port. -/

/-- Settles O48: the values are those `State.resetFor` is written with. -/
theorem resetValues : Obligations.ResetValues :=
  ⟨rfl, rfl, rfl, rfl, rfl, rfl, rfl, rfl⟩

/-- Settles O58. -/
theorem idleBlockWaits : Obligations.IdleBlockWaits := by
  intro s hnone
  simp only [step, hnone]

theorem step_request {s : State} {r : Request} {rest : List Input}
    (h : s.inputs = .request r :: rest) :
    step s = mapNext (recordServed r) (runRequest r (accept r rest s)) := by
  simp only [step, h]

theorem runRequest_instr {r : Request} {i : Instr} (h : decode r.req = .instr i) (s : State) :
    runRequest r s = exec i s := by
  simp only [runRequest, h]

theorem runRequest_reserved {r : Request} {op : Byte} (h : decode r.req = .reserved op)
    (s : State) : runRequest r s = execReserved op s := by
  simp only [runRequest, h]

/-- Settles O6: `mapNext` is the case distinction of the statement. -/
theorem stepRunsDecodedRequest : Obligations.StepRunsDecodedRequest := by
  intro s r rest i hin hdec
  calc step s
      = mapNext (recordServed r) (exec i (accept r rest s)) := by
        rw [step_request hin, runRequest_instr hdec]
    _ = _ := rfl

/-- Settles O35: the prologue lets the operation run, and its length check refuses. -/
theorem swrblkOfWrongLengthRefused : Obligations.SwrblkOfWrongLengthRefused := by
  intro s d hf hscope hlen
  have hallowed : needsWrOpen s.scope = true := by rw [hscope]; rfl
  calc exec (.swrblk d) s
      = if s.wdata.length = d.toNat then sendBytes s.wdata s else .refused .wdataLength :=
        prologue_runs _ hf hallowed
    _ = .refused .wdataLength := if_neg hlen

/-! The parts of the invariant. -/

/-- The level `SEL` has between operations in each scope (10_state.md R38). -/
def lineOf (sc : Scope) : Bool := sc != .idle

@[simp] theorem lineOf_idle : lineOf .idle = false := rfl

theorem lineOf_eq_true_iff {sc : Scope} : lineOf sc = true ↔ sc ≠ .idle := by
  simp [lineOf]

theorem sel_iff_scope {s : State} : (s.sel = true ↔ s.scope ≠ .idle) ↔ s.sel = lineOf s.scope := by
  rw [← lineOf_eq_true_iff, Bool.coe_iff_coe]

theorem idle_of_needsIdle {sc : Scope} (h : needsIdle sc = true) : sc = .idle := by
  cases sc <;> simp [needsIdle] at h ⊢

/-- An operation that is not allowed in the idle scope meets the line asserted. -/
theorem lineOf_of_allowed {allowed : Scope → Bool} {sc : Scope} (hidle : allowed .idle = false)
    (h : allowed sc = true) : lineOf sc = true := by
  refine lineOf_eq_true_iff.2 fun hsc => ?_
  rw [hsc, hidle] at h
  cases h

/-- The codes fault entry may leave in `FC` (60_exceptions.md R181). -/
abbrev IsFaultCode (c : Byte) : Prop := c = 0x81 ∨ c = 0x82 ∨ c = 0x83 ∨ c = 0x84

/-- The ranges of the three data registers (10_state.md R38). -/
structure RingInRange (s : State) : Prop where
  w_lt : s.w < s.cfg.c
  cw_lt : s.cw < s.cfg.c
  lf_le : s.lf + s.cfg.m + 1 ≤ s.cfg.c

theorem RingInRange.of_keeps {s t : State} (h : RingInRange s) (k : KeepsRing s t) :
    RingInRange t := by
  obtain ⟨hw, hcw, hlf⟩ := h
  constructor <;> simpa only [k.cfg, k.w, k.cw, k.lf]

theorem RingInRange.of_zero {s : State} (hp : s.cfg.wf) (hw : s.w = 0) (hcw : s.cw = 0)
    (hlf : s.lf = 0) : RingInRange s := by
  obtain ⟨⟨hc, _⟩, _⟩ := hp
  constructor <;> omega

theorem Inv.ring {s : State} (h : Inv s) : RingInRange s :=
  ⟨h.block.w_lt, h.block.cw_lt, h.block.lf_le⟩

theorem Inv.level {s : State} (h : Inv s) : s.sel = lineOf s.scope :=
  sel_iff_scope.1 h.block.sel_iff

theorem SameBlock.ring {s t : State} (h : SameBlock s t) : KeepsRing s t := ⟨h.cfg, h.w, h.cw, h.lf⟩

theorem SameBlock.fault {s t : State} (h : SameBlock s t) : KeepsFault s t := ⟨h.f, h.fc, h.fi⟩

/-- A block that is not faulted meets the invariant by the ranges and the line's level alone. -/
theorem Inv.of_healthy {s : State} (hp : s.cfg.wf) (hr : RingInRange s)
    (hs : s.sel = lineOf s.scope) (hf : s.f = false) (hc : s.fc = 0 ∧ s.fi = 0)
    (hl : lineLevel s.trace = some s.sel) (hm : s.dev.mem.wf) : Inv s :=
  .of_block hp
    { w_lt := hr.w_lt, cw_lt := hr.cw_lt, lf_le := hr.lf_le
      sel_iff := sel_iff_scope.2 hs
      faulted_idle := by simp [hf]
      healthy_clear := fun _ => hc
      faulted_code := by simp [hf] }
    hl hm

/-- The invariant speaks of the block's registers, the trace and device memory only. -/
theorem Inv.of_keeps {s t : State} (h : Inv s) (hr : KeepsRing s t) (hf : KeepsFault s t)
    (hs : KeepsScope s t) (htr : t.trace = s.trace) (hm : t.dev.mem.wf) : Inv t := by
  refine .of_block (hr.cfg ▸ h.cfg_wf)
    { w_lt := (h.ring.of_keeps hr).w_lt, cw_lt := (h.ring.of_keeps hr).cw_lt
      lf_le := (h.ring.of_keeps hr).lf_le
      sel_iff := ?_, faulted_idle := ?_, healthy_clear := ?_, faulted_code := ?_ }
    (by rw [htr, hs.sel]; exact h.line) hm
  · rw [hs.sel, hs.scope]; exact h.block.sel_iff
  · rw [hf.f, hs.scope]; exact h.block.faulted_idle
  · rw [hf.f, hf.fc, hf.fi]; exact h.block.healthy_clear
  · rw [hf.f, hf.fc]; exact h.block.faulted_code

/-- Settles O50: a healthy idle block with zero ring registers beside an empty device. -/
theorem resetMeetsMachineInvariant : Obligations.ResetMeetsMachineInvariant := by
  have hp : State.reset.cfg.wf := by decide
  exact .of_healthy hp (.of_zero hp rfl rfl rfl) rfl rfl ⟨rfl, rfl⟩ rfl Memory.nil_wf

theorem lineLevel_append {tr es : List Event} {l : Bool} (h : lineLevel tr = some l) :
    lineLevel (tr ++ es) = es.foldlM eventLevel l := by
  unfold lineLevel at h ⊢
  rw [List.foldlM_append, h]
  rfl

/-- The reset event gives a block of the invariant wherever the line and device memory are sound,
also in the middle of an operation (70_reset_and_hazards.md R211). -/
theorem resetBlock_inv {u : State} (hp : u.cfg.wf) (hl : lineLevel u.trace = some u.sel)
    (hm : u.dev.mem.wf) : Inv (resetBlock u) := by
  have hp' : (resetBlock u).cfg.wf := by rwa [resetBlock_cfg]
  have hl' : lineLevel (resetBlock u).trace = some (resetBlock u).sel := by
    rw [resetBlock_trace, resetBlock_sel, lineLevel_append hl]
    cases u.sel <;> rfl
  have hm' : (resetBlock u).dev.mem.wf := by
    rw [resetBlock_dev]
    split <;> exact hm
  exact .of_healthy hp' (.of_zero hp' (by simp) (by simp) (by simp)) (by simp) (by simp) (by simp)
    hl' hm'

/-- Fault entry keeps the invariant: it leaves an idle scope, the line released and a code of
60_exceptions.md R181 in `FC`. -/
theorem raiseFault_inv {s : State} {code : Byte} (info : Word) (h : Inv s) (hc : IsFaultCode code) :
    Inv (raiseFault code info s) := by
  have hk := raiseFault_entry code info s
  have hr := h.ring.of_keeps hk.ring
  have hsel : (raiseFault code info s).sel = false := by
    rw [raiseFault_sel]
    split
    · next hidle => rw [h.level, hidle]; rfl
    · rfl
  have hl : lineLevel (raiseFault code info s).trace = some (raiseFault code info s).sel := by
    rw [hsel, raiseFault_trace, lineLevel_append h.line, h.level]
    cases s.scope <;> rfl
  exact .of_block (hk.ring.cfg ▸ h.cfg_wf)
    { w_lt := hr.w_lt, cw_lt := hr.cw_lt, lf_le := hr.lf_le
      sel_iff := sel_iff_scope.2 (by rw [hsel, hk.scope]; rfl)
      faulted_idle := fun _ => hk.scope
      healthy_clear := by simp
      faulted_code := fun _ => by rw [hk.fc]; exact hc }
    hl (by rw [hk.mem]; exact h.mem_wf)

/-! What an operation can end with. -/

/-- The last act of an operation, after its transport events: it sets the response, `SCOPE` and the
ring registers, and leaves the rest. -/
structure Concludes (u t : State) : Prop where
  cfg : t.cfg = u.cfg
  fault : KeepsFault u t
  sel : t.sel = u.sel
  trace : t.trace = u.trace
  dev : t.dev = u.dev

theorem respond_concludes (u : State) (w cw lf : Nat) (sc : Scope) (st : Byte) (v : Word)
    (rd : List Byte) :
    Concludes u (respond st v rd { u with w := w, cw := cw, lf := lf, scope := sc }) :=
  ⟨rfl, ⟨rfl, rfl, rfl⟩, rfl, rfl, rfl⟩

/-- Everything an operation that ends can leave: the faulted answer, fault entry, the reset event
in the middle of its transport events, or its own conclusion, a transport failure included. -/
inductive Ends (s : State) : State → Prop where
  | faulted (hf : s.f = true) : Ends s (answerFaulted s)
  | fault {code : Byte} (info : Word) (hf : s.f = false) (hc : IsFaultCode code) :
      Ends s (raiseFault code info s)
  | reset {u : State} (wire : Wire (lineOf s.scope) s u) : Ends s (resetBlock u)
  | done {u t : State} (hf : s.f = false) (wire : Wire (lineOf s.scope) s u) (last : Concludes u t)
      (ring : s.cfg.wf → RingInRange s → RingInRange t)
      (level : s.sel = lineOf s.scope → t.sel = lineOf t.scope) : Ends s t

/-- The end of an operation that leaves the ring registers as they are. -/
theorem Ends.responds {s u : State} {sc : Scope} {st : Byte} {v : Word} {rd : List Byte}
    (hf : s.f = false) (wire : Wire (lineOf s.scope) s u)
    (level : s.sel = lineOf s.scope → u.sel = lineOf sc) :
    Ends s (respond st v rd { u with scope := sc }) :=
  .done hf wire (respond_concludes u u.w u.cw u.lf sc st v rd)
    (fun _ h => (h.of_keeps wire.same.ring).of_keeps ⟨rfl, rfl, rfl, rfl⟩) level

/-- The same with the scope, too, as it is, as in a stream operation. -/
theorem Ends.responds_here {s u : State} {st : Byte} {v : Word} {rd : List Byte}
    (hf : s.f = false) (wire : Wire (lineOf s.scope) s u) (hsel : u.sel = s.sel) :
    Ends s (respond st v rd u) :=
  .responds (u := u) (sc := u.scope) hf wire fun h => by rw [hsel, h, wire.same.scope]

/-- The configuration is no operation's to change (10_state.md R32). -/
theorem Ends.cfg {s t : State} (h : Ends s t) : t.cfg = s.cfg := by
  cases h with
  | faulted => rfl
  | fault info => exact raiseFault_cfg s _ info
  | reset wire => rw [resetBlock_cfg, wire.same.cfg]
  | done _ wire last => rw [last.cfg, wire.same.cfg]

/-- Every end of an operation keeps the machine's invariant. -/
theorem Ends.inv {s t : State} (h : Ends s t) (hs : Inv s) : Inv t := by
  cases h with
  | faulted =>
    exact hs.of_keeps ⟨rfl, rfl, rfl, rfl⟩ ⟨rfl, rfl, rfl⟩ ⟨rfl, rfl⟩ rfl hs.mem_wf
  | fault info _ hc => exact raiseFault_inv info hs hc
  | reset wire =>
    exact resetBlock_inv (wire.same.cfg ▸ hs.cfg_wf) (wire.line hs.level hs.line)
      (wire.mem_wf hs.mem_wf)
  | @done u _ hf wire last ring level =>
    have hcfg : t.cfg = s.cfg := last.cfg.trans wire.same.cfg
    have hline : lineLevel u.trace = some u.sel := wire.line hs.level hs.line
    obtain ⟨hfc, hfi⟩ := hs.block.healthy_clear hf
    exact .of_healthy (hcfg ▸ hs.cfg_wf) (ring hs.cfg_wf hs.ring) (level hs.level)
      (by rw [last.fault.f, wire.same.f, hf])
      ⟨by rw [last.fault.fc, wire.same.fc, hfc], by rw [last.fault.fi, wire.same.fi, hfi]⟩
      (by rw [last.trace, last.sel]; exact hline)
      (by rw [last.dev]; exact wire.mem_wf hs.mem_wf)

/-! Each operation ends so. -/

/-- Past the prologue's own answers it is enough to look at the operation's rule, in a scope it is
allowed in (60_exceptions.md R187). -/
theorem prologue_ends {allowed : Scope → Bool} {s t : State} {body : Out}
    (h : prologue allowed s body = .next t)
    (hbody : s.f = false → allowed s.scope = true → body = .next t → Ends s t) : Ends s t := by
  rcases prologue_cases allowed s body with ⟨hf, hp⟩ | ⟨hf, -, hp⟩ | ⟨hf, hs, hp⟩
  · obtain rfl : answerFaulted s = t := Host.Outcome.next.inj (hp.symm.trans h)
    exact .faulted hf
  · obtain rfl : raiseFault faultScopeViolation (scopeCode s.scope) s = t :=
      Host.Outcome.next.inj (hp.symm.trans h)
    exact .fault _ hf (by decide)
  · exact hbody hf hs (hp.symm.trans h)

theorem raiseEncoding_ends {code op : Byte} {s t : State} (hc : IsFaultCode code)
    (h : raiseEncoding code op s = .next t) : Ends s t := by
  rcases raiseEncoding_cases code op s with ⟨hf, hp⟩ | ⟨hf, hp⟩
  · obtain rfl : answerFaulted s = t := Host.Outcome.next.inj (hp.symm.trans h)
    exact .faulted hf
  · obtain rfl : raiseFault code (op.setWidth 32) s = t := Host.Outcome.next.inj (hp.symm.trans h)
    exact .fault _ hf hc

/-- The failures of an operation that asserts the line itself (60_exceptions.md R186). -/
theorem OwnedFails.ends {s t : State} {o : Out} (h : OwnedFails s o) (ho : o = .next t)
    (hf : s.f = false) (hs : s.scope = .idle) : Ends s t := by
  have hline : lineOf s.scope = false := congrArg lineOf hs
  subst ho
  rcases h with ⟨e, u, hu, wire, hsel⟩ | ⟨u, hu, wire, -⟩ | ⟨hu, -⟩
  · obtain rfl := Host.Outcome.next.inj hu
    exact .responds hf (hline ▸ wire) fun _ => hsel
  · obtain rfl := Host.Outcome.next.inj hu
    exact .reset (hline ▸ wire)
  · cases hu

/-- An operation of one frame in an idle scope: what is left to say is its normal end. -/
theorem frameOp_ends {s t : State} {out : List Byte} {ok : List Byte → State → State}
    (hok : ∀ got u, s.f = false → Wire (lineOf s.scope) s u → u.sel = lineOf s.scope →
      Ends s (ok got u))
    (h : prologue needsIdle s (endOwned (frame out s) ok) = .next t) : Ends s t := by
  refine prologue_ends h fun hf hallowed hb => ?_
  have hs := idle_of_needsIdle hallowed
  have hline : lineOf s.scope = false := congrArg lineOf hs
  rcases endOwned_frame_cases out s ok with ⟨got, u, hu, hframe, wire⟩ | hfail
  · obtain rfl := Host.Outcome.next.inj (hu.symm.trans hb)
    exact hok got u hf (hline ▸ wire) (hframe.sel.trans hline.symm)
  · exact hfail.ends hb hf hs

/-- RD8 to RD32, WR8 to WR32 and HOSTCMD. -/
theorem selfScoped_ends {s t : State} {out : List Byte} {st : Byte} {v : List Byte → Word}
    (h : prologue needsIdle s
      (endOwned (frame out s) (fun got u => respond st (v got) [] u)) = .next t) : Ends s t :=
  frameOp_ends (fun _ _ hf wire hsel =>
    .responds hf wire fun _ => by rw [hsel, wire.same.scope]) h

theorem execFree_ends {s t : State} (h : execFree s = .next t) : Ends s t := by
  refine frameOp_ends (fun got u hf wire hsel => ?_) h
  refine .done hf wire (respond_concludes u u.w u.cw _ u.scope _ _ _) (fun hp hr => ?_)
    (fun _ => by rw [respond_sel, respond_scope, hsel, wire.same.scope])
  have hu := hr.of_keeps wire.same.ring
  refine ⟨hu.w_lt, hu.cw_lt, ?_⟩
  rw [respond_lf, respond_cfg, wire.same.cfg]
  exact freeSpace_le hp.1.1 _ _

theorem execCommit_ends {s t : State} (h : execCommit s = .next t) : Ends s t := by
  refine prologue_ends h fun hf hallowed hb => ?_
  have hs := idle_of_needsIdle hallowed
  have hline : lineOf s.scope = false := congrArg lineOf hs
  rcases endOwned_commit_cases s _ with ⟨got, u, hu, hframe, wire⟩ | hfail
  · obtain rfl := Host.Outcome.next.inj (hu.symm.trans hb)
    refine .done hf (hline ▸ wire) (respond_concludes u u.w u.w u.lf u.scope _ _ _) (fun _ hr => ?_)
      (fun _ => by rw [respond_sel, respond_scope, hframe.sel, wire.same.scope, hline])
    have hk := hr.of_keeps wire.same.ring
    exact ⟨hk.w_lt, hk.w_lt, hk.lf_le⟩
  · exact hfail.ends hb hf hs

theorem execWaitdrain_ends {d : Word} {s t : State} (h : execWaitdrain d s = .next t) :
    Ends s t := by
  refine prologue_ends h fun hf hallowed hb => ?_
  have hs := idle_of_needsIdle hallowed
  have hline : lineOf s.scope = false := congrArg lineOf hs
  rcases pollLoop_cases d.toNat 0 s with ⟨u, v, st, hu, wire, hsel, -⟩ | hfail
  · obtain rfl := Host.Outcome.next.inj (hu.symm.trans hb)
    exact .responds hf (hline ▸ wire) fun _ => by rw [hsel, wire.same.scope, hline]
  · exact hfail.ends hb hf hs

theorem openOp_ends {dir : Dir} {opened : Scope} {a : Word} {s t : State}
    (hopened : opened ≠ .idle) (h : openOp dir opened a s = .next t) : Ends s t := by
  refine prologue_ends h fun hf hallowed hb => ?_
  have hs := idle_of_needsIdle hallowed
  have hline : lineOf s.scope = false := congrArg lineOf hs
  rcases endOwned_open_cases (preamble s.cfg dir a) s _ with ⟨got, u, hu, hopen, wire⟩ | hfail
  · obtain rfl := Host.Outcome.next.inj (hu.symm.trans hb)
    exact .responds hf (hline ▸ wire) fun _ => hopen.sel.trans (lineOf_eq_true_iff.2 hopened).symm
  · exact hfail.ends hb hf hs

theorem execClose_ends {s t : State} (h : execClose s = .next t) : Ends s t := by
  refine prologue_ends h fun hf hallowed hb => ?_
  have hline := lineOf_of_allowed rfl hallowed
  rcases release_cases s with ⟨hu, wire⟩ | ⟨hu, wire, -⟩
  · rw [hu] at hb
    obtain rfl := Host.Outcome.next.inj hb
    exact .responds hf (hline ▸ wire) fun _ => rfl
  · rw [hu] at hb
    obtain rfl := Host.Outcome.next.inj hb
    exact .reset (hline ▸ wire)

/-- A stream operation keeps the scope it is in, however its run of exchanges goes. -/
theorem endStream_ends {s t : State} {out : List Byte} {rdata rd : List Byte → List Byte}
    {v : List Byte → Word} (hf : s.f = false) (hline : lineOf s.scope = true)
    (h : endStream (burst out s) rdata (fun got u => respond statusOk (v got) (rd got) u) =
      .next t) : Ends s t := by
  rcases endStream_cases out s rdata (fun got u => respond statusOk (v got) (rd got) u) with
    ⟨got, u, hu, hrun⟩ | ⟨e, got, u, hu, wire, hsel⟩ | ⟨u, hu, wire, -⟩ | ⟨hu, -⟩
  · obtain rfl := Host.Outcome.next.inj (hu.symm.trans h)
    exact .responds_here hf (hline ▸ hrun.wire) hrun.sel
  · obtain rfl := Host.Outcome.next.inj (hu.symm.trans h)
    exact .responds_here hf (hline ▸ wire) hsel
  · obtain rfl := Host.Outcome.next.inj (hu.symm.trans h)
    exact .reset (hline ▸ wire)
  · cases hu.symm.trans h

theorem streamRead_ends {k : Nat} {s t : State} (h : streamRead k s = .next t) : Ends s t :=
  prologue_ends h fun hf hallowed hb => endStream_ends hf (lineOf_of_allowed rfl hallowed) hb

theorem execSrdblk_ends {d : Word} {s t : State} (h : execSrdblk d s = .next t) : Ends s t :=
  prologue_ends h fun hf hallowed hb => endStream_ends hf (lineOf_of_allowed rfl hallowed) hb

theorem streamWrite_ends {out : List Byte} {s t : State} (h : streamWrite out s = .next t) :
    Ends s t :=
  prologue_ends h fun hf hallowed hb => endStream_ends hf (lineOf_of_allowed rfl hallowed) hb

theorem execSwrblk_ends {d : Word} {s t : State} (h : execSwrblk d s = .next t) : Ends s t := by
  refine prologue_ends h fun hf hallowed hb => ?_
  split at hb
  · exact endStream_ends hf (lineOf_of_allowed rfl hallowed) hb
  · cases hb

/-- No transport event at all. -/
theorem Wire.refl (l : Bool) (s : State) : Wire l s s :=
  ⟨SameBlock.refl s, id, fun _ => id, [], (List.append_nil _).symm, fun h => congrArg some h.symm⟩

theorem execAdvance_ends {d : Word} {s t : State} (h : execAdvance d s = .next t) : Ends s t := by
  refine prologue_ends h fun hf _ hb => ?_
  split at hb
  · obtain rfl := Host.Outcome.next.inj hb
    exact .fault _ hf (by decide)
  · obtain rfl := Host.Outcome.next.inj hb
    refine .done hf (.refl _ s) (respond_concludes s _ s.cw _ s.scope _ _ _) (fun _ hr => ?_) id
    obtain ⟨hw, hcw, hlf⟩ := hr
    exact ⟨nextPtr_lt (by omega) _ _, hcw, by simp only [respond_lf, respond_cfg]; omega⟩

theorem execCurptr_ends {s t : State} (h : execCurptr s = .next t) : Ends s t := by
  refine prologue_ends h fun hf _ hb => ?_
  obtain rfl := Host.Outcome.next.inj hb
  exact .responds_here hf (.refl _ s) rfl

theorem execRinit_ends {s t : State} (h : execRinit s = .next t) : Ends s t := by
  refine prologue_ends h fun hf _ hb => ?_
  obtain rfl := Host.Outcome.next.inj hb
  exact .done hf (.refl _ s) (respond_concludes s 0 0 0 s.scope _ _ _)
    (fun hp _ => .of_zero hp rfl rfl rfl) id

/-- Every operation that ends, ends in one of the ways of `Ends`. -/
theorem exec_ends {i : Instr} {s t : State} (h : exec i s = .next t) : Ends s t := by
  cases i with
  | rd8 a => exact selfScoped_ends h
  | rd16 a => exact selfScoped_ends h
  | rd32 a => exact selfScoped_ends h
  | wr8 a d => exact selfScoped_ends h
  | wr16 a d => exact selfScoped_ends h
  | wr32 a d => exact selfScoped_ends h
  | openrd a => exact openOp_ends (by decide) h
  | openwr a => exact openOp_ends (by decide) h
  | close => exact execClose_ends h
  | srd8 => exact streamRead_ends h
  | srd16 => exact streamRead_ends h
  | srd32 => exact streamRead_ends h
  | srdblk d => exact execSrdblk_ends h
  | swr8 d => exact streamWrite_ends h
  | swr16 d => exact streamWrite_ends h
  | swr32 d => exact streamWrite_ends h
  | swrblk d => exact execSwrblk_ends h
  | hostcmd a d => exact selfScoped_ends h
  | free => exact execFree_ends h
  | advance d => exact execAdvance_ends h
  | curptr => exact execCurptr_ends h
  | commit => exact execCommit_ends h
  | waitdrain d => exact execWaitdrain_ends h
  | rinit => exact execRinit_ends h
  | invalidWidth13 => exact raiseEncoding_ends (by decide) h
  | invalidWidth23 => exact raiseEncoding_ends (by decide) h
  | invalidWidth43 => exact raiseEncoding_ends (by decide) h
  | invalidWidth53 => exact raiseEncoding_ends (by decide) h

theorem runRequest_ends {r : Request} {s t : State} (h : runRequest r s = .next t) : Ends s t := by
  cases hdec : decode r.req with
  | instr i => exact exec_ends ((runRequest_instr hdec s).symm.trans h)
  | reserved op =>
    exact raiseEncoding_ends (by decide) ((runRequest_reserved hdec s).symm.trans h)

/-! What a step can take. -/

theorem mapNext_eq_next {g : State → State} {o : Out} {t : State} (h : mapNext g o = .next t) :
    ∃ u, o = .next u ∧ t = g u := by
  cases o with
  | next u => exact ⟨u, rfl, (Host.Outcome.next.inj h).symm⟩
  | fault r => cases h
  | refused r => cases h

/-- Everything a step that ends can be: the block waits, serves a request, is reset, or the device
moves by itself. -/
theorem step_cases {s t : State} (h : step s = .next t) :
    t = s ∨ (∃ r rest u, Ends (accept r rest s) u ∧ t = recordServed r u) ∨
      (∃ rest, t = takeReset rest s) ∨ (∃ n rest, t = takeCoprocessor n rest s) ∨
      ∃ rest, t = takeDeviceInit rest s := by
  cases hin : s.inputs with
  | nil =>
    simp only [step, hin] at h
    exact .inl (Host.Outcome.next.inj h).symm
  | cons x rest =>
    cases x with
    | request r =>
      obtain ⟨u, hu, ht⟩ := mapNext_eq_next ((step_request hin).symm.trans h)
      exact .inr (.inl ⟨r, rest, u, runRequest_ends hu, ht⟩)
    | rst =>
      simp only [step, hin] at h
      exact .inr (.inr (.inl ⟨rest, (Host.Outcome.next.inj h).symm⟩))
    | coprocessor n =>
      simp only [step, hin] at h
      exact .inr (.inr (.inr (.inl ⟨n, rest, (Host.Outcome.next.inj h).symm⟩)))
    | deviceInit =>
      simp only [step, hin] at h
      exact .inr (.inr (.inr (.inr ⟨rest, (Host.Outcome.next.inj h).symm⟩)))

/-- The record of served requests is the only field `recordServed` touches. -/
theorem recordServed_eq (r : Request) (s : State) :
    ∃ l, recordServed r s = { s with served := l } := by
  unfold recordServed
  split
  · exact ⟨_, rfl⟩
  · exact ⟨s.served, rfl⟩

/-- Settles O52: by `step_cases`, and for a request by `Ends.cfg`. -/
theorem stepKeepsConfiguration : Obligations.StepKeepsConfiguration := by
  intro s t hstep
  rcases step_cases hstep with rfl | ⟨r, rest, u, hends, rfl⟩ | ⟨rest, rfl⟩ | ⟨n, rest, rfl⟩ |
    ⟨rest, rfl⟩
  · rfl
  · obtain ⟨l, hl⟩ := recordServed_eq r u
    rw [hl]
    exact hends.cfg
  · exact resetBlock_cfg _
  · rfl
  · rfl

/-- The invariant does not see the ports, the model's inputs, the record of served requests, nor
the device but for its memory. -/
theorem Inv.with_ports {s : State} (h : Inv s) {d : Device} (hd : d.mem.wf) (wd : List Byte)
    (rsp : Option Response) (ins : List Input) (served : List (Request × Response)) :
    Inv { s with dev := d, wdata := wd, rsp := rsp, inputs := ins, served := served } :=
  h.of_keeps ⟨rfl, rfl, rfl, rfl⟩ ⟨rfl, rfl, rfl⟩ ⟨rfl, rfl⟩ rfl hd

/-- Settles O51: by `step_cases`; the operations keep the invariant by `Ends.inv`. -/
theorem stepKeepsMachineInvariant : Obligations.StepKeepsMachineInvariant := by
  intro s t hs hstep
  rcases step_cases hstep with rfl | ⟨r, rest, u, hends, rfl⟩ | ⟨rest, rfl⟩ | ⟨n, rest, rfl⟩ |
    ⟨rest, rfl⟩
  · exact hs
  · have haccept : Inv (accept r rest s) := hs.with_ports hs.mem_wf r.wdata none rest s.served
    have hu : Inv u := hends.inv haccept
    obtain ⟨l, hl⟩ := recordServed_eq r u
    rw [hl]
    exact hu.with_ports hu.mem_wf u.wdata u.rsp u.inputs l
  · exact resetBlock_inv hs.cfg_wf hs.line hs.mem_wf
  · have hm : (s.dev.consume s.cfg n).mem.wf := by rw [Device.consume_mem]; exact hs.mem_wf
    exact hs.with_ports hm s.wdata s.rsp rest s.served
  · exact hs.with_ports Memory.nil_wf s.wdata s.rsp rest s.served

end Sys2Proof.Machine

/-! SUPPORT. Device memory and the coprocessor (20_memory.md R51, R62, R70 to R76): the truncated
address, the observation a step appends to, the coprocessor's step, and the bytes a read receives
from the reference device. -/

namespace Sys2Proof.Machine

/-! The coupling at reset. -/

/-- Settles O56: every number in the two properties is a field of the reset state. -/
theorem resetIsCoupled : Obligations.ResetIsCoupled := by
  refine ⟨⟨?_, ?_, ?_, ?_, ?_, rfl, rfl⟩, ?_⟩ <;> decide

/-! The truncated address. -/

theorem preamble_congr (p : Params) (dir : Dir) {a b : Word} (h : deviceAddr a = deviceAddr b) :
    preamble p dir a = preamble p dir b := by
  simp only [preamble, preambleWord, h]

theorem readOp_congr {a b : Word} (h : deviceAddr a = deviceAddr b) (k : Nat) (s : State) :
    readOp a k s = readOp b k s := by
  simp only [readOp, readTxn, readFrameBytes, readValue, preamble_congr s.cfg .rd h]

theorem writeOp_congr {a b : Word} (h : deviceAddr a = deviceAddr b) (v : Word) (k : Nat)
    (s : State) : writeOp a v k s = writeOp b v k s := by
  simp only [writeOp, writeTxn, writeFrameBytes, preamble_congr s.cfg .wr h]

theorem openOp_congr {a b : Word} (h : deviceAddr a = deviceAddr b) (dir : Dir) (opened : Scope)
    (s : State) : openOp dir opened a s = openOp dir opened b s := by
  simp only [openOp, preamble_congr s.cfg dir h]

/-- Settles O27: an address reaches the bus through its preamble alone. -/
theorem upperAddressBitsIgnored : Obligations.UpperAddressBitsIgnored := by
  intro s a b d hab
  have h : deviceAddr a = deviceAddr b := hab
  exact ⟨readOp_congr h 1 s, readOp_congr h 2 s, readOp_congr h 4 s, writeOp_congr h d 1 s,
    writeOp_congr h d 2 s, writeOp_congr h d 4 s, openOp_congr h .rd .rdOpen s,
    openOp_congr h .wr .wrOpen s⟩

/-! The coprocessor's step. -/

theorem ringDiff_self (p : Params) (x : Nat) : ringDiff p x x = 0 := by
  simp [ringDiff]

/-- Moving the reader by `n` of the bytes left takes `n` from the ring distance. -/
theorem ringDiff_advance {p : Params} {w r n : Nat} (hr : r < p.c) (hw : w < p.c)
    (hn : n ≤ ringDiff p w r) : ringDiff p w ((r + n) % p.c) + n = ringDiff p w r := by
  rcases Nat.lt_or_ge w r with hlt | hge
  · have hd : ringDiff p w r = w + p.c - r := ringDiff_of_lt hr hlt
    rcases Nat.lt_or_ge (r + n) p.c with hin | hwrap
    · rw [Nat.mod_eq_of_lt hin, ringDiff_of_lt hin (by omega), hd]
      omega
    · have hm : (r + n) % p.c = r + n - p.c := by
        rw [Nat.mod_eq_sub_mod hwrap, Nat.mod_eq_of_lt (by omega)]
      rw [hm, ringDiff_of_le hw (by omega), hd]
      omega
  · have hd : ringDiff p w r = w - r := ringDiff_of_le hw hge
    rw [Nat.mod_eq_of_lt (by omega), ringDiff_of_le hw (by omega), hd]
    omega

/-- With no raw store into `WP` pending the coprocessor's step is enabled by R74's condition. -/
theorem Device.mayConsume_iff {p : Params} {n : Nat} {d : Device} (h : d.wpOld = none) :
    d.mayConsume p n = true ↔ d.rp ≠ d.wp ∧ d.wp.toNat < p.c ∧ 1 ≤ n ∧
      n ≤ ringDiff p d.wp.toNat d.rp.toNat := by
  simp [Device.mayConsume, h, and_assoc]

theorem Device.consume_of_may {p : Params} {n : Nat} {d : Device} (h : d.mayConsume p n = true) :
    d.consume p n = { d with rp := BitVec.ofNat 32 ((d.rp.toNat + n) % p.c) } :=
  if_pos h

theorem Device.consume_of_not_may {p : Params} {n : Nat} {d : Device}
    (h : ¬ d.mayConsume p n = true) : d.consume p n = d :=
  if_neg h

theorem step_coprocessor {s : State} {n : Nat} {rest : List Input}
    (h : s.inputs = .coprocessor n :: rest) : step s = .next (takeCoprocessor n rest s) := by
  simp only [step, h]

/-- Settles O54: the step is enabled exactly by R74's condition, and `ringDiff_advance` counts the
bytes left. -/
theorem coprocessorStepRule : Obligations.CoprocessorStepRule := by
  intro s n rest hwf hin hraw
  have hmay := Device.mayConsume_iff (p := s.cfg) (n := n) hraw
  refine ⟨fun hrp hwp h1 hn => ?_, fun hoff => ?_⟩
  · have hne : s.dev.rp ≠ s.dev.wp := by
      intro h
      rw [h, ringDiff_self] at hn
      omega
    obtain ⟨⟨_, hc⟩, _⟩ := hwf
    have hlt : (s.dev.rp.toNat + n) % s.cfg.c < 2 ^ 32 :=
      (Nat.mod_lt _ (by omega)).trans_le (hc.trans (by decide))
    have hrp' : (BitVec.ofNat 32 ((s.dev.rp.toNat + n) % s.cfg.c)).toNat =
        (s.dev.rp.toNat + n) % s.cfg.c := (BitVec.toNat_ofNat _ _).trans (Nat.mod_eq_of_lt hlt)
    refine ⟨_, ?_, hrp', ?_⟩
    · rw [step_coprocessor hin, takeCoprocessor,
        Device.consume_of_may (hmay.2 ⟨hne, hwp, h1, hn⟩)]
    · rw [hrp']
      exact ringDiff_advance hrp hwp hn
  · have hnot : ¬ s.dev.mayConsume s.cfg n = true := by
      rw [hmay]
      rintro ⟨hne, hwp, h1, hn⟩
      rcases hoff with h | h | h | h
      · exact hne h
      all_goals omega
    rw [step_coprocessor hin, takeCoprocessor, Device.consume_of_not_may hnot]

/-! The observation. -/

/-- Every end of an operation has only appended to the trace. -/
theorem Ends.trace_prefix {s t : State} (h : Ends s t) : s.trace <+: t.trace := by
  cases h with
  | faulted => exact List.prefix_rfl
  | fault info => rw [raiseFault_trace]; exact List.prefix_append _ _
  | reset wire =>
    obtain ⟨es, hes, -⟩ := wire.trace
    rw [resetBlock_trace, hes, List.append_assoc]
    exact List.prefix_append _ _
  | done _ wire last =>
    obtain ⟨es, hes, -⟩ := wire.trace
    rw [last.trace, hes]
    exact List.prefix_append _ _

/-- Where there is a next state, it has the record of served requests of `s`. -/
def KeepsServed (s : State) (o : Out) : Prop := ∀ t, o = .next t → t.served = s.served

theorem KeepsServed.next {s t : State} (h : t.served = s.served) : KeepsServed s (.next t) := by
  intro u hu
  rw [← Host.Outcome.next.inj hu, h]

theorem prologue_served {allowed : Scope → Bool} {s : State} {body : Out}
    (h : KeepsServed s body) : KeepsServed s (prologue allowed s body) := by
  rcases prologue_cases allowed s body with ⟨-, hp⟩ | ⟨-, -, hp⟩ | ⟨-, -, hp⟩ <;> rw [hp]
  · exact .next rfl
  · exact .next (raiseFault_served s _ _)
  · exact h

theorem raiseEncoding_served (code op : Byte) (s : State) :
    KeepsServed s (raiseEncoding code op s) := by
  rcases raiseEncoding_cases code op s with ⟨-, hp⟩ | ⟨-, hp⟩ <;> rw [hp]
  · exact .next rfl
  · exact .next (raiseFault_served s _ _)

theorem OwnedFails.served {s : State} {o : Out} (h : OwnedFails s o) : KeepsServed s o := by
  rcases h with ⟨e, u, rfl, wire, -⟩ | ⟨u, rfl, wire, -⟩ | ⟨rfl, -⟩
  · exact .next wire.same.served
  · exact .next ((resetBlock_served u).trans wire.same.served)
  · exact fun t ht => by cases ht

/-- An operation that asserts the line itself leaves the record where its normal end does. -/
theorem KeepsServed.of_owned {s : State} {o : Out} {ok : List Byte → State → State}
    {P : List Byte → State → Prop}
    (h : (∃ got u, o = .next (ok got u) ∧ P got u ∧ Wire false s u) ∨ OwnedFails s o)
    (hok : ∀ got u, (ok got u).served = u.served) : KeepsServed s o := by
  rcases h with ⟨got, u, rfl, -, wire⟩ | hfail
  · exact .next ((hok got u).trans wire.same.served)
  · exact hfail.served

theorem endOwned_frame_served (out : List Byte) (s : State) {ok : List Byte → State → State}
    (hok : ∀ got u, (ok got u).served = u.served) :
    KeepsServed s (endOwned (frame out s) ok) :=
  .of_owned (endOwned_frame_cases out s ok) hok

theorem endOwned_commit_served (s : State) {ok : List Byte → State → State}
    (hok : ∀ got u, (ok got u).served = u.served) :
    KeepsServed s (endOwned (commitTxn s) ok) :=
  .of_owned (endOwned_commit_cases s ok) hok

theorem endOwned_open_served (out : List Byte) (s : State) {ok : List Byte → State → State}
    (hok : ∀ got u, (ok got u).served = u.served) :
    KeepsServed s (endOwned (openFrame out s) ok) :=
  .of_owned (endOwned_open_cases out s ok) hok

theorem endOwned_release_served (s : State) {ok : List Byte → State → State}
    (hok : ∀ got u, (ok got u).served = u.served) :
    KeepsServed s (endOwned (selEvent false s) ok) := by
  rcases endOwned_release_cases s ok with hu | ⟨hu, -⟩ <;> rw [hu]
  · exact .next (hok _ _)
  · exact .next (resetBlock_served _)

theorem endStream_served (out : List Byte) (s : State) (rdata : List Byte → List Byte)
    {ok : List Byte → State → State} (hok : ∀ got u, (ok got u).served = u.served) :
    KeepsServed s (endStream (burst out s) rdata ok) := by
  rcases endStream_cases out s rdata ok with ⟨got, u, hu, hrun⟩ | ⟨e, got, u, hu, wire, -⟩ |
    ⟨u, hu, wire, -⟩ | ⟨hu, -⟩ <;> rw [hu]
  · exact .next ((hok got u).trans hrun.same.served)
  · exact .next wire.same.served
  · exact .next ((resetBlock_served u).trans wire.same.served)
  · exact fun t ht => by cases ht

theorem pollLoop_served (left i : Nat) (s : State) : KeepsServed s (pollLoop left i s) := by
  rcases pollLoop_cases left i s with ⟨u, v, st, hu, wire, -⟩ | hfail
  · rw [hu]; exact .next wire.same.served
  · exact hfail.served

theorem execAdvance_served (d : Word) (s : State) : KeepsServed s (execAdvance d s) := by
  refine prologue_served ?_
  split
  · exact .next (raiseFault_served s _ _)
  · exact .next rfl

theorem execSwrblk_served (d : Word) (s : State) : KeepsServed s (execSwrblk d s) := by
  refine prologue_served ?_
  split
  · exact endStream_served s.wdata s _ fun _ _ => rfl
  · exact fun t ht => by cases ht

/-- No operation touches the record of served requests: it is the port's. -/
theorem exec_served (i : Instr) (s : State) : KeepsServed s (exec i s) := by
  cases i with
  | rd8 a => exact prologue_served (endOwned_frame_served _ s fun _ _ => rfl)
  | rd16 a => exact prologue_served (endOwned_frame_served _ s fun _ _ => rfl)
  | rd32 a => exact prologue_served (endOwned_frame_served _ s fun _ _ => rfl)
  | wr8 a d => exact prologue_served (endOwned_frame_served _ s fun _ _ => rfl)
  | wr16 a d => exact prologue_served (endOwned_frame_served _ s fun _ _ => rfl)
  | wr32 a d => exact prologue_served (endOwned_frame_served _ s fun _ _ => rfl)
  | openrd a => exact prologue_served (endOwned_open_served _ s fun _ _ => rfl)
  | openwr a => exact prologue_served (endOwned_open_served _ s fun _ _ => rfl)
  | close => exact prologue_served (endOwned_release_served s fun _ _ => rfl)
  | srd8 => exact prologue_served (endStream_served _ s _ fun _ _ => rfl)
  | srd16 => exact prologue_served (endStream_served _ s _ fun _ _ => rfl)
  | srd32 => exact prologue_served (endStream_served _ s _ fun _ _ => rfl)
  | srdblk d => exact prologue_served (endStream_served _ s _ fun _ _ => rfl)
  | swr8 d => exact prologue_served (endStream_served _ s _ fun _ _ => rfl)
  | swr16 d => exact prologue_served (endStream_served _ s _ fun _ _ => rfl)
  | swr32 d => exact prologue_served (endStream_served _ s _ fun _ _ => rfl)
  | swrblk d => exact execSwrblk_served d s
  | hostcmd a d => exact prologue_served (endOwned_frame_served _ s fun _ _ => rfl)
  | free => exact prologue_served (endOwned_frame_served _ s fun _ _ => rfl)
  | advance d => exact execAdvance_served d s
  | curptr => exact prologue_served (.next rfl)
  | commit => exact prologue_served (endOwned_commit_served s fun _ _ => rfl)
  | waitdrain d => exact prologue_served (pollLoop_served d.toNat 0 s)
  | rinit => exact prologue_served (.next rfl)
  | invalidWidth13 => exact raiseEncoding_served _ _ s
  | invalidWidth23 => exact raiseEncoding_served _ _ s
  | invalidWidth43 => exact raiseEncoding_served _ _ s
  | invalidWidth53 => exact raiseEncoding_served _ _ s

theorem runRequest_served (r : Request) (s : State) : KeepsServed s (runRequest r s) := by
  cases hdec : decode r.req with
  | instr i => rw [runRequest_instr hdec]; exact exec_served i s
  | reserved op => rw [runRequest_reserved hdec]; exact raiseEncoding_served _ op s

theorem recordServed_prefix (r : Request) (s : State) :
    s.served <+: (recordServed r s).served := by
  unfold recordServed
  split
  · exact List.prefix_append _ _
  · exact List.prefix_rfl

@[simp] theorem recordServed_trace (r : Request) (s : State) :
    (recordServed r s).trace = s.trace := by
  obtain ⟨l, hl⟩ := recordServed_eq r s
  rw [hl]

/-- Settles O53: an operation appends to the trace (`Ends.trace_prefix`) and leaves the record, to
which the port then appends. -/
theorem stepOnlyExtendsObservation : Obligations.StepOnlyExtendsObservation := by
  intro s t hstep
  cases hin : s.inputs with
  | nil =>
    rw [idleBlockWaits s hin] at hstep
    obtain rfl := Host.Outcome.next.inj hstep
    exact ⟨List.prefix_rfl, List.prefix_rfl⟩
  | cons x rest =>
    cases x with
    | request r =>
      obtain ⟨u, hu, rfl⟩ := mapNext_eq_next ((step_request hin).symm.trans hstep)
      have htrace : s.trace <+: u.trace := (runRequest_ends hu).trace_prefix
      have hserved : u.served = s.served := runRequest_served r (accept r rest s) u hu
      exact ⟨by rwa [recordServed_trace], hserved ▸ recordServed_prefix r u⟩
    | rst =>
      simp only [step, hin] at hstep
      obtain rfl := Host.Outcome.next.inj hstep
      constructor
      · rw [takeReset, resetBlock_trace]; exact List.prefix_append _ _
      · rw [takeReset, resetBlock_served]
    | coprocessor n =>
      rw [step_coprocessor hin] at hstep
      obtain rfl := Host.Outcome.next.inj hstep
      exact ⟨List.prefix_rfl, List.prefix_rfl⟩
    | deviceInit =>
      simp only [step, hin] at hstep
      obtain rfl := Host.Outcome.next.inj hstep
      exact ⟨List.prefix_rfl, List.prefix_rfl⟩

/-! What a read receives from the reference device. -/

/-- The device byte at every address is known until a cursor has run past the end (log 7). -/
theorem Device.byteAt_known (p : Params) {d : Device} (h : d.lost = false) (x : Nat) :
    ∃ v, d.byteAt p x = some v := by
  unfold Device.byteAt
  rw [h, if_neg Bool.false_ne_true]
  split
  · exact ⟨_, rfl⟩
  · split <;> exact ⟨_, rfl⟩

/-- `pay` is the `k` device bytes from `base` on. -/
structure BytesAt (s : State) (base k : Nat) (pay : List Byte) : Prop where
  length : pay.length = k
  byte : ∀ j < k, devByte s (base + j) = pay[j]?

theorem BytesAt.one {s : State} {base : Nat} {pay : List Byte} (h : BytesAt s base 1 pay) :
    ∃ b0, pay = [b0] ∧ devByte s base = some b0 := by
  obtain ⟨b0, rfl⟩ := List.length_eq_one_iff.1 h.length
  exact ⟨b0, rfl, h.byte 0 (by decide)⟩

theorem BytesAt.two {s : State} {base : Nat} {pay : List Byte} (h : BytesAt s base 2 pay) :
    ∃ b0 b1, pay = [b0, b1] ∧ devByte s base = some b0 ∧ devByte s (base + 1) = some b1 := by
  obtain ⟨b0, b1, rfl⟩ := List.length_eq_two.1 h.length
  exact ⟨b0, b1, rfl, h.byte 0 (by decide), h.byte 1 (by decide)⟩

theorem BytesAt.four {s : State} {base : Nat} {pay : List Byte} (h : BytesAt s base 4 pay) :
    ∃ b0 b1 b2 b3, pay = [b0, b1, b2, b3] ∧ devByte s base = some b0 ∧
      devByte s (base + 1) = some b1 ∧ devByte s (base + 2) = some b2 ∧
      devByte s (base + 3) = some b3 := by
  match pay, h, h.length with
  | [b0, b1, b2, b3], h, _ =>
    exact ⟨b0, b1, b2, b3, rfl, h.byte 0 (by decide), h.byte 1 (by decide), h.byte 2 (by decide),
      h.byte 3 (by decide)⟩

/-- Against the reference device a self-scoped read answers with the payload it received, and each
byte the device answers is received. -/
theorem readOp_reference {s : State} (a : Word) (k : Nat) (hf : s.f = false)
    (hidle : s.scope = .idle) (henv : ReferenceEnv s) :
    ∃ (t : State) (got : List Byte), readOp a k s = .next t ∧
      Responds t 0x00 (leValue (got.drop (3 + s.cfg.rdDummy))) [] ∧
      got.length = 3 + s.cfg.rdDummy + k ∧
      ∀ (j : Nat) (v : Byte), (answers s.cfg (readFrameBytes s.cfg a k) s.turns.tail
        (frameStart s))[j]? = some (some v) → got[j]? = some v := by
  have hallowed : needsIdle s.scope = true := by rw [hidle]; rfl
  obtain ⟨got, u, hrun, hframe, -, hgot⟩ := frame_reference (readFrameBytes s.cfg a k) s henv
  refine ⟨respond statusOk (readValue s.cfg a got) [] u, got, ?_, ?_, ?_, hgot⟩
  · rw [readOp, prologue_runs _ hf hallowed, readTxn, hrun]
    rfl
  · rw [Responds, respond_rsp, readValue, preamble_rd_length]
    rfl
  · rw [hframe.length, readFrameBytes_length]

/-- A self-scoped read away from the read-pointer register answers the device's bytes. -/
theorem readOp_bytesAt {s : State} {a : Word} {k : Nat} (hw : s.cfg.wf) (hf : s.f = false)
    (hidle : s.scope = .idle) (henv : ReferenceEnv s) (hl : s.dev.lost = false)
    (hframable : Framable s.cfg a) (hk : 0 < k) (hrun : PlainRun s.cfg a k) :
    ∃ t pay, readOp a k s = .next t ∧ Responds t 0x00 (leValue pay) [] ∧
      BytesAt s (addrOf a) k pay := by
  obtain ⟨t, got, ht, hrsp, hlen, hgot⟩ := readOp_reference a k hf hidle henv
  obtain ⟨hroom, houtside⟩ := hrun
  have hnotRP : addrOf a ≠ s.cfg.regCmdRead.toNat := by
    have h0 := houtside 0 hk
    omega
  exact ⟨t, _, ht, hrsp, by rw [List.length_drop, hlen]; omega,
    readFrame_got hw hframable hl hroom (fun j hj => .inl (houtside j hj)) (fun _ => hnotRP) hgot⟩

/-- Settles O28: `readOp_bytesAt` at the three widths. -/
theorem readReturnsDeviceBytes : Obligations.ReadReturnsDeviceBytes := by
  intro s a hw hf hidle henv hl hframable
  refine ⟨fun hrun => ?_, fun hrun => ?_, fun hrun => ?_⟩
  · obtain ⟨t, pay, ht, hrsp, hpay⟩ :=
      readOp_bytesAt hw hf hidle henv hl hframable (by decide) hrun
    obtain ⟨b0, rfl, hbytes⟩ := hpay.one
    rw [leValue_one] at hrsp
    exact ⟨t, b0, ht, hrsp, hbytes⟩
  · obtain ⟨t, pay, ht, hrsp, hpay⟩ :=
      readOp_bytesAt hw hf hidle henv hl hframable (by decide) hrun
    obtain ⟨b0, b1, rfl, hbytes⟩ := hpay.two
    rw [leValue_two] at hrsp
    exact ⟨t, b0, b1, ht, hrsp, hbytes⟩
  · obtain ⟨t, pay, ht, hrsp, hpay⟩ :=
      readOp_bytesAt hw hf hidle henv hl hframable (by decide) hrun
    obtain ⟨b0, b1, b2, b3, rfl, hbytes⟩ := hpay.four
    rw [leValue_four] at hrsp
    exact ⟨t, b0, b1, b2, b3, ht, hrsp, hbytes⟩

/-! The read-pointer register. -/

/-- A turn past the end of the list is one at which the coprocessor rests (log 3). -/
theorem consumes_takes (p : Params) (k : Nat) (ts : List Turn) (d : Device) :
    consumes p (takes k ts) d = (ts.take k).foldl (fun d u => d.consume p u.consume) d := by
  induction k generalizing ts d with
  | zero => rfl
  | succ k ih =>
    rw [takes, consumes_cons, ih]
    cases ts with
    | nil => simp [headConsume]
    | cons u us => rfl

/-- What `RP` holds at the third preamble byte: the steps of the first four turns, of which the
first comes before `Sel(1)`. -/
theorem rp_at_third_preamble {s : State} (hraw : s.dev.wpOld = none) :
    (consumes s.cfg (takes 3 s.turns.tail) (frameStart s)).rp =
      ((s.turns.take 4).foldl (fun d u => d.consume s.cfg u.consume) s.dev).rp := by
  have hselect : (consumes s.cfg (takes 3 s.turns.tail) (frameStart s)).rp =
      (consumes s.cfg (takes 3 s.turns.tail)
        (s.dev.consume s.cfg (headConsume s.turns))).rp :=
    consumes_rp_congr _ _ rfl rfl (by rw [Device.consume_wpOld, hraw]; rfl)
  rw [hselect, ← consumes_cons, ← consumes_takes]
  rfl

/-- Settles O55: the value latched at the third preamble byte, `k = 4`. -/
theorem atomicReadReturnsHeldPointer : Obligations.AtomicReadReturnsHeldPointer := by
  intro s hw hatomic hf hidle henv hl hraw hframable
  obtain ⟨t, got, ht, hrsp, hlen, hgot⟩ := readOp_reference (readPtrAddr s.cfg) 4 hf hidle henv
  refine ⟨t, 4, ht, by decide, by omega, ?_⟩
  rwa [readPtr_got hw hatomic hframable hl le_rfl hlen hgot, leValue_payload_four,
    rp_at_third_preamble hraw] at hrsp

/-! The stream reads. -/

/-- A device in the data phase of a read, with no latched byte left, answers the bytes under its
cursor and moves the cursor past them. -/
theorem burst_bytesAt {s : State} {k : Nat} (henv : ReferenceEnv s) (hl : s.dev.lost = false)
    (hphase : s.dev.phase = .rdData) (hlatch : s.dev.latch = []) (hrun : CursorRun s k) :
    ∃ pay t, burst (List.replicate k s.cfg.fill) s = .ok pay t ∧
      BytesAt s s.dev.cur k pay ∧ CursorMoved s t k := by
  obtain ⟨hroom, houtside⟩ := hrun
  have hlen : (List.replicate k s.cfg.fill).length = k := List.length_replicate
  have hread : Reading s.dev (List.replicate k s.cfg.fill).length :=
    ⟨hphase, hl, by rwa [hlen]⟩
  obtain ⟨pay, t, hb, hok, hgot⟩ := burst_reference (List.replicate k s.cfg.fill) s henv
  have hans := answers_read s.cfg _ s.turns s.dev hread hlatch
    (fun j hj => .inl (houtside j (hlen ▸ hj)))
  have hdev := hok.dev
  rw [feed_read s.cfg _ s.turns s.dev hread, hlen, hlatch, List.drop_nil] at hdev
  refine ⟨pay, t, hb, ⟨by rw [hok.length, hlen], fun j hj => ?_⟩, ?_⟩
  · obtain ⟨v, hv⟩ := Device.byteAt_known s.cfg hl (s.dev.cur + j)
    rw [devByte, hv]
    exact (hgot j v (by rw [hans j (hlen.symm ▸ hj), hv])).symm
  · constructor <;> rw [hdev] <;> rfl

theorem needsRdOpen_of_open {s : State} (h : s.scope = .rdOpen) : needsRdOpen s.scope = true := by
  rw [h]; rfl

/-- A scalar stream read answers the device's bytes from its cursor on. -/
theorem streamRead_bytesAt {s : State} {k : Nat} (hf : s.f = false) (hopen : s.scope = .rdOpen)
    (henv : ReferenceEnv s) (hl : s.dev.lost = false) (hphase : s.dev.phase = .rdData)
    (hlatch : s.dev.latch = []) (hrun : CursorRun s k) :
    ∃ t pay, streamRead k s = .next t ∧ Responds t 0x00 (leValue pay) [] ∧
      BytesAt s s.dev.cur k pay ∧ CursorMoved s t k := by
  obtain ⟨pay, u, hb, hbytes, ⟨hcur, hph, hla⟩⟩ := burst_bytesAt henv hl hphase hlatch hrun
  refine ⟨respond statusOk (leValue pay) [] u, pay, ?_, rfl, hbytes, ⟨hcur, hph, hla⟩⟩
  rw [streamRead, prologue_runs _ hf (needsRdOpen_of_open hopen), hb]
  rfl

/-- Settles O33: `streamRead_bytesAt` at the three widths, and the same run for a block. -/
theorem streamReadsReturnDeviceBytes : Obligations.StreamReadsReturnDeviceBytes := by
  intro s hf hopen henv hl hphase hlatch
  refine ⟨fun hrun => ?_, fun hrun => ?_, fun hrun => ?_, fun n hrun => ?_⟩
  · obtain ⟨t, pay, ht, hrsp, hpay, hmoved⟩ :=
      streamRead_bytesAt hf hopen henv hl hphase hlatch hrun
    obtain ⟨b0, rfl, h0⟩ := hpay.one
    rw [leValue_one] at hrsp
    exact ⟨t, b0, ht, hrsp, h0, hmoved⟩
  · obtain ⟨t, pay, ht, hrsp, hpay, hmoved⟩ :=
      streamRead_bytesAt hf hopen henv hl hphase hlatch hrun
    obtain ⟨b0, b1, rfl, h0, h1⟩ := hpay.two
    rw [leValue_two] at hrsp
    exact ⟨t, b0, b1, ht, hrsp, h0, h1, hmoved⟩
  · obtain ⟨t, pay, ht, hrsp, hpay, hmoved⟩ :=
      streamRead_bytesAt hf hopen henv hl hphase hlatch hrun
    obtain ⟨b0, b1, b2, b3, rfl, h0, h1, h2, h3⟩ := hpay.four
    rw [leValue_four] at hrsp
    exact ⟨t, b0, b1, b2, b3, ht, hrsp, h0, h1, h2, h3, hmoved⟩
  · obtain ⟨pay, u, hb, hbytes, ⟨hcur, hph, hla⟩⟩ := burst_bytesAt henv hl hphase hlatch hrun
    refine ⟨respond statusOk n pay u, pay, ?_, rfl, hbytes.length,
      fun j hj => (hbytes.byte j hj).symm, ⟨hcur, hph, hla⟩⟩
    calc exec (.srdblk n) s
        = endStream (burst (List.replicate n.toNat s.cfg.fill) s) (fun got => got)
            (fun got t => respond statusOk n got t) :=
          prologue_runs _ hf (needsRdOpen_of_open hopen)
      _ = .next (respond statusOk n pay u) := by rw [hb]; rfl

end Sys2Proof.Machine

/-! SUPPORT. The request word and what the assembler issues (30_encoding.md R90 to R108): the
decoder reads back what was encoded and is total on every word, the expansions keep the port's
contract, and a calm run of scoped writes is one frame on the bus. -/

namespace Sys2Proof.Machine

/-! The decoder over the three fields. -/

theorem decode_requestWord (op : Byte) (a d : Word) :
    decode (requestWord op a d) = decodeFields op a d := by
  rw [decode, opField_requestWord, aField_requestWord, dField_requestWord]

/-- The opcode map reads an operation from its code and the fields it uses (R92, R96). -/
theorem decodeFields_opcode (i : Instr) (a d : Word) :
    decodeFields (opcode i) (if usesA i then operandA i else a)
      (if usesD i then operandD i else d) = .instr i := by
  cases i <;> rfl

/-- A row of the opcode map gives an operation of that code; past the last row the code is reserved
(R97). -/
theorem decodeFields_cases (op : Byte) (a d : Word) :
    (∃ i, decodeFields op a d = .instr i ∧ opcode i = op) ∨
      decodeFields op a d = .reserved op := by
  unfold decodeFields
  split
  case h_29 => exact .inr rfl
  all_goals next hcode => exact .inl ⟨_, rfl, BitVec.eq_of_toNat_eq hcode.symm⟩

/-- The code of an operation selects one, whatever the other fields hold (R99). -/
theorem decodeFields_opcode_ne_reserved (i : Instr) (a d : Word) (op : Byte) :
    decodeFields (opcode i) a d ≠ .reserved op := by
  cases i <;> nofun

/-- The assembler writes zero where an operation uses no `a` (R107). -/
theorem operandA_eq_ite (i : Instr) : operandA i = if usesA i then operandA i else 0 := by
  cases i <;> rfl

/-- The assembler writes zero where an operation uses no `d` (R107). -/
theorem operandD_eq_ite (i : Instr) : operandD i = if usesD i then operandD i else 0 := by
  cases i <;> rfl

theorem encode_eq_requestWord (i : Instr) :
    encode i = requestWord (opcode i) (if usesA i then operandA i else 0)
      (if usesD i then operandD i else 0) :=
  congrArg₂ (requestWord (opcode i)) (operandA_eq_ite i) (operandD_eq_ite i)

/-- Settles O3: the fields are read back, and the opcode map uses an operation's own. -/
theorem unusedFieldsIgnored : Obligations.UnusedFieldsIgnored := by
  intro i a d
  rw [decode_requestWord]
  exact decodeFields_opcode i a d

/-- Settles O1: the encoding is the word of O3 with zero in the unused fields. -/
theorem decodeEncodeAgree : Obligations.DecodeEncodeAgree := by
  intro i
  rw [encode_eq_requestWord]
  exact unusedFieldsIgnored i 0 0

/-- Settles O2: by the rows of the opcode map; a code that an operation has is in one of them. -/
theorem decodingIsTotal : Obligations.DecodingIsTotal := by
  intro r
  rcases decodeFields_cases (opField r) (aField r) (dField r) with hinstr | hres
  · exact .inl hinstr
  · refine .inr ⟨hres, fun i hi => ?_⟩
    rw [← hi] at hres
    exact decodeFields_opcode_ne_reserved i _ _ _ hres

/-- Settles O4: the count, over the 256 codes. -/
theorem reservedCodesNumber228 : Obligations.ReservedCodesNumber228 := by
  unfold Obligations.ReservedCodesNumber228
  rfl

/-- Settles O5: closed words, evaluated. -/
theorem listedWordsDecode : Obligations.ListedWordsDecode := by
  unfold Obligations.ListedWordsDecode
  decide

/-! The port's contract (10_state.md R31) over the assembler's requests. -/

theorem opcode_eq_swrblk {i : Instr} (h : opcode i = 0x54) : ∃ d, i = .swrblk d := by
  have hdec := decodeFields_opcode i 0 0
  rw [h] at hdec
  exact ⟨_, (Decoded.instr.inj hdec).symm⟩

/-- An operation that is no SWRBLK brings no `WDATA`. -/
theorem asm_wf {i : Instr} (h : ∀ d, i ≠ .swrblk d) : (asm i).wf := by
  have hop : opField (encode i) ≠ 0x54 := by
    rw [encode, opField_requestWord]
    intro hcode
    obtain ⟨d, hd⟩ := opcode_eq_swrblk hcode
    exact h d hd
  exact (if_neg hop).mpr rfl

/-- A run shorter than `2^32` has its length in `d`. -/
theorem asmSwrblk_wf {bytes : List Byte} (h : bytes.length < 2 ^ 32) : (asmSwrblk bytes).wf := by
  have hop : opField (asmSwrblk bytes).req = 0x54 := opField_requestWord _ _ _
  have hd : dField (asmSwrblk bytes).req = BitVec.ofNat 32 bytes.length := dField_requestWord _ _ _
  have hlen : bytes.length = (dField (asmSwrblk bytes).req).toNat := by
    rw [hd, BitVec.toNat_ofNat, Nat.mod_eq_of_lt h]
  exact (if_pos hop).mpr hlen

theorem readN_wf (a : Word) (w : Nat) : ∀ r ∈ readN a w, r.wf := by
  unfold readN
  split_ifs <;> exact List.forall_mem_singleton.mpr (asm_wf nofun)

theorem writeN_wf (a v : Word) (w : Nat) : ∀ r ∈ writeN a v w, r.wf := by
  unfold writeN
  split_ifs <;> exact List.forall_mem_singleton.mpr (asm_wf nofun)

theorem writeBlock_wf (a : Word) {bytes : List Byte} (h : bytes.length < 2 ^ 32) :
    ∀ r ∈ writeBlock a bytes, r.wf :=
  List.forall_mem_cons.mpr ⟨asm_wf nofun, List.forall_mem_cons.mpr
    ⟨asmSwrblk_wf h, List.forall_mem_singleton.mpr (asm_wf nofun)⟩⟩

theorem enq32_wf (p : Params) (w : Nat) (v : Word) : ∀ r ∈ enq32 p w v, r.wf :=
  List.forall_mem_cons.mpr ⟨asm_wf nofun, List.forall_mem_singleton.mpr (asm_wf nofun)⟩

theorem flush_wf (bound : Word) : ∀ r ∈ flush bound, r.wf :=
  List.forall_mem_cons.mpr ⟨asm_wf nofun, List.forall_mem_singleton.mpr (asm_wf nofun)⟩

/-- The two runs of ENQUEUE are no longer than the whole (R108). -/
theorem enqueue_wf (p : Params) (w : Nat) {bytes : List Byte} (h : bytes.length < 2 ^ 32) :
    ∀ r ∈ enqueue p w bytes, r.wf := by
  have htake (t : Nat) : (bytes.take t).length < 2 ^ 32 := by rw [List.length_take]; omega
  have hdrop (t : Nat) : (bytes.drop t).length < 2 ^ 32 := by rw [List.length_drop]; omega
  unfold enqueue
  refine List.forall_mem_append.mpr ⟨List.forall_mem_append.mpr ⟨writeBlock_wf _ (htake _), ?_⟩,
    List.forall_mem_singleton.mpr (asm_wf nofun)⟩
  split
  · exact writeBlock_wf _ (hdrop _)
  · exact List.forall_mem_nil _

/-- Settles O59: expansion by expansion. -/
theorem pseudoOperationsKeepContract : Obligations.PseudoOperationsKeepContract := by
  intro p w a v bound bytes h
  simp only [List.forall_mem_append]
  exact ⟨⟨⟨⟨⟨readN_wf a w, writeN_wf a v w⟩, writeBlock_wf a h⟩, enq32_wf p w v⟩,
    enqueue_wf p w h⟩, flush_wf bound⟩

/-! Scoped writes in a calm environment. -/

/-- Calm OPENRD and OPENWR complete (40_framer.md R130, R131). -/
theorem openOp_calm {dir : Dir} {opened : Scope} {a : Word} {s : State} (n : Nat) (hf : s.f = false)
    (hidle : s.scope = .idle) (hcalm : Calm ((preamble s.cfg dir a).length + 1 + n) s) :
    ∃ got u, openOp dir opened a s = .next (respond statusOk 0 [] { u with scope := opened }) ∧
      OpenOk (preamble s.cfg dir a) got s u ∧ Calm n u := by
  obtain ⟨got, u, hrun, hopen, hrest⟩ := openFrame_calm _ s n hcalm
  have hallowed : needsIdle s.scope = true := by rw [hidle]; rfl
  refine ⟨got, u, ?_, hopen, hrest⟩
  rw [openOp, prologue_runs _ hf hallowed, hrun]
  rfl

/-- A calm stream write completes (40_framer.md R137 to R139). -/
theorem streamWrite_calm (out : List Byte) {s : State} (n : Nat) (hf : s.f = false)
    (hopen : s.scope = .wrOpen) (hcalm : Calm (out.length + n) s) :
    ∃ got u, streamWrite out s = .next (respond statusOk 0 [] u) ∧ BurstOk out got s u ∧
      Calm n u := by
  obtain ⟨got, u, hrun, hburst, hrest⟩ := burst_calm out s n hcalm
  have hallowed : needsWrOpen s.scope = true := by rw [hopen]; rfl
  refine ⟨got, u, ?_, hburst, hrest⟩
  rw [streamWrite, prologue_runs _ hf hallowed, sendBytes, hrun]
  rfl

/-- A CLOSE of an open scope whose turn is calm completes (40_framer.md R132). -/
theorem execClose_calm {s : State} (hf : s.f = false) (hopen : needsOpen s.scope = true)
    (hcalm : Calm 1 s) :
    execClose s =
      .next (respond statusOk 0 [] { setSel false (takeTurn s) with scope := .idle }) := by
  rw [execClose, prologue_runs _ hf hopen, selEvent_clean hcalm.head]
  rfl

theorem exchanges_append {out got : List Byte} (h : got.length = out.length)
    (out' got' : List Byte) :
    exchanges (out ++ out') (got ++ got') = exchanges out got ++ exchanges out' got' :=
  List.zipWith_append h.symm

/-- The four bytes of two SWR16 follow the preamble of OPENWR (R102, R105). -/
theorem busWriteFrame_two_halves (p : Params) (a v w : Word) :
    busWriteFrame p a [v.extractLsb' 0 8, v.extractLsb' 8 8, w.extractLsb' 0 8,
      w.extractLsb' 8 8] = preamble p .wr a ++ (payload v 2 ++ payload w 2) := by
  simp [preamble, addrBytes, preambleWord, deviceAddr, payload, byteOf, List.range_succ]

/-- Settles O36: the nine turns are the opening's four, two for each SWR16, and CLOSE's one. -/
theorem scopedWritesFormOneFrame : Obligations.ScopedWritesFormOneFrame := by
  intro s a v w hf hidle hcalm
  obtain ⟨gotA, u1, hexec1, hok1, hcalm1⟩ :=
    openOp_calm (dir := .wr) (opened := .wrOpen) (a := a) 5 hf hidle (by simpa using hcalm)
  have hf1 : u1.f = false := hok1.same.f.trans hf
  obtain ⟨gotV, u2, hexec2, hok2, hcalm2⟩ :=
    streamWrite_calm (payload v 2) (s := respond statusOk 0 [] { u1 with scope := .wrOpen }) 3 hf1
      rfl hcalm1
  have hf2 : u2.f = false := hok2.same.f.trans hf1
  have hopen2 : u2.scope = .wrOpen := hok2.same.scope
  obtain ⟨gotW, u3, hexec3, hok3, hcalm3⟩ :=
    streamWrite_calm (payload w 2) (s := respond statusOk 0 [] u2) 1 hf2 hopen2 hcalm2
  have hf3 : u3.f = false := hok3.same.f.trans hf2
  have hopen3 : needsOpen u3.scope = true := by rw [hok3.same.scope.trans hopen2]; rfl
  refine ⟨_, _, _, _, gotA ++ (gotV ++ gotW), hexec1, hexec2, hexec3,
    execClose_calm (s := respond statusOk 0 [] u3) hf3 hopen3 hcalm3, ?_, ?_⟩
  · simp [hok1.length, hok2.length, hok3.length]
  · rw [busWriteFrame_two_halves, exchanges_append hok1.length, exchanges_append hok2.length]
    simp [hok3.trace, hok2.trace, hok1.trace]

end Sys2Proof.Machine

/-! SUPPORT. The framer (40_framer.md R121 to R143): what an operation of one frame, the opening, the
closing and a stream run leave in a calm environment, each said once, and the statements about the
framer's operations read off from them. -/

namespace Sys2Proof.Machine

/-! The invalid-width codes. -/

/-- An encoding that is no operation enters the fault of its code, whatever the scope
(60_exceptions.md R187). -/
theorem raiseEncoding_entry {s : State} (code op : Byte) (hf : s.f = false) :
    ∃ t, raiseEncoding code op s = .next t ∧ FaultEntry s t code (op.setWidth 32) := by
  refine ⟨raiseFault code (op.setWidth 32) s, ?_, raiseFault_entry _ _ s⟩
  rw [raiseEncoding, hf]
  rfl

theorem raiseEncoding_faulted {s : State} (code op : Byte) (hf : s.f = true) :
    raiseEncoding code op s = .next (answerFaulted s) := by
  rw [raiseEncoding, hf]
  rfl

/-- Settles O10: the four codes are encodings that are no operation. -/
theorem invalidWidthFaults : Obligations.InvalidWidthFaults := by
  refine fun s => ⟨fun hf => ?_, fun hf => ?_⟩
  · exact ⟨raiseEncoding_entry _ 0x13 hf, raiseEncoding_entry _ 0x23 hf,
      raiseEncoding_entry _ 0x43 hf, raiseEncoding_entry _ 0x53 hf⟩
  · simp only [List.forall_mem_cons]
    exact ⟨raiseEncoding_faulted _ 0x13 hf, raiseEncoding_faulted _ 0x23 hf,
      raiseEncoding_faulted _ 0x43 hf, raiseEncoding_faulted _ 0x53 hf, List.forall_mem_nil _⟩

/-! The last act of a framer operation: the response and the scope. -/

theorem SameBlock.ring_respond {s u : State} (h : SameBlock s u) (st : Byte) (v : Word)
    (rd : List Byte) (sc : Scope) : KeepsRing s (respond st v rd { u with scope := sc }) :=
  ⟨h.cfg, h.w, h.cw, h.lf⟩

theorem SameBlock.fault_respond {s u : State} (h : SameBlock s u) (st : Byte) (v : Word)
    (rd : List Byte) (sc : Scope) : KeepsFault s (respond st v rd { u with scope := sc }) :=
  ⟨h.f, h.fc, h.fi⟩

theorem needsIdle_of_idle {s : State} (h : s.scope = .idle) : needsIdle s.scope = true := by
  rw [h]; rfl

/-! Operations of one frame. -/

/-- A calm operation of one frame runs to its normal end. -/
theorem frameOp_calm {s : State} (out : List Byte) (ok : List Byte → State → State)
    (hf : s.f = false) (hidle : s.scope = .idle) (hcalm : Calm (out.length + 2) s) :
    ∃ got u, prologue needsIdle s (endOwned (frame out s) ok) = .next (ok got u) ∧
      FrameOk out got s u := by
  obtain ⟨got, u, hrun, hframe, -⟩ := frame_calm out s 0 hcalm
  refine ⟨got, u, ?_, hframe⟩
  rw [prologue_runs _ hf (needsIdle_of_idle hidle), hrun]
  rfl

/-- RD8, RD16 and RD32 in one: the value is that of the last `k` bytes received (R122). -/
theorem readOp_calm {s : State} (a : Word) {k n : Nat} (hw : s.cfg.wf) (hf : s.f = false)
    (hidle : s.scope = .idle) (hcalm : Calm n s) (hn : 5 + s.cfg.rdDummy + k = n) :
    ∃ t pay, readOp a k s = .next t ∧ pay.length = k ∧ ReadDone s t a pay (leValue pay) := by
  obtain ⟨got, u, hexec, hframe⟩ := frameOp_calm (readFrameBytes s.cfg a k)
    (fun got t => respond statusOk (readValue s.cfg a got) [] t) hf hidle
    (hcalm.mono (by rw [readFrameBytes_length]; omega))
  have hlen : got.length = 3 + s.cfg.rdDummy + k := by rw [hframe.length, readFrameBytes_length]
  have hpay : (got.drop (3 + s.cfg.rdDummy)).length = k := by rw [List.length_drop]; omega
  refine ⟨_, got.drop (3 + s.cfg.rdDummy), hexec, hpay,
    { trace := ⟨got.take (3 + s.cfg.rdDummy), ?_, ?_⟩
      responds := ?_
      ring := hframe.same.ring_respond _ _ _ u.scope
      fault := hframe.same.fault_respond _ _ _ u.scope
      scope := hframe.same.scope.trans hidle
      sel := hframe.sel
      device := fun hframable hroom => ?_ }⟩
  · rw [List.length_take]; omega
  · rw [List.take_append_drop, hpay, ← readFrameBytes_eq]
    exact hframe.trace
  · rw [Responds, respond_rsp, readValue, preamble_rd_length]
    rfl
  · have hkeeps : KeepsDevice s u := readFrame_keeps hw hframable (hpay ▸ hroom) hframe
    exact hkeeps

/-- Settles O24: `readOp_calm` at the three widths. -/
theorem selfScopedReadsComplete : Obligations.SelfScopedReadsComplete := by
  intro s a hw hf hidle
  refine ⟨fun hcalm => ?_, fun hcalm => ?_, fun hcalm => ?_⟩
  · obtain ⟨t, pay, ht, hlen, hdone⟩ := readOp_calm a (k := 1) hw hf hidle hcalm (by omega)
    obtain ⟨r0, rfl⟩ := List.length_eq_one_iff.1 hlen
    rw [leValue_one] at hdone
    exact ⟨t, r0, ht, hdone⟩
  · obtain ⟨t, pay, ht, hlen, hdone⟩ := readOp_calm a (k := 2) hw hf hidle hcalm (by omega)
    obtain ⟨r0, r1, rfl⟩ := List.length_eq_two.1 hlen
    rw [leValue_two] at hdone
    exact ⟨t, r0, r1, ht, hdone⟩
  · obtain ⟨t, pay, ht, hlen, hdone⟩ := readOp_calm a (k := 4) hw hf hidle hcalm (by omega)
    obtain ⟨r0, r1, r2, r3, rfl⟩ := List.length_eq_four.1 hlen
    rw [leValue_four] at hdone
    exact ⟨t, r0, r1, r2, r3, ht, hdone⟩

/-- WR8, WR16 and WR32 in one (R123); the turns of its frame are used up. -/
theorem writeOp_calm {s : State} (a d : Word) {k n : Nat} (hw : s.cfg.wf) (hf : s.f = false)
    (hidle : s.scope = .idle) (hcalm : Calm n s) (hn : 5 + k = n) :
    ∃ t, writeOp a d k s = .next t ∧ WriteDone s t a (payload d k) ∧
      t.turns = s.turns.drop n := by
  have hlen : (writeFrameBytes s.cfg a d k).length + 2 = n := by
    rw [writeFrameBytes_length]; omega
  obtain ⟨got, u, hexec, hframe⟩ := frameOp_calm (writeFrameBytes s.cfg a d k)
    (fun _ t => respond statusOk 0 [] t) hf hidle (hlen ▸ hcalm)
  refine ⟨_, hexec,
    { trace := ⟨got, ?_, ?_⟩
      responds := rfl
      ring := hframe.same.ring_respond _ _ _ u.scope
      fault := hframe.same.fault_respond _ _ _ u.scope
      scope := hframe.same.scope.trans hidle
      sel := hframe.sel
      device := fun hframable hl hroom => ?_ }, ?_⟩
  · rw [hframe.length, writeFrameBytes_length, payload_length]
  · rw [← writeFrameBytes_eq]
    exact hframe.trace
  · have hstores : StoresAt s u (addrOf a) (payload d k) :=
      writeFrame_stores hw hframable hl hroom hframe
    exact hstores
  · rw [← hlen]
    exact hframe.turns

/-- Settles O25: `writeOp_calm` at the three widths. -/
theorem selfScopedWritesComplete : Obligations.SelfScopedWritesComplete := by
  intro s a d hw hf hidle
  refine ⟨fun hcalm => ?_, fun hcalm => ?_, fun hcalm => ?_⟩
  · obtain ⟨t, ht, hdone, -⟩ := writeOp_calm a d (k := 1) hw hf hidle hcalm rfl
    exact ⟨t, ht, hdone⟩
  · obtain ⟨t, ht, hdone, -⟩ := writeOp_calm a d (k := 2) hw hf hidle hcalm rfl
    exact ⟨t, ht, hdone⟩
  · obtain ⟨t, ht, hdone, -⟩ := writeOp_calm a d (k := 4) hw hf hidle hcalm rfl
    exact ⟨t, ht, hdone⟩

theorem lowByte_eq (v : Word) : lowByte v = v.extractLsb' 0 8 :=
  BitVec.eq_of_toNat_eq (by simp [lowByte])

/-- Settles O26: a frame of three bytes, which stores nothing. -/
theorem hostCommandSendsThreeBytes : Obligations.HostCommandSendsThreeBytes := by
  intro s a d hf hidle hcalm
  obtain ⟨got, u, hexec, hframe⟩ := frameOp_calm (hostFrameBytes s.cfg a d)
    (fun _ t => respond statusOk 0 [] t) hf hidle hcalm
  have hkeeps : KeepsDevice s u := threeByteFrame_keeps hframe
  refine ⟨_, got, hexec, hframe.length, ?_, rfl, hframe.same.ring_respond _ _ _ u.scope,
    hframe.same.fault_respond _ _ _ u.scope, hframe.same.scope.trans hidle, hframe.sel, hkeeps⟩
  rw [← lowByte_eq a, ← lowByte_eq d]
  exact hframe.trace

/-! Streams. -/

/-- Bytes exchanged in a device's write-data phase stand from its cursor on (20_memory.md R72). -/
theorem BurstOk.storesAt {out got : List Byte} {s t : State} (h : BurstOk out got s t)
    (hphase : s.dev.phase = .wrData) (hl : s.dev.lost = false)
    (hroom : s.dev.cur + out.length ≤ deviceSize) : StoresAt s t s.dev.cur out := by
  intro x hx
  obtain ⟨-, -, -, hbyte⟩ := feed_write s.cfg out s.turns s.dev hphase hl hroom
  rw [devByte, h.dev, h.same.cfg]
  exact hbyte x hx

/-- Bytes exchanged in a device's read-data phase change no device byte, known or lost
(20_memory.md R72; log 7, log 22). -/
theorem BurstOk.keepsDevice {out got : List Byte} {s t : State} (h : BurstOk out got s t)
    (hphase : s.dev.phase = .rdData) (hroom : s.dev.cur + out.length ≤ deviceSize) :
    KeepsDevice s t := by
  intro x hx
  rw [devByte, h.dev, h.same.cfg]
  cases hl : s.dev.lost with
  | true => rw [Device.byteAt_lost _ (feed_lost _ _ hl), devByte, Device.byteAt_lost _ hl]
  | false =>
    rw [feed_read _ _ _ _ ⟨hphase, hl, hroom⟩, framed_byteAt]
    exact consumes_byteAt _ _ _ _ (hx.takes out.length 0)

/-- What a calm stream read leaves, `v` its value and `rd` its `RDATA`. -/
theorem BurstOk.readDone {pay : List Byte} {k : Nat} {s u : State}
    (h : BurstOk (List.replicate k s.cfg.fill) pay s u) (v : Word) (rd : List Byte) :
    pay.length = k ∧ StreamReadDone s (respond statusOk v rd u) pay v rd := by
  have hlen : pay.length = k := by rw [h.length, List.length_replicate]
  refine ⟨hlen,
    { trace := ?_
      responds := rfl
      ring := h.same.ring_respond _ _ _ u.scope
      fault := h.same.fault_respond _ _ _ u.scope
      scope := ⟨h.same.scope, h.sel⟩
      device := fun hphase hroom => ?_ }⟩
  · rw [hlen]
    exact h.trace
  · have hkeeps : KeepsDevice s u :=
      h.keepsDevice hphase (by rwa [List.length_replicate, ← hlen])
    exact hkeeps

/-- SRD8, SRD16 and SRD32 in one. -/
theorem streamRead_calm {s : State} {k : Nat} (hf : s.f = false) (hopen : s.scope = .rdOpen)
    (hcalm : Calm k s) :
    ∃ t pay, streamRead k s = .next t ∧ pay.length = k ∧
      StreamReadDone s t pay (leValue pay) [] := by
  obtain ⟨pay, u, hrun, hburst, -⟩ := burst_calm (List.replicate k s.cfg.fill) s 0
    (by rwa [List.length_replicate])
  refine ⟨respond statusOk (leValue pay) [] u, pay, ?_, hburst.readDone _ _⟩
  rw [streamRead, prologue_runs _ hf (needsRdOpen_of_open hopen), hrun]
  rfl

/-- In a read scope SRDBLK is its run of exchanges. -/
theorem execSrdblk_runs {s : State} (n : Word) (hf : s.f = false) (hopen : s.scope = .rdOpen) :
    exec (.srdblk n) s = endStream (burst (List.replicate n.toNat s.cfg.fill) s) (fun got => got)
      (fun got t => respond statusOk n got t) :=
  prologue_runs _ hf (needsRdOpen_of_open hopen)

/-- Settles O32: `streamRead_calm` at the three widths, and the same run for a block. -/
theorem streamReadsComplete : Obligations.StreamReadsComplete := by
  intro s hf hopen
  refine ⟨fun hcalm => ?_, fun hcalm => ?_, fun hcalm => ?_, fun n hcalm => ?_⟩
  · obtain ⟨t, pay, ht, hlen, hdone⟩ := streamRead_calm hf hopen hcalm
    obtain ⟨r0, rfl⟩ := List.length_eq_one_iff.1 hlen
    rw [leValue_one] at hdone
    exact ⟨t, r0, ht, hdone⟩
  · obtain ⟨t, pay, ht, hlen, hdone⟩ := streamRead_calm hf hopen hcalm
    obtain ⟨r0, r1, rfl⟩ := List.length_eq_two.1 hlen
    rw [leValue_two] at hdone
    exact ⟨t, r0, r1, ht, hdone⟩
  · obtain ⟨t, pay, ht, hlen, hdone⟩ := streamRead_calm hf hopen hcalm
    obtain ⟨r0, r1, r2, r3, rfl⟩ := List.length_eq_four.1 hlen
    rw [leValue_four] at hdone
    exact ⟨t, r0, r1, r2, r3, ht, hdone⟩
  · obtain ⟨pay, u, hrun, hburst, -⟩ := burst_calm (List.replicate n.toNat s.cfg.fill) s 0
      (by rwa [List.length_replicate])
    refine ⟨respond statusOk n pay u, pay, ?_, hburst.readDone n pay⟩
    rw [execSrdblk_runs n hf hopen, hrun]
    rfl

/-- Settles O43: the run stops at its `j`-th exchange, each of which sends `FILL`. -/
theorem failedBlockReadDeliversPrefix : Obligations.FailedBlockReadDeliversPrefix := by
  intro s n e j c delivered hf hopen hj hcalm hturn
  obtain ⟨got, b, u, hrun, hlen, hb, hsame, hsel, -, htrace⟩ :=
    burst_fails (List.replicate n.toNat s.cfg.fill) j s (by rwa [List.length_replicate]) hcalm hturn
  obtain rfl : s.cfg.fill = b := by simpa [List.getElem?_replicate, hj] using hb
  rw [List.take_replicate, Nat.min_eq_left hj.le] at htrace
  refine ⟨respond statusTransportFailure e got u, got, ?_, hlen, rfl, htrace,
    hsame.ring_respond _ _ _ u.scope, hsame.fault_respond _ _ _ u.scope, hsame.scope, hsel⟩
  rw [execSrdblk_runs n hf hopen, hrun]
  rfl

/-- What a calm stream write leaves. -/
theorem BurstOk.writeDone {pay got : List Byte} {s u : State} (h : BurstOk pay got s u) :
    StreamWriteDone s (respond statusOk 0 [] u) pay where
  trace := ⟨got, h.length, h.trace⟩
  responds := rfl
  ring := h.same.ring_respond _ _ _ u.scope
  fault := h.same.fault_respond _ _ _ u.scope
  scope := ⟨h.same.scope, h.sel⟩
  device := fun hphase hl hroom => by
    have hstores : StoresAt s u s.dev.cur pay := h.storesAt hphase hl hroom
    exact hstores

/-- SWR8, SWR16 and SWR32 in one; the turns of its exchanges are used up. -/
theorem streamWrite_done (pay : List Byte) {s : State} (hf : s.f = false)
    (hopen : s.scope = .wrOpen) (hcalm : Calm pay.length s) :
    ∃ t, streamWrite pay s = .next t ∧ StreamWriteDone s t pay ∧
      t.turns = s.turns.drop pay.length := by
  obtain ⟨got, u, hexec, hburst, -⟩ := streamWrite_calm pay 0 hf hopen hcalm
  exact ⟨_, hexec, hburst.writeDone, hburst.turns⟩

/-- SWRBLK with `d` bytes on `WDATA` is the stream write of them. -/
theorem execSwrblk_eq {s : State} {d : Word} (hlen : s.wdata.length = d.toNat) :
    exec (.swrblk d) s = streamWrite s.wdata s :=
  congrArg (prologue needsWrOpen s) (if_pos hlen)

/-- Settles O34: `streamWrite_done` for the four payloads. -/
theorem streamWritesComplete : Obligations.StreamWritesComplete := by
  intro s d _ hf hopen
  refine ⟨fun hcalm => ?_, fun hcalm => ?_, fun hcalm => ?_, fun hcalm hlen => ?_⟩
  · obtain ⟨t, ht, hdone, -⟩ := streamWrite_done (payload d 1) hf hopen hcalm
    exact ⟨t, ht, hdone⟩
  · obtain ⟨t, ht, hdone, -⟩ := streamWrite_done (payload d 2) hf hopen hcalm
    exact ⟨t, ht, hdone⟩
  · obtain ⟨t, ht, hdone, -⟩ := streamWrite_done (payload d 4) hf hopen hcalm
    exact ⟨t, ht, hdone⟩
  · obtain ⟨t, ht, hdone, -⟩ := streamWrite_done s.wdata hf hopen (hlen ▸ hcalm)
    exact ⟨t, (execSwrblk_eq hlen).trans ht, hdone⟩

/-! The opening and the closing of a scope. -/

theorem takes_add (k m : Nat) (ts : List Turn) :
    takes (k + m) ts = takes k ts ++ takes m (ts.drop k) := by
  induction k generalizing ts with
  | zero => simp [takes]
  | succ k ih => rw [Nat.succ_add, takes, takes, ih, List.drop_tail, List.cons_append]

theorem Settled.takes_tail {s : State} {x : Nat} (h : Settled s x) (k : Nat) :
    OutsideRP s.cfg x ∨ ∀ n ∈ Machine.takes k s.turns.tail, n = 0 := by
  rw [← List.drop_one]
  exact h.takes k 1

/-- The device stands in the data phase `ph` of a frame opened at `a` (20_memory.md R71); nothing is
latched away from the read-pointer register (R73). -/
structure DataPhase (ph : Phase) (a : Word) (s t : State) : Prop where
  phase : t.dev.phase = ph
  cur : t.dev.cur = addrOf a
  lost : t.dev.lost = s.dev.lost
  latch : addrOf a ≠ s.cfg.regCmdRead.toNat → t.dev.latch = []

/-- A write preamble changes no device byte, framable or not (R71). -/
theorem OpenOk.keepsDevice_wr {a : Word} {got : List Byte} {s t : State}
    (h : OpenOk (preamble s.cfg .wr a) got s t) : KeepsDevice s t := by
  intro x hx
  have hfeed : t.dev = (consumes s.cfg (takes 3 s.turns.tail) (frameStart s)).enterFrame s.cfg
      (preambleWord s.cfg .wr a) := by
    rw [h.dev, preamble, List.append_nil]
    exact feed_preamble _ _ _ _ (frameStart_fields s).1
  rw [devByte, hfeed, h.same.cfg, Device.enterFrame_byteAt,
    consumes_byteAt _ _ _ _ (hx.takes_tail 3), frameStart_byteAt hx]

theorem OpenOk.dataPhase_wr {a : Word} {got : List Byte} {s t : State} (hm : s.cfg.masksOk)
    (hframable : Framable s.cfg a) (h : OpenOk (preamble s.cfg .wr a) got s t) :
    DataPhase .wrData a s t := by
  have hfeed := h.dev
  rw [feed_preamble_wr hm hframable _ (frameStart_fields s).1] at hfeed
  constructor <;> simp [hfeed, frameStart, Device.select]

/-- The device behind a read preamble and its dummies. -/
theorem OpenOk.dev_rd {a : Word} {got : List Byte} {s t : State} (hm : s.cfg.masksOk)
    (hframable : Framable s.cfg a) (h : OpenOk (preamble s.cfg .rd a) got s t) :
    t.dev = framed .rdData (addrOf a)
      ((consumes s.cfg (takes 3 s.turns.tail) (frameStart s)).latchFor s.cfg (deviceAddr a))
      (consumes s.cfg (takes (3 + s.cfg.rdDummy) s.turns.tail) (frameStart s)) := by
  rw [h.dev, feed_preamble_rd hm hframable _ (frameStart_fields s).1, takes_add]

theorem OpenOk.keepsDevice_rd {a : Word} {got : List Byte} {s t : State} (hm : s.cfg.masksOk)
    (hframable : Framable s.cfg a) (h : OpenOk (preamble s.cfg .rd a) got s t) :
    KeepsDevice s t := by
  intro x hx
  rw [devByte, h.dev_rd hm hframable, h.same.cfg, framed_byteAt,
    consumes_byteAt _ _ _ _ (hx.takes_tail _), frameStart_byteAt hx]

/-- Only a read that starts at the read-pointer register latches it (R73). -/
theorem Device.latchFor_eq_nil {p : Params} {a : Word} (d : Device)
    (h : addrOf a ≠ p.regCmdRead.toNat) : d.latchFor p (deviceAddr a) = [] := by
  have hne : deviceAddr a ≠ p.regCmdRead := fun heq => h (congrArg BitVec.toNat heq)
  simp [Device.latchFor, hne]

theorem OpenOk.dataPhase_rd {a : Word} {got : List Byte} {s t : State} (hm : s.cfg.masksOk)
    (hframable : Framable s.cfg a) (h : OpenOk (preamble s.cfg .rd a) got s t) :
    DataPhase .rdData a s t := by
  have hdev := h.dev_rd hm hframable
  refine ⟨by rw [hdev]; rfl, by rw [hdev]; rfl, by simp [hdev, frameStart], fun hne => ?_⟩
  rw [hdev, framed_latch, Device.latchFor_eq_nil _ hne]

/-- Settles O30: what the preamble does to the device, at each of the two openings. -/
theorem openStartsScope : Obligations.OpenStartsScope := by
  intro s a hw hf hidle
  obtain ⟨-, -, -, -, hm, -⟩ := hw
  refine ⟨fun hcalm => ?_, fun hcalm => ?_⟩
  · obtain ⟨got, u, hexec, hok, -⟩ := openOp_calm (dir := .rd) (opened := .rdOpen) (a := a) 0 hf
      hidle (hcalm.mono (by rw [preamble_rd_length]; omega))
    refine ⟨_, got, hexec, hok.length.trans (preamble_rd_length _ _), hok.trace, rfl, hok.sel, rfl,
      hok.same.ring_respond _ _ _ _, hok.same.fault_respond _ _ _ _, fun hframable => ?_⟩
    have hdata := hok.dataPhase_rd hm hframable
    have hkeeps : KeepsDevice s u := hok.keepsDevice_rd hm hframable
    exact ⟨hdata.phase, hdata.cur, hkeeps⟩
  · obtain ⟨got, u, hexec, hok, -⟩ := openOp_calm (dir := .wr) (opened := .wrOpen) (a := a) 0 hf
      hidle hcalm
    have hkeeps : KeepsDevice s u := hok.keepsDevice_wr
    refine ⟨_, got, hexec, hok.length, hok.trace, rfl, hok.sel, rfl,
      hok.same.ring_respond _ _ _ _, hok.same.fault_respond _ _ _ _, hkeeps, fun hframable => ?_⟩
    have hdata := hok.dataPhase_wr hm hframable
    exact ⟨hdata.phase, hdata.cur⟩

theorem needsOpen_of_ne_idle {s : State} (h : s.scope ≠ .idle) : needsOpen s.scope = true := by
  cases hs : s.scope with
  | idle => exact absurd hs h
  | wrOpen => rfl
  | rdOpen => rfl

/-- CLOSE completes unless its turn is a reset (40_framer.md R132, 00_scope.md R12). -/
theorem execClose_noReset {s : State} (hf : s.f = false) (hopen : s.scope ≠ .idle)
    (hturn : NoResetAt 0 s) :
    exec .close s =
      .next (respond statusOk 0 [] { setSel false (takeTurn s) with scope := .idle }) := by
  refine (prologue_runs _ hf (needsOpen_of_ne_idle hopen)).trans ?_
  rw [selEvent_noReset hturn]
  rfl

/-- The end of a frame, complete or not, changes no device byte (20_memory.md R75). -/
theorem released_keepsDevice (s : State) : KeepsDevice s (setSel false (takeTurn s)) := by
  intro x hx
  rw [devByte, setSel_dev, takeTurn_dev, if_neg Bool.false_ne_true, Device.byteAt_deselect]
  exact consumes_byteAt s.cfg [(nextTurn s).consume] s.dev x hx.head

/-- Settles O31: `execClose_noReset`, and the release of the line changes no device byte. -/
theorem closeEndsScope : Obligations.CloseEndsScope := by
  intro s hf hopen hturn
  have hsame := (takeTurn_same s).trans (setSel_same false _)
  have hkeeps := released_keepsDevice s
  exact ⟨_, execClose_noReset hf hopen hturn, rfl, rfl, rfl, rfl, hsame.ring_respond _ _ _ _,
    hsame.fault_respond _ _ _ _, hkeeps⟩

/-! What was written is read back (40_framer.md R143). -/

/-- A device whose data were not lost before a store has them after it (log 7): a byte past the
read-pointer register is still known. -/
theorem StoresAt.known {s t : State} {base : Nat} {bs : List Byte} (h : StoresAt s t base bs)
    (hl : s.dev.lost = false) : t.dev.lost = false := by
  have hbyte := h (s.cfg.regCmdRead.toNat + 4) (.inl (.inr le_rfl))
  by_contra hlost
  rw [devByte, Device.byteAt_lost _ (Bool.eq_true_of_not_eq_false hlost)] at hbyte
  split at hbyte
  · next hin => exact absurd (List.getElem?_eq_none_iff.1 hbyte.symm) (by omega)
  · obtain ⟨v, hv⟩ := Device.byteAt_known s.cfg hl (s.cfg.regCmdRead.toNat + 4)
    exact Option.some_ne_none v (hv.symm.trans hbyte.symm)

/-- The bytes stored clear of the read pointer are the device's bytes there. -/
theorem StoresAt.bytesAt {s t : State} {base : Nat} {bs : List Byte} (h : StoresAt s t base bs)
    (houtside : ∀ j < bs.length, OutsideRP s.cfg (base + j)) : BytesAt t base bs.length bs := by
  refine ⟨rfl, fun j hj => ?_⟩
  rw [h _ (.inl (houtside j hj)), if_pos (by omega), Nat.add_sub_cancel_left]

theorem BytesAt.unique {s : State} {base k : Nat} {xs ys : List Byte} (hx : BytesAt s base k xs)
    (hy : BytesAt s base k ys) : xs = ys := by
  refine List.ext_getElem? fun j => ?_
  by_cases hj : j < k
  · rw [← hx.byte j hj, hy.byte j hj]
  · rw [List.getElem?_eq_none (hx.length.trans_le (not_lt.1 hj)),
      List.getElem?_eq_none (hy.length.trans_le (not_lt.1 hj))]

/-- The `k` low bytes of `d`, written and read at one width. -/
theorem writeOp_then_readOp {s : State} {a : Word} (d : Word) {k : Nat} (hw : s.cfg.wf)
    (hf : s.f = false) (hidle : s.scope = .idle) (henv : ReferenceEnv s) (hl : s.dev.lost = false)
    (hframable : Framable s.cfg a) (hk : 0 < k) (hrun : PlainRun s.cfg a k) :
    ∃ t u, writeOp a d k s = .next t ∧ readOp a k t = .next u ∧
      Responds u 0x00 (leValue (payload d k)) [] := by
  obtain ⟨t, ht, hdone, hturns⟩ := writeOp_calm a d hw hf hidle (henv.calm (5 + k)) rfl
  have hcfg : t.cfg = s.cfg := hdone.ring.cfg
  have hlen : (payload d k).length = k := payload_length d k
  have hstores : StoresAt s t (addrOf a) (payload d k) :=
    hdone.device hframable hl (by rw [hlen]; exact hrun.1)
  have hstored := hstores.bytesAt (by rw [hlen]; exact hrun.2)
  rw [hlen] at hstored
  obtain ⟨u, pay, hu, hrsp, hread⟩ := readOp_bytesAt (hcfg ▸ hw) (hdone.fault.f.trans hf)
    hdone.scope (henv.of_turns hturns) (hstores.known hl) (hcfg ▸ hframable) hk (hcfg ▸ hrun)
  rw [hread.unique hstored] at hrsp
  exact ⟨t, u, ht, hu, hrsp⟩

/-- Settles O29: `writeOp_then_readOp` at the three widths. -/
theorem writeThenReadReturnsData : Obligations.WriteThenReadReturnsData := by
  intro s a d hw hf hidle henv hl hframable
  refine ⟨fun hrun => ?_, fun hrun => ?_, fun hrun => ?_⟩
  · rw [← leValue_payload_one]
    exact writeOp_then_readOp d hw hf hidle henv hl hframable (by decide) hrun
  · rw [← leValue_payload_two]
    exact writeOp_then_readOp d hw hf hidle henv hl hframable (by decide) hrun
  · have hround := writeOp_then_readOp d hw hf hidle henv hl hframable (by decide) hrun
    rwa [leValue_payload_four] at hround

/-- A later state of a run in which the configuration and `F` stayed and turns were only taken. -/
structure Later (s t : State) : Prop where
  cfg : t.cfg = s.cfg
  f : t.f = s.f
  turns : t.turns ⊆ s.turns

theorem Later.trans {s t u : State} (h : Later s t) (k : Later t u) : Later s u :=
  ⟨k.cfg.trans h.cfg, k.f.trans h.f, fun _ hu => h.turns (k.turns hu)⟩

theorem Later.env {s t : State} (h : Later s t) (henv : ReferenceEnv s) : ReferenceEnv t :=
  fun u hu => henv u (h.turns hu)

theorem Later.settled {s t : State} (h : Later s t) {x : Nat} (hx : Settled s x) : Settled t x := by
  rw [Settled, h.cfg]
  exact hx.imp id fun hrest u hu => hrest u (h.turns hu)

/-- What OPENRD and OPENWR at a framable address leave for the stream that follows. -/
structure Opened (sc : Scope) (ph : Phase) (a : Word) (s t : State) : Prop where
  scope : t.scope = sc
  wdata : t.wdata = s.wdata
  later : Later s t
  data : DataPhase ph a s t
  keeps : KeepsDevice s t

theorem OpenOk.opened {out got : List Byte} {sc : Scope} {ph : Phase} {a : Word} {s u : State}
    (h : OpenOk out got s u) (hdata : DataPhase ph a s u) (hkeeps : KeepsDevice s u) :
    Opened sc ph a s (respond statusOk 0 [] { u with scope := sc }) where
  scope := rfl
  wdata := h.same.wdata
  later := ⟨h.same.cfg, h.same.f, fun _ hv => List.mem_of_mem_drop (h.turns ▸ hv)⟩
  data := ⟨hdata.phase, hdata.cur, hdata.lost, hdata.latch⟩
  keeps := hkeeps

theorem openwr_opened {s : State} {a : Word} (hw : s.cfg.wf) (hf : s.f = false)
    (hidle : s.scope = .idle) (henv : ReferenceEnv s) (hframable : Framable s.cfg a) :
    ∃ t, exec (.openwr a) s = .next t ∧ Opened .wrOpen .wrData a s t := by
  obtain ⟨-, -, -, -, hm, -⟩ := hw
  obtain ⟨got, u, hexec, hok, -⟩ := openOp_calm 0 hf hidle (henv.calm _)
  exact ⟨_, hexec, hok.opened (hok.dataPhase_wr hm hframable) hok.keepsDevice_wr⟩

theorem openrd_opened {s : State} {a : Word} (hw : s.cfg.wf) (hf : s.f = false)
    (hidle : s.scope = .idle) (henv : ReferenceEnv s) (hframable : Framable s.cfg a) :
    ∃ t, exec (.openrd a) s = .next t ∧ Opened .rdOpen .rdData a s t := by
  obtain ⟨-, -, -, -, hm, -⟩ := hw
  obtain ⟨got, u, hexec, hok, -⟩ := openOp_calm 0 hf hidle (henv.calm _)
  exact ⟨_, hexec, hok.opened (hok.dataPhase_rd hm hframable) (hok.keepsDevice_rd hm hframable)⟩

/-- CLOSE against the reference device. -/
theorem execClose_later {s : State} (hf : s.f = false) (hopen : s.scope ≠ .idle)
    (henv : ReferenceEnv s) :
    ∃ t, exec .close s = .next t ∧ t.scope = .idle ∧ Later s t ∧ KeepsDevice s t := by
  have hkeeps := released_keepsDevice s
  have hturn : NoResetAt 0 s := fun u b hu hb =>
    Link.noConfusion ((henv u (List.mem_of_getElem? hu)).symm.trans hb)
  exact ⟨_, execClose_noReset hf hopen hturn, rfl,
    ⟨rfl, rfl, fun _ hu => List.mem_of_mem_tail hu⟩, hkeeps⟩

/-- OPENWR, SWRBLK and CLOSE store the block on `WDATA` at the address. -/
theorem writeBlock_stores {s : State} {a n : Word} (hw : s.cfg.wf) (hf : s.f = false)
    (hidle : s.scope = .idle) (henv : ReferenceEnv s) (hl : s.dev.lost = false)
    (hframable : Framable s.cfg a) (hlen : s.wdata.length = n.toNat)
    (hroom : addrOf a + n.toNat ≤ deviceSize) :
    ∃ t1 t2 t3, exec (.openwr a) s = .next t1 ∧ exec (.swrblk n) t1 = .next t2 ∧
      exec .close t2 = .next t3 ∧ t3.scope = .idle ∧ Later s t3 ∧
      StoresAt s t3 (addrOf a) s.wdata := by
  obtain ⟨t1, hexec1, h1⟩ := openwr_opened hw hf hidle henv hframable
  have hlen1 : t1.wdata.length = n.toNat := by rw [h1.wdata, hlen]
  obtain ⟨t2, hexec2, hdone, hturns2⟩ := streamWrite_done t1.wdata (h1.later.f.trans hf) h1.scope
    ((h1.later.env henv).calm _)
  have h2 : Later t1 t2 :=
    ⟨hdone.ring.cfg, hdone.fault.f, fun _ hu => List.mem_of_mem_drop (hturns2 ▸ hu)⟩
  have hopen2 : t2.scope ≠ .idle := by rw [hdone.scope.scope, h1.scope]; nofun
  have hstores2 := hdone.device h1.data.phase (h1.data.lost.trans hl)
    (by rw [h1.data.cur, hlen1]; exact hroom)
  rw [h1.data.cur, h1.wdata] at hstores2
  have h02 := h1.later.trans h2
  obtain ⟨t3, hexec3, hidle3, h3, hkeeps3⟩ :=
    execClose_later (h02.f.trans hf) hopen2 (h02.env henv)
  refine ⟨t1, t2, t3, hexec1, (execSwrblk_eq hlen1).trans hexec2, hexec3, hidle3, h02.trans h3,
    fun x hx => ?_⟩
  rw [hkeeps3 x (h02.settled hx), hstores2 x (h1.later.settled hx), h1.keeps x hx]

/-- `burst_bytesAt`, where a latch left of the frame's start matters only if a byte is read. -/
theorem burst_bytesAt_of_latch {s : State} {k : Nat} (henv : ReferenceEnv s)
    (hl : s.dev.lost = false) (hphase : s.dev.phase = .rdData)
    (hlatch : 0 < k → s.dev.latch = []) (hrun : CursorRun s k) :
    ∃ pay t, burst (List.replicate k s.cfg.fill) s = .ok pay t ∧ BytesAt s s.dev.cur k pay := by
  cases k with
  | zero => exact ⟨[], s, rfl, rfl, nofun⟩
  | succ k =>
    obtain ⟨pay, t, hburst, hbytes, -⟩ :=
      burst_bytesAt henv hl hphase (hlatch k.succ_pos) hrun
    exact ⟨pay, t, hburst, hbytes⟩

/-- OPENRD and SRDBLK return the device bytes at the address. -/
theorem readBlock_bytesAt {s : State} {a n : Word} (hw : s.cfg.wf) (hf : s.f = false)
    (hidle : s.scope = .idle) (henv : ReferenceEnv s) (hl : s.dev.lost = false)
    (hframable : Framable s.cfg a) (hrun : PlainRun s.cfg a n.toNat) :
    ∃ t1 t2 pay, exec (.openrd a) s = .next t1 ∧ exec (.srdblk n) t1 = .next t2 ∧
      Responds t2 0x00 n pay ∧ BytesAt s (addrOf a) n.toNat pay := by
  obtain ⟨t1, hexec1, h1⟩ := openrd_opened hw hf hidle henv hframable
  have hcursor : CursorRun t1 n.toNat := by
    rw [CursorRun, h1.data.cur, h1.later.cfg]
    exact hrun
  obtain ⟨pay, u, hburst, hbytes⟩ := burst_bytesAt_of_latch (h1.later.env henv)
    (h1.data.lost.trans hl) h1.data.phase
    (fun hpos => h1.data.latch (by have := hrun.2 0 hpos; omega)) hcursor
  rw [h1.data.cur] at hbytes
  refine ⟨t1, respond statusOk n pay u, pay, hexec1, ?_, rfl, hbytes.length, fun j hj => ?_⟩
  · rw [execSrdblk_runs n (h1.later.f.trans hf) h1.scope, hburst]
    rfl
  · rw [← h1.keeps _ (.inl (hrun.2 j hj)), hbytes.byte j hj]

/-- Settles O37: `writeBlock_stores`, then `readBlock_bytesAt` of the bytes stored. -/
theorem writeBlockThenReadBlock : Obligations.WriteBlockThenReadBlock := by
  intro s a n hw hf hidle henv hl hframable hlen hrun
  obtain ⟨t1, t2, t3, h1, h2, h3, hidle3, hlater, hstores⟩ :=
    writeBlock_stores hw hf hidle henv hl hframable hlen hrun.1
  have hcfg := hlater.cfg
  obtain ⟨t4, t5, pay, h4, h5, hrsp, hread⟩ := readBlock_bytesAt (s := t3) (hcfg ▸ hw)
    (hlater.f.trans hf) hidle3 (hlater.env henv) (hstores.known hl) (hcfg ▸ hframable)
    (hcfg ▸ hrun)
  have hstored := hstores.bytesAt (by rw [hlen]; exact hrun.2)
  rw [hlen] at hstored
  rw [hread.unique hstored] at hrsp
  exact ⟨t1, t2, t3, t4, t5, h1, h2, h3, h4, h5, hrsp⟩

end Sys2Proof.Machine

/-! SUPPORT. The ring manager (41_ring_manager.md R151 to R165): the ring arithmetic, what the
pointer frames leave in the device, WAITDRAIN's loop taken once, and the statements about the ring
operations read off from them. -/

namespace Sys2Proof.Machine

/-! The ring arithmetic (41_ring_manager.md R151). -/

/-- Moving the writer by `n`, short of a full turn, adds `n` to the ring distance. -/
theorem ringDiff_nextPtr {p : Params} {w r n : Nat} (hr : r < p.c) (hw : w < p.c)
    (hn : ringDiff p w r + n < p.c) : ringDiff p (nextPtr p w n) r = ringDiff p w r + n := by
  unfold nextPtr
  rcases Nat.lt_or_ge w r with hlt | hge
  · have hd : ringDiff p w r = w + p.c - r := ringDiff_of_lt hr hlt
    rw [Nat.mod_eq_of_lt (by omega), ringDiff_of_lt hr (by omega), hd]
    omega
  · have hd : ringDiff p w r = w - r := ringDiff_of_le hw hge
    rcases Nat.lt_or_ge (w + n) p.c with hin | hwrap
    · rw [Nat.mod_eq_of_lt hin, ringDiff_of_le hin (by omega), hd]
      omega
    · have hm : (w + n) % p.c = w + n - p.c := by
        rw [Nat.mod_eq_sub_mod hwrap, Nat.mod_eq_of_lt (by omega)]
      rw [hm, ringDiff_of_lt hr (by omega), hd]
      omega

/-- Natural-number subtraction clamps as R151 asks. -/
theorem freeSpace_eq_sub (p : Params) (r w : Nat) : freeSpace p r w = dist p r w - p.m := by
  unfold freeSpace
  split <;> omega

theorem freeSpace_eq_max {p : Params} (hc : 0 < p.c) (r w : Nat) :
    (freeSpace p r w : Int) = max 0 (((r % p.c : Int) + p.c - w - 1) % p.c - p.m) := by
  have hnonneg := Int.emod_nonneg ((r % p.c : Int) + p.c - w - 1) (b := (p.c : Int)) (by omega)
  have hdist : (dist p r w : Int) = ((r % p.c : Int) + p.c - w - 1) % p.c := by
    unfold dist
    rw [Int.toNat_of_nonneg (by simpa using hnonneg), Int.natCast_mod]
  rw [freeSpace_eq_sub]
  omega

/-- Settles O17: the distance is `C - 1` in an empty ring, and `M` once the reader is `C - 1 - M`
behind. -/
theorem capacityIsRingLessMargin : Obligations.CapacityIsRingLessMargin := by
  intro p w ⟨⟨hm, _⟩, _⟩ hw
  have hempty : ringDiff p w w = 0 := ringDiff_self p w
  have hfull : ringDiff p (nextPtr p w (p.c - 1 - p.m)) w = p.c - 1 - p.m := by
    rw [ringDiff_nextPtr hw hw (by omega), hempty, Nat.zero_add]
  rw [freeSpace_eq_sub, freeSpace_eq_sub, dist_eq hw hw, dist_eq hw (nextPtr_lt (by omega) _ _),
    hempty, hfull]
  omega

/-! Operations without a transport event. -/

theorem anyScope_eq_true (sc : Scope) : anyScope sc = true := by
  cases sc <;> rfl

theorem prologue_faulted {allowed : Scope → Bool} {s : State} (body : Out) (hf : s.f = true) :
    prologue allowed s body = .next (answerFaulted s) :=
  if_pos hf

/-- Settles O12: past the prologue ADVANCE compares `n` with `LF`. -/
theorem advanceRule : Obligations.AdvanceRule := by
  refine fun s n => ⟨prologue_faulted _, fun hf hle => ?_, fun hf hlt => ?_⟩
  · exact (prologue_runs _ hf (anyScope_eq_true _)).trans (if_neg (not_lt.2 hle))
  · exact ⟨_, (prologue_runs _ hf (anyScope_eq_true _)).trans (if_pos hlt),
      raiseFault_entry _ _ s⟩

/-- Settles O13: CURPTR is its prologue and the response. -/
theorem curptrReturnsLocalPointer : Obligations.CurptrReturnsLocalPointer :=
  fun s => ⟨prologue_faulted _, fun hf => prologue_runs _ hf (anyScope_eq_true s.scope)⟩

/-- Settles O14: RINIT is its prologue and the three registers. -/
theorem rinitZeroesRingRegisters : Obligations.RinitZeroesRingRegisters :=
  fun s => ⟨prologue_faulted _, fun hf => prologue_runs _ hf (anyScope_eq_true s.scope)⟩

/-! The coupling as a property of the device alone (20_memory.md R76). -/

/-- The read pointer `r` is a ring offset, not past `WP` on its way to `W`, and at most `n` bytes
behind `W`. -/
structure ReaderWithin (p : Params) (wp w n : Nat) (r : Word) : Prop where
  lt : r.toNat < p.c
  order : ringDiff p wp r.toNat ≤ ringDiff p w r.toNat
  used_le : ringDiff p w r.toNat ≤ n

/-- The coprocessor stops at `WP`, which it meets before `W` (R74). -/
theorem ReaderWithin.consume {p : Params} {w n k : Nat} {d : Device} (hc : p.c ≤ deviceSize)
    (hw : w < p.c) (h : ReaderWithin p d.wp.toNat w n d.rp) :
    ReaderWithin p d.wp.toNat w n (d.consume p k).rp := by
  obtain ⟨hlt, horder, hused⟩ := h
  rcases Device.consume_spec p k d hc with hsame | ⟨-, hk, hwp, -, hrp, hlt'⟩
  · rw [hsame]
    exact ⟨hlt, horder, hused⟩
  · have htoWP := ringDiff_advance hlt hwp hk
    have htoW := ringDiff_advance hlt hw (hk.trans horder)
    rw [← hrp] at htoWP htoW
    exact ⟨hlt', by omega, by omega⟩

/-- What the coupling invariant says of the device, at most `n` bytes being in use. -/
structure RingDevice (p : Params) (cw w n : Nat) (d : Device) : Prop where
  wp_eq : d.wp.toNat = cw
  known : d.lost = false
  untouched : d.wpOld = none
  reader : ReaderWithin p cw w n d.rp

theorem RingDevice.of_eq {p : Params} {cw w n : Nat} {d e : Device} (h : RingDevice p cw w n d)
    (hwp : e.wp = d.wp) (hrp : e.rp = d.rp) (hl : e.lost = d.lost) (ho : e.wpOld = none) :
    RingDevice p cw w n e :=
  ⟨hwp ▸ h.wp_eq, hl.trans h.known, ho, hrp ▸ h.reader⟩

theorem RingDevice.consume {p : Params} {cw w n : Nat} {d : Device} (h : RingDevice p cw w n d)
    (hc : p.c ≤ deviceSize) (hw : w < p.c) (k : Nat) : RingDevice p cw w n (d.consume p k) := by
  obtain ⟨rfl, hl, ho, hr⟩ := h
  exact ⟨by simp, by simpa, by simpa, hr.consume hc hw⟩

theorem RingDevice.consumes {p : Params} {cw w n : Nat} {d : Device} (h : RingDevice p cw w n d)
    (hc : p.c ≤ deviceSize) (hw : w < p.c) (ks : List Nat) :
    RingDevice p cw w n (consumes p ks d) := by
  induction ks generalizing d with
  | nil => exact h
  | cons k ks ih => exact ih (h.consume hc hw k)

theorem RingDevice.mono {p : Params} {cw w n m : Nat} {d : Device} (h : RingDevice p cw w n d)
    (hnm : n ≤ m) : RingDevice p cw w m d :=
  ⟨h.wp_eq, h.known, h.untouched, h.reader.lt, h.reader.order, h.reader.used_le.trans hnm⟩

/-- The bytes in use now bound those in use later. -/
theorem RingDevice.tighten {p : Params} {cw w n : Nat} {d : Device} (h : RingDevice p cw w n d) :
    RingDevice p cw w (ringDiff p w d.rp.toNat) d :=
  ⟨h.wp_eq, h.known, h.untouched, h.reader.lt, h.reader.order, le_rfl⟩

theorem Coupled.ringDevice {s : State} (h : Coupled s) :
    RingDevice s.cfg s.cw s.w (usedBytes s) s.dev :=
  ⟨h.wp_eq, h.device_known, h.wp_untouched, h.rp_lt, h.wp_eq ▸ h.order, le_rfl⟩

/-- The two properties together, from what the device and the registers are. -/
theorem RingDevice.coupled {t : State} {n : Nat} (h : RingDevice t.cfg t.cw t.w n t.dev)
    (hw : t.w < t.cfg.c) (hcw : t.cw < t.cfg.c) (hroom : n + t.lf + t.cfg.m + 1 ≤ t.cfg.c) :
    Coupled t ∧ NoOverrun t := by
  have hused : usedBytes t ≤ n := h.reader.used_le
  exact ⟨⟨hw, hcw, h.reader.lt, h.wp_eq, h.wp_eq.symm ▸ h.reader.order, h.known, h.untouched⟩,
    by unfold NoOverrun; omega⟩

/-- The two properties are kept where the ring registers are and the device only lets the
coprocessor step. -/
theorem Coupled.of_keeps {s t : State} (hc : Coupled s) (hn : NoOverrun s) (hk : KeepsRing s t)
    (hd : RingDevice s.cfg s.cw s.w (usedBytes s) t.dev) : Coupled t ∧ NoOverrun t := by
  obtain ⟨hcfg, hw, hcw, hlf⟩ := hk
  refine RingDevice.coupled (n := usedBytes s) (by rwa [hcfg, hw, hcw]) ?_ ?_ ?_
  · rw [hcfg, hw]; exact hc.w_lt
  · rw [hcfg, hcw]; exact hc.cw_lt
  · rw [hcfg, hlf]; exact hn

/-- Settles O23: a step of the coprocessor is one of those `RingDevice.consume` allows. -/
theorem coprocessorKeepsCoupling : Obligations.CoprocessorKeepsCoupling := by
  intro s t n rest ⟨⟨_, hc⟩, _⟩ hcoupled hroom hin hstep
  obtain rfl := Host.Outcome.next.inj ((step_coprocessor hin).symm.trans hstep)
  exact hcoupled.of_keeps hroom ⟨rfl, rfl, rfl, rfl⟩
    (hcoupled.ringDevice.consume hc hcoupled.w_lt n)

/-! The frame that reads the pointer register (41_ring_manager.md R150). -/

/-- The device when the third preamble byte of a frame has arrived, before it is taken. -/
def atLatch (s : State) : Device := consumes s.cfg (takes 3 s.turns.tail) (frameStart s)

/-- After the latch a read frame only lets the coprocessor step, and is released. -/
theorem readFrame_dev {s t : State} {a : Word} {k : Nat} {got : List Byte} (hm : s.cfg.masksOk)
    (hf : Framable s.cfg a) (hl : s.dev.lost = false) (hroom : addrOf a + k ≤ deviceSize)
    (h : FrameOk (readFrameBytes s.cfg a k) got s t) :
    ∃ ks cur latch,
      t.dev = (framed .rdData cur latch (consumes s.cfg ks (atLatch s))).deselect := by
  obtain ⟨hphase, -, -, -, hlost, -⟩ := frameStart_fields s
  have hfeed := feed_readFrame hm hf hroom s.turns.tail hphase (hlost.trans hl)
  rw [consumes_append, consumes_append] at hfeed
  generalize List.drop k _ = latch at hfeed
  refine ⟨takes s.cfg.rdDummy (s.turns.tail.drop 3) ++
    takes k (s.turns.tail.drop (3 + s.cfg.rdDummy)) ++
    [headConsume (s.turns.drop ((readFrameBytes s.cfg a k).length + 1))], addrOf a + k,
    latch, ?_⟩
  rw [h.dev, frameEnd, hfeed, consume_framed, consumes_append, consumes_append]
  rfl

theorem RingDevice.atLatch {s : State} {n : Nat} (h : RingDevice s.cfg s.cw s.w n s.dev)
    (hc : s.cfg.c ≤ deviceSize) (hw : s.w < s.cfg.c) :
    RingDevice s.cfg s.cw s.w n (atLatch s) := by
  have hstart := (h.consume hc hw (nextTurn s).consume).of_eq (e := frameStart s) rfl rfl rfl rfl
  exact hstart.consumes hc hw _

/-- A poll of the pointer register that ran to its end. -/
abbrev PollOk (got : List Byte) (s t : State) : Prop :=
  FrameOk (readFrameBytes s.cfg (readPtrAddr s.cfg) (xferBytes s.cfg)) got s t

theorem readPtr_room {p : Params} (hw : p.wf) :
    addrOf (readPtrAddr p) + xferBytes p ≤ deviceSize := by
  obtain ⟨-, -, ⟨-, hfit⟩, -⟩ := hw
  have hk := xferBytes_le p
  rw [readPtrAddr, addrOf_register]
  omega

/-- A poll of the pointer register against the reference device answers a value the read pointer
held, and the bytes in use are at most those counted from it. -/
theorem readPtrTxn_coupled {s : State} {n : Nat} (hw : s.cfg.wf)
    (hatomic : s.cfg.regReadAtomic = true) (hframable : Framable s.cfg (readPtrAddr s.cfg))
    (henv : ReferenceEnv s) (hring : RingDevice s.cfg s.cw s.w n s.dev) (hlt : s.w < s.cfg.c) :
    ∃ got t, readPtrTxn s = .ok got t ∧ PollOk got s t ∧ ReferenceEnv t ∧
      ReaderWithin s.cfg s.cw s.w n (readPtrValue s.cfg got) ∧
      RingDevice s.cfg s.cw s.w (ringDiff s.cfg s.w (readPtrValue s.cfg got).toNat) t.dev := by
  obtain ⟨⟨-, hc⟩, -, -, -, hm, hwide⟩ := id hw
  obtain ⟨got, t, hrun, hframe, henv', hgot⟩ :=
    frame_reference (readFrameBytes s.cfg (readPtrAddr s.cfg) (xferBytes s.cfg)) s henv
  have hlatch := hring.atLatch hc hlt
  have hvalue : readPtrValue s.cfg got = (atLatch s).rp := by
    have hlen : got.length = 3 + s.cfg.rdDummy + xferBytes s.cfg := by
      rw [hframe.length, readFrameBytes_length]
    rw [readPtrValue_eq, pollValue,
      readPtr_got hw hatomic hframable hring.known (xferBytes_le _) hlen hgot]
    exact leValue_payload_xfer (hlatch.reader.lt.trans_le hwide)
  obtain ⟨ks, cur, latch, hdev⟩ :=
    readFrame_dev hm hframable hring.known (readPtr_room hw) hframe
  refine ⟨got, t, hrun, hframe, henv', hvalue ▸ hlatch.reader, ?_⟩
  rw [hvalue, hdev]
  exact (hlatch.tighten.consumes hc hlt ks).of_eq rfl rfl rfl rfl

/-! Operations that keep the coupling. -/

theorem Coupled.raiseFault {s : State} (hc : Coupled s) (hn : NoOverrun s) (code : Byte)
    (info : Word) : Coupled (raiseFault code info s) ∧ NoOverrun (raiseFault code info s) := by
  obtain ⟨-, -, -, -, hring, -, -, -, -, hrp, hwp⟩ := raiseFault_entry code info s
  have hdev := raiseFault_dev s code info
  refine hc.of_keeps hn hring (hc.ringDevice.of_eq hwp hrp ?_ ?_)
  · rw [hdev]; split <;> rfl
  · rw [hdev]; split
    · exact hc.wp_untouched
    · rfl

/-- Past the prologue's own answers it is enough to look at the operation's rule. -/
theorem prologue_coupled {allowed : Scope → Bool} {s t : State} {body : Out} (hc : Coupled s)
    (hn : NoOverrun s) (h : prologue allowed s body = .next t)
    (hbody : body = .next t → Coupled t ∧ NoOverrun t) : Coupled t ∧ NoOverrun t := by
  rcases prologue_cases allowed s body with ⟨-, hp⟩ | ⟨-, -, hp⟩ | ⟨-, -, hp⟩
  · obtain rfl := Host.Outcome.next.inj (hp.symm.trans h)
    exact hc.of_keeps hn ⟨rfl, rfl, rfl, rfl⟩ hc.ringDevice
  · obtain rfl := Host.Outcome.next.inj (hp.symm.trans h)
    exact hc.raiseFault hn _ _
  · exact hbody (hp.symm.trans h)

/-- ADVANCE moves the bytes it takes from `LF` to those in use (41_ring_manager.md R154). -/
theorem execAdvance_coupled {s t : State} {d : Word} (hc : Coupled s) (hn : NoOverrun s)
    (h : execAdvance d s = .next t) : Coupled t ∧ NoOverrun t := by
  refine prologue_coupled hc hn h fun hb => ?_
  split at hb
  · obtain rfl := Host.Outcome.next.inj hb
    exact hc.raiseFault hn _ _
  · next hle =>
    obtain rfl := Host.Outcome.next.inj hb
    have hw : nextPtr s.cfg s.w d.toNat < s.cfg.c := nextPtr_lt (Nat.zero_lt_of_lt hc.w_lt) _ _
    have hroom : usedBytes s + s.lf + s.cfg.m + 1 ≤ s.cfg.c := hn
    have hlt : usedBytes s + d.toNat < s.cfg.c := by omega
    have hused : ringDiff s.cfg (nextPtr s.cfg s.w d.toNat) s.dev.rp.toNat =
        usedBytes s + d.toNat := ringDiff_nextPtr hc.rp_lt hc.w_lt hlt
    have horder := hc.wp_eq ▸ hc.order
    exact RingDevice.coupled (n := usedBytes s + d.toNat)
      ⟨hc.wp_eq, hc.device_known, hc.wp_untouched, hc.rp_lt, by simp [hused]; omega, hused.le⟩
      hw hc.cw_lt (by simp only [respond_lf, respond_cfg]; omega)

theorem execCurptr_coupled {s t : State} (hc : Coupled s) (hn : NoOverrun s)
    (h : execCurptr s = .next t) : Coupled t ∧ NoOverrun t := by
  refine prologue_coupled hc hn h fun hb => ?_
  obtain rfl := Host.Outcome.next.inj hb
  exact hc.of_keeps hn ⟨rfl, rfl, rfl, rfl⟩ hc.ringDevice

/-- FREE leaves in `LF` what is free beside the bytes in use at the value read, and the reader has
only moved on since (41_ring_manager.md R152, R164). -/
theorem execFree_coupled {s t : State} (hw : s.cfg.wf) (hatomic : s.cfg.regReadAtomic = true)
    (hframable : Framable s.cfg (readPtrAddr s.cfg)) (henv : ReferenceEnv s) (hc : Coupled s)
    (hn : NoOverrun s) (h : execFree s = .next t) : Coupled t ∧ NoOverrun t := by
  refine prologue_coupled hc hn h fun hb => ?_
  obtain ⟨got, u, hrun, hframe, -, hvalue, hring⟩ :=
    readPtrTxn_coupled hw hatomic hframable henv hc.ringDevice hc.w_lt
  rw [hrun] at hb
  obtain rfl := Host.Outcome.next.inj hb
  obtain ⟨hcfg, huw, hucw, -⟩ := hframe.same.ring
  have hdist := dist_eq hvalue.lt hc.w_lt
  have hlt := ringDiff_lt hc.w_lt hvalue.lt
  have hused := hvalue.used_le
  refine RingDevice.coupled
    (n := ringDiff s.cfg s.w (readPtrValue s.cfg got).toNat) ?_ ?_ ?_ ?_
  · simpa [hcfg, huw, hucw] using hring
  · simpa [hcfg, huw] using hc.w_lt
  · simpa [hcfg, hucw] using hc.cw_lt
  · simp only [respond_lf, respond_cfg, hcfg, huw, freeSpace_eq_sub, hdist]
    unfold NoOverrun at hn
    omega

/-! WAITDRAIN's loop, taken once (41_ring_manager.md R160). -/

/-- What some polls of the pointer register, each with the bytes it received, leave. -/
structure Polled (s u : State) (polls : List (List Byte)) : Prop where
  same : SameBlock s u
  sel : polls ≠ [] → u.sel = false
  lengths : ∀ got ∈ polls, got.length = 3 + s.cfg.rdDummy + xferBytes s.cfg
  trace : u.trace = s.trace ++ pollTrace s.cfg polls
  turns : u.turns ⊆ s.turns
  device : s.cfg.wf → Framable s.cfg (readPtrAddr s.cfg) → KeepsDevice s u

theorem PollOk.polled {s t : State} {got : List Byte} (h : PollOk got s t) : Polled s t [got] where
  same := h.same
  sel _ := h.sel
  lengths := by
    rw [List.forall_mem_singleton, h.length, readFrameBytes_length]
  trace := by rw [pollTrace_one, h.trace, List.append_assoc, List.cons_append]
  turns _ hu := List.mem_of_mem_drop (h.turns ▸ hu)
  device hw hframable := readFrame_keeps hw hframable (readPtr_room hw) h

theorem Polled.append {s t u : State} {xs ys : List (List Byte)} (h : Polled s t xs)
    (k : Polled t u ys) (hys : ys ≠ []) : Polled s u (xs ++ ys) := by
  have hcfg : t.cfg = s.cfg := h.same.cfg
  have hlater : Later s t := ⟨hcfg, h.same.f, h.turns⟩
  refine ⟨h.same.trans k.same, fun _ => k.sel hys, fun got hgot => ?_, ?_,
    fun _ hv => h.turns (k.turns hv), fun hw hframable x hx => ?_⟩
  · rcases List.mem_append.1 hgot with hx | hy
    · exact h.lengths got hx
    · rw [← hcfg]; exact k.lengths got hy
  · rw [k.trace, h.trace, hcfg, List.append_assoc, pollTrace, pollTrace, pollTrace,
      List.flatMap_append]
  · rw [k.device (hcfg ▸ hw) (hcfg ▸ hframable) x (hlater.settled hx),
      h.device hw hframable x hx]

/-- How WAITDRAIN answers after polls `earlier` and `last`, of which `bound` may be re-polls and `i`
were made before: equal pointers, or the bound used up. -/
structure DrainAnswer (s : State) (bound i : Nat) (earlier : List (List Byte)) (last : List Byte)
    (st : Byte) (v : Word) : Prop where
  unequal : ∀ got ∈ earlier, pollValue s.cfg got ≠ zext32 s.cw
  atMost : earlier.length ≤ bound
  answer : if pollValue s.cfg last = zext32 s.cw then
      st = statusOk ∧ v = zext32 (i + earlier.length)
    else earlier.length = bound ∧ st = statusDrainTimeout ∧ v = pollValue s.cfg last

theorem DrainAnswer.cons {s t : State} {bound i : Nat} {got last : List Byte}
    {earlier : List (List Byte)} {st : Byte} {v : Word} (hs : SameBlock s t)
    (hne : pollValue s.cfg got ≠ zext32 s.cw)
    (h : DrainAnswer t bound (i + 1) earlier last st v) :
    DrainAnswer s (bound + 1) i (got :: earlier) last st v := by
  obtain ⟨hun, hle, hans⟩ := h
  rw [hs.cfg, hs.cw] at hun hans
  refine ⟨List.forall_mem_cons.2 ⟨hne, hun⟩, Nat.succ_le_succ hle, ?_⟩
  rw [List.length_cons, Nat.add_right_cancel_iff]
  rwa [Nat.add_assoc, Nat.add_comm 1] at hans

theorem DrainAnswer.equal {s : State} {bound i : Nat} {got : List Byte}
    (hv : pollValue s.cfg got = zext32 s.cw) :
    DrainAnswer s bound i [] got statusOk (zext32 i) :=
  ⟨List.forall_mem_nil _, Nat.zero_le _, by rw [if_pos hv]; exact ⟨rfl, rfl⟩⟩

theorem DrainAnswer.timeout {s : State} {i : Nat} {got : List Byte}
    (hv : pollValue s.cfg got ≠ zext32 s.cw) :
    DrainAnswer s 0 i [] got statusDrainTimeout (pollValue s.cfg got) :=
  ⟨List.forall_mem_nil _, le_rfl, by rw [if_neg hv]; exact ⟨rfl, rfl, rfl⟩⟩

section loop
variable {left i : Nat} {s t : State} {got : List Byte} (h : readPtrTxn s = .ok got t)
  (hok : PollOk got s t)
include h hok

theorem pollLoop_equal (hv : pollValue s.cfg got = zext32 s.cw) :
    pollLoop left i s = .next (respond statusOk (zext32 i) [] t) := by
  rw [← readPtrValue_eq, ← hok.same.cw] at hv
  unfold pollLoop
  simp only [h, hv, if_true]

theorem pollLoop_timeout (hv : pollValue s.cfg got ≠ zext32 s.cw) :
    pollLoop 0 i s = .next (respond statusDrainTimeout (pollValue s.cfg got) [] t) := by
  rw [← readPtrValue_eq] at hv ⊢
  rw [← hok.same.cw] at hv
  unfold pollLoop
  simp only [h, hv, if_false]

theorem pollLoop_again (hv : pollValue s.cfg got ≠ zext32 s.cw) :
    pollLoop (left + 1) i s = pollLoop left (i + 1) t := by
  rw [← readPtrValue_eq, ← hok.same.cw] at hv
  conv_lhs => unfold pollLoop
  simp only [h, hv, if_false]

end loop

/-- The loop where every poll succeeds: `P n` holds before a poll from which on `n` polls are
allowed, and `Q` of the bytes each receives. -/
theorem pollLoop_runs {P : Nat → State → Prop} {Q : List Byte → Prop}
    (hpoll : ∀ n u, P (n + 1) u →
      ∃ got v, readPtrTxn u = .ok got v ∧ PollOk got u v ∧ Q got ∧ P n v)
    (left i : Nat) (s : State) (h : P (left + 1) s) :
    ∃ n u earlier last st v, pollLoop left i s = .next (respond st v [] u) ∧ P n u ∧
      Polled s u (earlier ++ [last]) ∧ (∀ got ∈ earlier ++ [last], Q got) ∧
      DrainAnswer s left i earlier last st v := by
  induction left generalizing i s with
  | zero =>
    obtain ⟨got, t, hrun, hok, hq, hp⟩ := hpoll _ s h
    have hq1 : ∀ x ∈ [got], Q x := List.forall_mem_singleton.2 hq
    by_cases hv : pollValue s.cfg got = zext32 s.cw
    · exact ⟨_, t, [], got, _, _, pollLoop_equal hrun hok hv, hp, hok.polled, hq1, .equal hv⟩
    · exact ⟨_, t, [], got, _, _, pollLoop_timeout hrun hok hv, hp, hok.polled, hq1,
        .timeout hv⟩
  | succ left ih =>
    obtain ⟨got, t, hrun, hok, hq, hp⟩ := hpoll _ s h
    by_cases hv : pollValue s.cfg got = zext32 s.cw
    · exact ⟨_, t, [], got, _, _, pollLoop_equal hrun hok hv, hp, hok.polled,
        List.forall_mem_singleton.2 hq, .equal hv⟩
    · obtain ⟨n, u, earlier, last, st, v, hloop, hpn, hpolled, hqs, hans⟩ := ih (i + 1) t hp
      exact ⟨n, u, got :: earlier, last, st, v, (pollLoop_again hrun hok hv).trans hloop, hpn,
        hok.polled.append hpolled (by simp), List.forall_mem_cons.2 ⟨hq, hqs⟩,
        hans.cons hok.same hv⟩

/-- A state that polls have led to from a coupled one. -/
structure PolledCoupled (s u : State) : Prop where
  same : SameBlock s u
  env : ReferenceEnv u
  ring : RingDevice s.cfg s.cw s.w (usedBytes s) u.dev

theorem PolledCoupled.poll {s u : State} (hw : s.cfg.wf) (hatomic : s.cfg.regReadAtomic = true)
    (hframable : Framable s.cfg (readPtrAddr s.cfg)) (hlt : s.w < s.cfg.c)
    (h : PolledCoupled s u) :
    ∃ got v, readPtrTxn u = .ok got v ∧ PollOk got u v ∧ True ∧ PolledCoupled s v := by
  obtain ⟨hsame, henv, hring⟩ := h
  obtain ⟨hcfg, huw, hucw, -⟩ := hsame.ring
  rw [← hcfg] at hw hatomic hframable hlt
  rw [← hcfg, ← huw, ← hucw] at hring
  obtain ⟨got, v, hrun, hok, henv', hvalue, hring'⟩ :=
    readPtrTxn_coupled hw hatomic hframable henv hring (huw ▸ hlt)
  have hring'' := hring'.mono hvalue.used_le
  rw [hcfg, huw, hucw] at hring''
  exact ⟨got, v, hrun, hok, trivial, hsame.trans hok.same, henv', hring''⟩

/-- WAITDRAIN only reads, and lets the coprocessor step. -/
theorem execWaitdrain_coupled {s t : State} {d : Word} (hw : s.cfg.wf)
    (hatomic : s.cfg.regReadAtomic = true) (hframable : Framable s.cfg (readPtrAddr s.cfg))
    (henv : ReferenceEnv s) (hc : Coupled s) (hn : NoOverrun s) (h : execWaitdrain d s = .next t) :
    Coupled t ∧ NoOverrun t := by
  refine prologue_coupled hc hn h fun hb => ?_
  have hpoll := fun (_ : Nat) u => PolledCoupled.poll (u := u) hw hatomic hframable hc.w_lt
  obtain ⟨-, u, -, -, st, v, hloop, hu, -⟩ :=
    pollLoop_runs (P := fun _ => PolledCoupled s) hpoll d.toNat 0 s
      ⟨.refl s, henv, hc.ringDevice⟩
  obtain rfl := Host.Outcome.next.inj (hloop.symm.trans hb)
  exact hc.of_keeps hn ⟨hu.same.cfg, hu.same.w, hu.same.cw, hu.same.lf⟩ hu.ring

/-! The frame that writes the pointer register (41_ring_manager.md R158). -/

/-- What COMMIT sends between `S1` and `S0`. -/
abbrev commitBytes (s : State) : List Byte :=
  writeFrameBytes s.cfg (writePtrAddr s.cfg) (zext32 s.w) (xferBytes s.cfg)

/-- A byte of the write-pointer register is none of the read-pointer register (00_scope.md R6). -/
theorem regOffset_writePtr {p : Params} (hw : p.wf) {i : Nat} (hi : i < 4) :
    regOffset p.regCmdRead (p.regCmdWrite.toNat + i) = none ∧
      regOffset p.regCmdWrite (p.regCmdWrite.toNat + i) = some i := by
  obtain ⟨-, -, -, ⟨hdisj, -⟩, -⟩ := hw
  refine ⟨regOffset_eq_none.2 (by omega), ?_⟩
  rw [regOffset, if_pos (by omega), Nat.add_sub_cancel_left]

/-- The first `j` bytes of `new` have been stored into the write-pointer register, which held `old`
before the frame, and the cursor is at the next. -/
structure Storing (p : Params) (old new : Word) (j : Nat) (d : Device) : Prop where
  phase : d.phase = .wrData
  known : d.lost = false
  cur : d.cur = p.regCmdWrite.toNat + j
  bytes : ∀ i < 4, byteOf d.wp i = byteOf (if i < j then new else old) i
  wpOld : d.wpOld = if j = 0 then none else some old
  mask : ∀ i < 4, d.wpMask.getLsbD i = decide (i < j)

theorem Storing.before {p : Params} {old new : Word} {j : Nat} {d : Device}
    (h : Storing p old new j d) : d.wpOld.getD d.wp = old := by
  rw [h.wpOld]
  split
  · next hj =>
    subst hj
    exact word_ext fun i hi => by simpa using h.bytes i hi
  · rfl

theorem Storing.consume {p : Params} {old new : Word} {j : Nat} {d : Device}
    (h : Storing p old new j d) (k : Nat) : Storing p old new j (d.consume p k) := by
  obtain ⟨h1, h2, h3, h4, h5, h6⟩ := h
  constructor <;> simpa

theorem mask_or_bit (m : BitVec 4) {i j : Nat} (hi : i < 4) (hj : j < 4) :
    (m ||| (1 <<< j)).getLsbD i = (m.getLsbD i || decide (i = j)) := by
  rw [BitVec.getLsbD_or]
  congr 1
  interval_cases j <;> interval_cases i <;> rfl

/-- An exchange inside the write-pointer register stores its byte there and nothing else (R72). -/
theorem Storing.exchange_eq {p : Params} (hw : p.wf) {old new : Word} {j : Nat} {d : Device}
    (h : Storing p old new j d) (hj : j < 4) (b : Byte) :
    (d.exchange p b).1 =
      { d with
        wp := withByte d.wp j b
        wpOld := some old
        wpMask := d.wpMask ||| (1 <<< j)
        cur := d.cur + 1 } := by
  obtain ⟨hread, hwrite⟩ := regOffset_writePtr hw hj
  have hbefore := h.before
  obtain ⟨-, -, ⟨hfit, -⟩, -⟩ := hw
  rw [Device.exchange, h.phase]
  simp only
  rw [Device.writeData_room _ h.known (by rw [h.cur]; omega), h.cur]
  simp only [Device.store, hread, hwrite, hbefore, h.phase]

theorem Storing.exchange {p : Params} (hw : p.wf) {old new : Word} {j : Nat} {d : Device}
    (h : Storing p old new j d) (hj : j < 4) :
    Storing p old new (j + 1) (d.exchange p (byteOf new j)).1 ∧
      (d.exchange p (byteOf new j)).1.rp = d.rp := by
  rw [h.exchange_eq hw hj]
  refine ⟨⟨h.phase, h.known, by simp only [h.cur]; omega, fun i hi => ?_, by simp,
    fun i hi => ?_⟩, rfl⟩
  · by_cases hij : i = j
    · subst hij
      rw [byteOf_withByte_same _ _ hj, if_pos (Nat.lt_succ_self i)]
    · rw [byteOf_withByte_other _ hij hj hi, h.bytes i hi]
      simp only [show i < j + 1 ↔ i < j by omega]
  · rw [mask_or_bit _ hi hj, h.mask i hi, ← Bool.decide_or]
    simp only [show (i < j ∨ i = j) ↔ i < j + 1 by omega]

theorem payload_succ (v : Word) (k : Nat) : payload v (k + 1) = payload v k ++ [byteOf v k] := by
  simp [payload, List.range_succ]

/-- The payload's bytes are stored one after the other. -/
theorem Storing.feed_payload {p : Params} (hw : p.wf) {old new : Word} {d : Device}
    (h : Storing p old new 0 d) (ts : List Turn) {k : Nat} (hk : k ≤ 4) :
    Storing p old new k (feed p (payload new k) ts d) := by
  induction k with
  | zero => exact h
  | succ k ih =>
    rw [payload_succ, feed_append]
    exact ((ih (by omega)).consume _ |>.exchange hw (by omega)).1

/-- Once a byte has been stored the coprocessor rests, under `REG_WRITE_ATOMIC` (R73). -/
theorem Storing.consume_eq {p : Params} (hatomic : p.regWriteAtomic = true) {old new : Word}
    {j : Nat} {d : Device} (h : Storing p old new j d) (hj : 0 < j) (k : Nat) :
    d.consume p k = d := by
  refine Device.consume_of_not_may ?_
  simp [Device.mayConsume, hatomic, h.wpOld, show ¬ j = 0 by omega]

/-- So the reader keeps to the pointer it had before the frame. -/
theorem Storing.feed_payload_reader {p : Params} (hw : p.wf) (hatomic : p.regWriteAtomic = true)
    {old new : Word} {w n : Nat} {d : Device} (hlt : w < p.c) (h : Storing p old new 0 d)
    (hr : ReaderWithin p old.toNat w n d.rp) (ts : List Turn) {k : Nat} (hk : k ≤ 4) :
    ReaderWithin p old.toNat w n (feed p (payload new k) ts d).rp := by
  obtain ⟨⟨-, hc⟩, -⟩ := id hw
  induction k with
  | zero => exact hr
  | succ k ih =>
    have hk' := h.feed_payload hw ts (k := k) (by omega)
    rw [payload_succ, feed_append]
    refine ((hk'.consume _).exchange hw (by omega)).2 ▸ ?_
    rcases Nat.eq_zero_or_pos k with rfl | hpos
    · have hold : d.wp = old := by simpa [h.wpOld] using h.before
      rw [← hold] at hr ⊢
      exact hr.consume hc hlt
    · rw [hk'.consume_eq hatomic hpos]
      exact ih (by omega)

/-- Where the frame's data phase starts the register holds what it held at the frame's start. -/
theorem storing_of_preamble {p : Params} (hw : p.wf) (hf : Framable p (writePtrAddr p)) {d : Device}
    (hphase : d.phase = .pre 0 0) (hl : d.lost = false) (ho : d.wpOld = none)
    (hmask : d.wpMask = 0) (new : Word) (ts : List Turn) :
    Storing p d.wp new 0 (feed p (preamble p .wr (writePtrAddr p)) ts d) := by
  obtain ⟨-, -, -, -, hm, -⟩ := hw
  rw [feed_preamble_wr hm hf ts hphase]
  exact ⟨rfl, by simpa, addrOf_register _, by simp, by simpa, by simp [hmask]⟩

theorem byteOf_eq_zero {v : Word} {k i : Nat} (hv : v.toNat < 2 ^ (8 * k)) (hi : k ≤ i) :
    byteOf v i = 0 := by
  apply BitVec.eq_of_toNat_eq
  have hlt : v.toNat < 2 ^ (8 * i) := hv.trans_le (Nat.pow_le_pow_right two_pos (by omega))
  rw [byteOf, BitVec.extractLsb'_toNat, Nat.shiftRight_eq_div_pow, Nat.div_eq_of_lt hlt]
  rfl

theorem ptrXfer_bits (p : Params) : p.ptrXfer.bits = 8 * xferBytes p := by
  unfold xferBytes
  cases p.ptrXfer <;> rfl

theorem xferBytes_pos (p : Params) : 0 < xferBytes p := by
  unfold xferBytes
  cases p.ptrXfer <;> decide

/-- A pointer that fits the bytes stored is written whole (00_scope.md R7). -/
theorem Storing.wp_eq {p : Params} {old new : Word} {k : Nat} {d : Device}
    (h : Storing p old new k d) (hold : old.toNat < 2 ^ (8 * k)) (hnew : new.toNat < 2 ^ (8 * k)) :
    d.wp = new := by
  refine word_ext fun i hi => ?_
  rw [h.bytes i hi]
  split
  · rfl
  · next hik => rw [byteOf_eq_zero hold (not_lt.1 hik), byteOf_eq_zero hnew (not_lt.1 hik)]

section commitFrame
variable {s : State} (hw : s.cfg.wf) (hf : Framable s.cfg (writePtrAddr s.cfg))
include hw hf

/-- The bytes of a write frame at the write-pointer register are stored there. -/
theorem commitFrame_storing (hl : s.dev.lost = false) (v : Word) {k : Nat} (hk : k ≤ 4) :
    Storing s.cfg s.dev.wp v k
      (feed s.cfg (writeFrameBytes s.cfg (writePtrAddr s.cfg) v k) s.turns.tail
        (frameStart s)) := by
  obtain ⟨hphase, -, ho, hwp, hlost, -⟩ := frameStart_fields s
  have hstart := storing_of_preamble hw hf hphase (hlost.trans hl) ho rfl v s.turns.tail
  rw [hwp] at hstart
  rw [writeFrameBytes, feed_append]
  exact hstart.feed_payload hw _ hk

/-- The reader, too, is where the coupling has it: it rests while the bytes are stored. -/
theorem commitFrame_reader {n : Nat} (hatomic : s.cfg.regWriteAtomic = true)
    (hlt : s.w < s.cfg.c) (hring : RingDevice s.cfg s.cw s.w n s.dev) (v : Word) {k : Nat}
    (hk : k ≤ 4) :
    ReaderWithin s.cfg s.cw s.w n
      (feed s.cfg (writeFrameBytes s.cfg (writePtrAddr s.cfg) v k) s.turns.tail
        (frameStart s)).rp := by
  obtain ⟨⟨-, hc⟩, -, -, -, hm, -⟩ := id hw
  obtain ⟨hphase, -, ho, hwp, hlost, -⟩ := frameStart_fields s
  have hstart := storing_of_preamble hw hf hphase (hlost.trans hring.known) ho rfl v s.turns.tail
  have hr := (hring.atLatch hc hlt).reader
  rw [hwp] at hstart
  rw [← hring.wp_eq] at hr ⊢
  rw [writeFrameBytes, feed_append]
  refine hstart.feed_payload_reader hw hatomic hlt ?_ _ hk
  rw [feed_preamble_wr hm hf _ hphase, framed_rp]
  exact hr

/-- A completed COMMIT frame publishes `W`: the coupling holds with `WP` at `W`. -/
theorem commitFrame_ring {t : State} {got : List Byte} {n : Nat}
    (hatomic : s.cfg.regWriteAtomic = true) (hlt : s.w < s.cfg.c) (hcw : s.cw < s.cfg.c)
    (hring : RingDevice s.cfg s.cw s.w n s.dev)
    (h : FrameOk (commitBytes s) got s t) :
    RingDevice s.cfg s.w s.w n t.dev := by
  obtain ⟨⟨-, hc⟩, -, -, -, -, hwide⟩ := id hw
  have hk := xferBytes_le s.cfg
  have hstored := commitFrame_storing hw hf hring.known (zext32 s.w) hk
  have hreader := commitFrame_reader hw hf hatomic hlt hring (zext32 s.w) hk
  have hdev := h.dev
  rw [frameEnd, hstored.consume_eq hatomic (xferBytes_pos _)] at hdev
  have hvalue : (zext32 s.w).toNat = s.w :=
    (BitVec.toNat_ofNat _ _).trans (Nat.mod_eq_of_lt (hlt.trans_le (hc.trans (by decide))))
  have hwide' : s.cfg.c ≤ 2 ^ (8 * xferBytes s.cfg) := ptrXfer_bits s.cfg ▸ hwide
  have hwp := hstored.wp_eq (by rw [hring.wp_eq]; exact hcw.trans_le hwide')
    (by rw [hvalue]; exact hlt.trans_le hwide')
  rw [hdev]
  exact ⟨(congrArg BitVec.toNat hwp).trans hvalue, hstored.known, rfl, hreader.lt, le_rfl,
    hreader.used_le⟩

/-- COMMIT moves `WP` and `CW` to `W` together (41_ring_manager.md R158, 20_memory.md R76). -/
theorem execCommit_coupled {t : State} (hatomic : s.cfg.regWriteAtomic = true)
    (henv : ReferenceEnv s) (hc : Coupled s) (hn : NoOverrun s) (h : execCommit s = .next t) :
    Coupled t ∧ NoOverrun t := by
  refine prologue_coupled hc hn h fun hb => ?_
  obtain ⟨got, u, hrun, hframe, -⟩ := frame_reference (commitBytes s) s henv
  rw [commitTxn_ok hrun] at hb
  obtain rfl := Host.Outcome.next.inj hb
  have hring := commitFrame_ring hw hf hatomic hc.w_lt hc.cw_lt hc.ringDevice hframe
  obtain ⟨hcfg, huw, -, hlf⟩ := hframe.same.ring
  refine RingDevice.coupled (n := usedBytes s) ?_ ?_ ?_ ?_
  · simpa [hcfg, huw] using hring
  · simpa [hcfg, huw] using hc.w_lt
  · simpa [hcfg, huw] using hc.w_lt
  · simpa [hcfg, hlf] using hn

end commitFrame

/-- Settles O22: each ring operation keeps the coupling, ADVANCE by moving bytes from `LF` to those
in use, FREE and WAITDRAIN because the reader only moves towards `WP`, COMMIT because it rests while
`WP` is stored. -/
theorem ringOperationsNeverOverrun : Obligations.RingOperationsNeverOverrun := by
  intro i s t hop hw hread hwrite hfr hfw henv hc hn h
  cases i with
  | free => exact execFree_coupled hw hread hfr henv hc hn h
  | advance d => exact execAdvance_coupled hc hn h
  | curptr => exact execCurptr_coupled hc hn h
  | commit => exact execCommit_coupled hw hfw hwrite henv hc hn h
  | waitdrain d => exact execWaitdrain_coupled hw hread hfr henv hc hn h
  | _ => exact Bool.noConfusion hop

/-! What a frame that failed leaves in the device. -/

theorem Bus.after_eq_stop {x : Bus} {earlier got : List Byte} {why : Stop} {t : State}
    (h : x.after earlier = .stop why got t) : ∃ rest, x = .stop why rest t := by
  cases x with
  | ok rest u => cases h
  | stop why' rest u =>
    injection h with h1 _ h3
    exact ⟨rest, by rw [h1, h3]⟩

/-- The byte of an exchange that failed reached the device or did not (20_memory.md R75, U8). -/
theorem xchg_err {b : Byte} {s t : State} {e : Word} {got : List Byte}
    (h : xchg b s = .stop (.err e) got t) :
    SameBlock s t ∧ ∃ d, t.dev = (cutExchange b d (takeTurn s)).dev := by
  unfold xchg at h
  cases hlink : (nextTurn s).link with
  | reply =>
    obtain ⟨r, u, hr, -⟩ := replyOf_ok b (takeTurn s)
    simp only [hlink, hr] at h
    cases h
  | fail e' d =>
    simp only [hlink] at h
    injection h with _ _ h
    subst h
    exact ⟨(takeTurn_same s).trans ((cutExchange_same b d _).trans (record_same _ _)), d, rfl⟩
  | replyWith r => simp only [hlink] at h; cases h
  | rst d => simp only [hlink] at h; cases h
  | hang => simp only [hlink] at h; cases h

/-- The device has taken the first bytes of a run that failed, and the coprocessor may have stepped
since. -/
theorem burst_err {out got : List Byte} {s t : State} {e : Word}
    (h : burst out s = .stop (.err e) got t) :
    SameBlock s t ∧ ∃ m n, t.dev = (feed s.cfg (out.take m) s.turns s.dev).consume s.cfg n := by
  induction out generalizing s got with
  | nil => cases h
  | cons b bs ih =>
    cases hx : xchg b s with
    | ok r u =>
      have hok : ∃ r', XchgOk b r' s u := by
        rcases xchg_cases b s with ⟨r', u', hu, hok, -⟩ | ⟨e', u', hu, -⟩ | ⟨u', hu, -⟩ |
          ⟨u', hu, -⟩
        · injection hx.symm.trans hu with _ hu
          exact ⟨r', hu ▸ hok⟩
        all_goals cases hx.symm.trans hu
      obtain ⟨r', hok⟩ := hok
      rw [burst, hx] at h
      obtain ⟨rest, hrest⟩ := Bus.after_eq_stop h
      obtain ⟨hsame, m, n, hdev⟩ := ih hrest
      refine ⟨hok.same.trans hsame, m + 1, n, ?_⟩
      rw [hdev, hok.same.cfg, hok.turns, hok.dev]
      rfl
    | stop why got' u =>
      rw [burst, hx] at h
      injection h with hwhy _ hu
      subst hwhy hu
      obtain ⟨hsame, d, hdev⟩ := xchg_err hx
      cases d with
      | false => exact ⟨hsame, 0, headConsume s.turns, hdev⟩
      | true => exact ⟨hsame, 1, 0, by rw [hdev, Device.consume_zero]; rfl⟩

theorem frame_err {out got : List Byte} {s t : State} {e : Word}
    (h : frame out s = .stop (.err e) got t) :
    SameBlock s t ∧
      ∃ m n, t.dev = (feed s.cfg (out.take m) s.turns.tail (frameStart s)).consume s.cfg n := by
  have hsel : ∀ on (u : State) rest, selEvent on u ≠ .stop (.err e) rest t := by
    intro on u rest hu
    rcases selEvent_cases on u with hcase | ⟨-, hcase⟩ <;> cases hcase.symm.trans hu
  rw [frame] at h
  rcases selEvent_cases true s with hcase | ⟨-, hcase⟩
  · rw [hcase] at h
    cases hburst : burst out (setSel true (takeTurn s)) with
    | ok got' u =>
      simp only [Bus.bind, hburst, Bus.after] at h
      obtain ⟨rest, hrest⟩ := Bus.after_eq_stop h
      exact absurd hrest (hsel _ _ _)
    | stop why got' u =>
      simp only [Bus.bind, hburst, Bus.after] at h
      injection h with hwhy _ hu
      subst hwhy hu
      obtain ⟨hsame, m, n, hdev⟩ := burst_err hburst
      exact ⟨((takeTurn_same s).trans (setSel_same _ _)).trans hsame, m, n, hdev⟩
  · rw [hcase] at h
    cases h


/-! COMMIT as a whole. -/

theorem writePtr_room {p : Params} (hw : p.wf) :
    addrOf (writePtrAddr p) + xferBytes p ≤ deviceSize := by
  obtain ⟨-, -, ⟨hfit, -⟩, -⟩ := hw
  have hk := xferBytes_le p
  rw [writePtrAddr, addrOf_register]
  omega

/-- A calm COMMIT runs its frame to the end and sets `CW`. -/
theorem execCommit_calm {s : State} (hf : s.f = false) (hidle : s.scope = .idle)
    (hcalm : Calm (5 + xferBytes s.cfg) s) :
    ∃ got u, exec .commit s = .next (respond statusOk 0 [] { u with cw := u.w }) ∧
      FrameOk (commitBytes s) got s u := by
  obtain ⟨got, u, hrun, hframe, -⟩ := frame_calm (commitBytes s) s 0
    (hcalm.mono (by rw [writeFrameBytes_length]; omega))
  refine ⟨got, u, ?_, hframe⟩
  calc exec .commit s
      = endOwned (commitTxn s) (fun _ t => respond statusOk 0 [] { t with cw := t.w }) :=
        prologue_runs _ hf (needsIdle_of_idle hidle)
    _ = _ := by rw [commitTxn_ok hrun]; rfl

/-- Settles O18: the frame of `execCommit_calm`, whose payload `writeFrame_stores` stores. -/
theorem commitPublishesLocalPointer : Obligations.CommitPublishesLocalPointer := by
  intro s hw hf hidle hcalm
  obtain ⟨got, u, hexec, hframe⟩ := execCommit_calm hf hidle hcalm
  have hs := hframe.same
  refine ⟨_, got, hexec, ?_, ?_, hs.w, rfl, hs.cfg, hs.w, hs.lf, ⟨hs.f, hs.fc, hs.fi⟩,
    hs.scope.trans hidle, hframe.sel, fun hframable hl => ?_⟩
  · rw [hframe.length, writeFrameBytes_length]
  · have htrace := hframe.trace
    rw [commitBytes, writeFrameBytes_eq] at htrace
    exact htrace
  · have hstores : StoresAt s u (addrOf (writePtrAddr s.cfg))
        (payload (zext32 s.w) (xferBytes s.cfg)) :=
      writeFrame_stores hw hframable hl (by rw [payload_length]; exact writePtr_room hw) hframe
    rw [writePtrAddr, addrOf_register] at hstores
    exact hstores

/-- Settles O19: four bytes stored are the whole register. -/
theorem commitSetsDeviceWritePointer : Obligations.CommitSetsDeviceWritePointer := by
  intro s hw hwidth hf hidle hcalm hframable hl
  have hk : xferBytes s.cfg = 4 := by rw [xferBytes, hwidth]
  obtain ⟨got, u, hexec, hframe⟩ := execCommit_calm hf hidle (by rw [hk]; exact hcalm)
  rw [commitBytes, hk] at hframe
  have hstored := commitFrame_storing hw hframable hl (zext32 s.w) (le_refl 4)
  have hwp : u.dev.wp = zext32 s.w := by
    rw [hframe.dev, frameEnd, Device.deselect_wp, Device.consume_wp]
    exact hstored.wp_eq (BitVec.isLt _) (BitVec.isLt _)
  have hw' : u.w = s.w := hframe.same.w
  exact ⟨_, hexec, hwp, by rw [respond_cw, respond_dev, hw']; exact hwp⟩

/-- Preamble bytes leave `WP` and the record of its old value (R71). -/
theorem feed_within_preamble {p : Params} (bs : List Byte) (ts : List Turn) {d : Device} {k : Nat}
    {acc : Addr} (hphase : d.phase = .pre k acc) (hk : k + bs.length ≤ 3) :
    (feed p bs ts d).wp = d.wp ∧ (feed p bs ts d).wpOld = d.wpOld := by
  induction bs generalizing ts d k acc with
  | nil => exact ⟨rfl, rfl⟩
  | cons b bs ih =>
    rw [List.length_cons] at hk
    generalize hd : d.consume p (headConsume ts) = e
    have hwp : e.wp = d.wp := by rw [← hd, Device.consume_wp]
    have ho : e.wpOld = d.wpOld := by rw [← hd, Device.consume_wpOld]
    have he : e.phase = .pre k acc := by rw [← hd, Device.consume_phase, hphase]
    rw [feed, hd, ← hwp, ← ho]
    by_cases hlast : k < 2
    · have hx : (e.exchange p b).1 =
          { e with phase := .pre (k + 1) ((acc <<< 8) ||| b.setWidth 24) } := by
        simp only [Device.exchange, he, if_pos hlast]
      rw [hx]
      exact ih ts.tail rfl (by omega)
    · obtain rfl : bs = [] := List.eq_nil_of_length_eq_zero (by omega)
      simp only [feed, Device.exchange, he, if_neg hlast, Device.enterFrame]
      split
      · exact ⟨rfl, rfl⟩
      · split <;> exact ⟨rfl, rfl⟩

theorem payload_take (v : Word) (k m : Nat) : (payload v k).take m = payload v (min m k) := by
  rw [payload, payload, ← List.map_take, List.take_range]

/-- A frame that has stored nothing into `WP` leaves it, however a failure is settled. -/
theorem settleWP_wp_of_none {p : Params} {d : Device} (ho : d.wpOld = none) :
    (d.settleWP p).wp = d.wp := by
  rcases Device.settleWP_eq p d with h | h
  · rw [h]
  · rw [h, ho]; rfl

/-- A failure while the four bytes are stored is settled to the old value, or to the new one where
all have been (41_ring_manager.md R158, U9; log 8). -/
theorem Storing.settleWP {p : Params} (hatomic : p.regWriteAtomic = true)
    (hwidth : xferBytes p = 4) {old new : Word} {j : Nat} {d : Device}
    (h : Storing p old new j d) (hj : j ≤ 4) :
    (d.settleWP p).wp = old ∨ (d.settleWP p).wp = new := by
  unfold Device.settleWP
  split
  · exact .inl h.before
  · next hwhole =>
    rw [hatomic, Bool.true_and, Bool.not_eq_true', Bool.not_eq_false, Device.wpWhole, hwidth,
      List.all_eq_true] at hwhole
    have hlast := (h.mask 3 (by decide)).symm.trans (hwhole 3 (by decide))
    obtain rfl : j = 4 := by
      have := of_decide_eq_true hlast
      omega
    exact .inr (h.wp_eq (BitVec.isLt _) (BitVec.isLt _))

/-- Wherever a 32-bit write frame at the register fails, `WP` is settled to its old value or `v`. -/
theorem commitPrefix_settles {s : State} (hw : s.cfg.wf) (hwidth : xferBytes s.cfg = 4)
    (hatomic : s.cfg.regWriteAtomic = true) (hframable : Framable s.cfg (writePtrAddr s.cfg))
    (hl : s.dev.lost = false) (v : Word) (m n : Nat) {d : Device}
    (hd : d = (feed s.cfg ((writeFrameBytes s.cfg (writePtrAddr s.cfg) v 4).take m) s.turns.tail
      (frameStart s)).consume s.cfg n) :
    (d.settleWP s.cfg).wp = s.dev.wp ∨ (d.settleWP s.cfg).wp = v := by
  subst hd
  rw [writeFrameBytes, List.take_append, preamble_wr_length, payload_take]
  rcases Nat.le_total m 3 with hm | hm
  · obtain ⟨hphase, -, ho, hwp, -, -⟩ := frameStart_fields s
    rw [Nat.sub_eq_zero_of_le hm, Nat.zero_min]
    obtain ⟨hwp', ho'⟩ := feed_within_preamble (p := s.cfg)
      ((preamble s.cfg .wr (writePtrAddr s.cfg)).take m ++ payload v 0) s.turns.tail hphase
      (by simp)
    left
    rw [settleWP_wp_of_none (by rw [Device.consume_wpOld, ho', ho]), Device.consume_wp, hwp', hwp]
  · rw [List.take_of_length_le (by rw [preamble_wr_length]; exact hm)]
    have hstored := commitFrame_storing hw hframable hl v (Nat.min_le_right (m - 3) 4)
    exact (hstored.consume n).settleWP hatomic hwidth (Nat.min_le_right _ _)

/-- A COMMIT that answers a transport failure had its frame fail, and settled the device. -/
theorem execCommit_failed {s t : State} {e : Word} (hf : s.f = false) (hidle : s.scope = .idle)
    (h : exec .commit s = .next t) (hrsp : Responds t 0x02 e []) :
    ∃ e' got u, frame (commitBytes s) s = .stop (.err e') got u ∧ t.cw = u.cw ∧
      t.dev.wp = (u.dev.settleWP u.cfg).wp := by
  have hexec : exec .commit s = endOwned (commitTxn s)
      (fun _ t => respond statusOk 0 [] { t with cw := t.w }) :=
    prologue_runs _ hf (needsIdle_of_idle hidle)
  rw [hexec] at h
  have hreset : ∀ u : State, Host.Outcome.next (resetBlock u) ≠ (.next t : Out) := by
    rintro u hu
    obtain rfl := Host.Outcome.next.inj hu
    rw [Responds, resetBlock_rsp] at hrsp
    cases hrsp
  rcases frame_cases (commitBytes s) s with
    ⟨got, u, hrun, -⟩ | ⟨e', got, u, hrun, -⟩ | ⟨got, u, hrun, -⟩ | ⟨got, u, hrun, -⟩
  · rw [commitTxn_ok hrun] at h
    obtain rfl := Host.Outcome.next.inj h
    rw [Responds, respond_rsp] at hrsp
    injection hrsp with hrsp
    injection hrsp with hst
    exact absurd hst (by decide)
  · refine ⟨e', got, u, hrun, ?_⟩
    have htxn : commitTxn s = .stop (.err e') got (settleCommit u) := by
      rw [commitTxn, writeTxn, hrun]
      rfl
    rw [htxn] at h
    rcases release_cases (settleCommit u) with ⟨hrel, -⟩ | ⟨hrel, -⟩
    · simp only [endOwned, hrel] at h
      obtain rfl := Host.Outcome.next.inj h
      refine ⟨rfl, ?_⟩
      simp [settleCommit]
    · simp only [endOwned, hrel] at h
      exact absurd h (hreset _)
  · rw [commitTxn, writeTxn, hrun] at h
    exact absurd h (hreset u)
  · rw [commitTxn, writeTxn, hrun] at h
    cases h

/-- Settles O60: by `frame_err` the device took the first bytes of the frame, and the failure is
settled from there. -/
theorem failedCommitLeavesOldOrNew : Obligations.FailedCommitLeavesOldOrNew := by
  intro s t e hw hwidth hatomic hf hidle hl hframable hexec hrsp
  have hk : xferBytes s.cfg = 4 := by rw [xferBytes, hwidth]
  obtain ⟨e', got, u, hrun, hcw, hwp⟩ := execCommit_failed hf hidle hexec hrsp
  obtain ⟨hsame, m, n, hdev⟩ := frame_err hrun
  rw [commitBytes, hk] at hdev
  have hsettled := commitPrefix_settles hw hk hatomic hframable hl (zext32 s.w) m n hdev
  rw [hcw, hwp, hsame.cw, hsame.cfg]
  exact ⟨rfl, hsettled⟩

/-! FREE and WAITDRAIN as a whole. -/

/-- A calm poll of the pointer register succeeds. -/
theorem readPtrTxn_calm {s : State} (n : Nat)
    (hcalm : Calm (5 + s.cfg.rdDummy + xferBytes s.cfg + n) s) :
    ∃ got t, readPtrTxn s = .ok got t ∧ PollOk got s t ∧ Calm n t :=
  frame_calm _ s n (hcalm.mono (by rw [readFrameBytes_length]; omega))

theorem execFree_of_poll {s u : State} {got : List Byte} (hf : s.f = false)
    (hidle : s.scope = .idle) (hrun : readPtrTxn s = .ok got u) :
    exec .free s = .next (respond statusOk
      (zext32 (freeSpace s.cfg (readPtrValue s.cfg got).toNat u.w)) []
      { u with lf := freeSpace s.cfg (readPtrValue s.cfg got).toNat u.w }) := by
  calc exec .free s = endOwned (readPtrTxn s) _ := prologue_runs _ hf (needsIdle_of_idle hidle)
    _ = _ := by rw [hrun]; rfl

/-- Settles O15: FREE is one poll, and `freeSpace_eq_max` its formula. -/
theorem freeReportsSpace : Obligations.FreeReportsSpace := by
  intro s hw hf hidle hcalm
  obtain ⟨⟨hc, -⟩, -⟩ := id hw
  obtain ⟨got, u, hrun, hok, -⟩ := readPtrTxn_calm 0 hcalm
  have hpolled := hok.polled
  have hs := hok.same
  refine ⟨_, got, execFree_of_poll hf hidle hrun, hpolled.lengths got List.mem_cons_self,
    hpolled.trace, ?_, rfl, hs.cfg, hs.w, hs.cw, ⟨hs.f, hs.fc, hs.fi⟩,
    hs.scope.trans hidle, hok.sel, hpolled.device hw⟩
  rw [respond_lf, hs.w, readPtrValue_eq]
  exact freeSpace_eq_max (by omega) _ _

/-! The reference device at rest. -/

/-- One byte of the read-pointer register. -/
theorem devByte_readPtr {s : State} (hl : s.dev.lost = false) {i : Nat} (hi : i < 4) :
    devByte s (s.cfg.regCmdRead.toNat + i) = some (byteOf s.dev.rp i) := by
  have hoff : regOffset s.cfg.regCmdRead (s.cfg.regCmdRead.toNat + i) = some i := by
    rw [regOffset, if_pos (by omega), Nat.add_sub_cancel_left]
  simp [devByte, Device.byteAt, hl, hoff]

/-- Every device byte stays where the coprocessor rests, so that the read pointer does. -/
theorem KeepsDevice.at_rest {s t : State} (h : KeepsDevice s t) (hcfg : t.cfg = s.cfg)
    (hrest : s.turns = []) (hl : s.dev.lost = false) :
    t.dev.lost = false ∧ t.dev.rp = s.dev.rp := by
  have hstores : StoresAt s t 0 [] := fun x hx => by
    rw [h x hx, if_neg (by simp)]
  have hl' := hstores.known hl
  refine ⟨hl', word_ext fun i hi => ?_⟩
  have hbyte := h (s.cfg.regCmdRead.toNat + i) (.inr (by simp [hrest]))
  rw [devByte_readPtr hl hi, ← hcfg, devByte_readPtr hl' hi] at hbyte
  exact Option.some.inj hbyte

/-- A poll of the device at rest receives the bytes of the read pointer, whether they are latched
(20_memory.md R73) or not, and leaves the device at rest. -/
theorem readPtrTxn_at_rest {s : State} (hw : s.cfg.wf) (hrest : s.turns = [])
    (hl : s.dev.lost = false) (hframable : Framable s.cfg (readPtrAddr s.cfg)) :
    ∃ got t, readPtrTxn s = .ok got t ∧ PollOk got s t ∧
      pollValue s.cfg got = leValue (payload s.dev.rp (xferBytes s.cfg)) := by
  have henv : ReferenceEnv s := by simp [ReferenceEnv, hrest]
  obtain ⟨got, t, hrun, hok, -, hgot⟩ :=
    frame_reference (readFrameBytes s.cfg (readPtrAddr s.cfg) (xferBytes s.cfg)) s henv
  refine ⟨got, t, hrun, hok, congrArg leValue ?_⟩
  have hlen : got.length = 3 + s.cfg.rdDummy + xferBytes s.cfg := by
    rw [hok.length, readFrameBytes_length]
  have hk := xferBytes_le s.cfg
  cases hatomic : s.cfg.regReadAtomic with
  | true =>
    obtain ⟨-, -, -, -, -, hrp⟩ := frameStart_fields s
    have hnext : (nextTurn s).consume = 0 := by rw [nextTurn, hrest]; rfl
    rw [hnext, Device.consume_zero] at hrp
    rw [readPtr_got hw hatomic hframable hl hk hlen hgot,
      consumes_rest s.cfg (takes_rest (by simp [hrest]) 3), hrp]
  | false =>
    have haddr : addrOf (readPtrAddr s.cfg) = s.cfg.regCmdRead.toNat := addrOf_register _
    have hbytes := readFrame_got hw hframable hl (readPtr_room hw)
      (fun j _ => .inr (by simp [hrest])) (by simp [hatomic]) hgot
    refine List.ext_getElem? fun j => ?_
    by_cases hj : j < xferBytes s.cfg
    · rw [← hbytes j hj, haddr, devByte_readPtr hl (by omega), payload_getElem? _ hj]
    · rw [List.getElem?_eq_none (by rw [List.length_drop]; omega),
        List.getElem?_eq_none (by rw [payload_length]; omega)]

/-- Settles O16: the value polled is the read pointer, which fits the access. -/
theorem freeMeasuresFromReadPointer : Obligations.FreeMeasuresFromReadPointer := by
  intro s hw hf hidle hrest hl hframable hrp
  obtain ⟨⟨hc, -⟩, -, -, -, -, hwide⟩ := id hw
  obtain ⟨got, u, hrun, hok, hvalue⟩ := readPtrTxn_at_rest hw hrest hl hframable
  rw [leValue_payload_xfer (hrp.trans_le hwide), ← readPtrValue_eq] at hvalue
  refine ⟨_, execFree_of_poll hf hidle hrun, ?_⟩
  have hmax := freeSpace_eq_max (p := s.cfg) (by omega) s.dev.rp.toNat s.w
  rw [Int.emod_eq_of_lt (a := (s.dev.rp.toNat : Int)) (by omega) (by omega)] at hmax
  rw [respond_lf, hok.same.w, hvalue]
  exact hmax

/-- WAITDRAIN is the loop, past the prologue. -/
theorem execWaitdrain_runs {s : State} (bound : Word) (hf : s.f = false) (hidle : s.scope = .idle) :
    exec (.waitdrain bound) s = pollLoop bound.toNat 0 s :=
  prologue_runs _ hf (needsIdle_of_idle hidle)

/-- The configuration and enough calm turns for `n` polls. -/
structure CalmPolls (p : Params) (n : Nat) (s : State) : Prop where
  cfg : s.cfg = p
  calm : Calm (n * (5 + p.rdDummy + xferBytes p)) s

theorem CalmPolls.poll {p : Params} {n : Nat} {s : State} (h : CalmPolls p (n + 1) s) :
    ∃ got t, readPtrTxn s = .ok got t ∧ PollOk got s t ∧ True ∧ CalmPolls p n t := by
  obtain ⟨rfl, hcalm⟩ := h
  rw [Nat.succ_mul, Nat.add_comm] at hcalm
  obtain ⟨got, t, hrun, hok, hcalm'⟩ := readPtrTxn_calm _ hcalm
  exact ⟨got, t, hrun, hok, trivial, hok.same.cfg, hcalm'⟩

/-- Settles O20: `pollLoop_runs` with turns calm enough for every poll. -/
theorem waitdrainPollsUpToBound : Obligations.WaitdrainPollsUpToBound := by
  intro s bound hw hf hidle hcalm
  obtain ⟨-, u, earlier, last, st, v, hloop, -, hpolled, -, hun, hle, hans⟩ :=
    pollLoop_runs (P := CalmPolls s.cfg) (fun _ _ => CalmPolls.poll) bound.toNat 0 s
      ⟨rfl, hcalm⟩
  have hs := hpolled.same
  refine ⟨_, earlier, last, (execWaitdrain_runs bound hf hidle).trans hloop, hpolled.lengths,
    hpolled.trace, hun, hle, ?_, hs.ring_respond _ _ _ u.scope,
    hs.fault_respond _ _ _ u.scope, hs.scope.trans hidle, hpolled.sel (by simp), hpolled.device hw⟩
  rw [Nat.zero_add] at hans
  split at hans
  · next heq =>
    obtain ⟨rfl, rfl⟩ := hans
    have heq' : pollValue s.cfg last = BitVec.ofNat 32 s.cw := heq
    rw [if_pos heq']
    rfl
  · next hne =>
    obtain ⟨hlen, rfl, rfl⟩ := hans
    have hne' : pollValue s.cfg last ≠ BitVec.ofNat 32 s.cw := hne
    rw [if_neg hne']
    exact ⟨hlen, rfl⟩

/-- A device at rest whose read pointer stays at `r`. -/
structure Stuck (p : Params) (r : Word) (s : State) : Prop where
  cfg : s.cfg = p
  rest : s.turns = []
  known : s.dev.lost = false
  rp : s.dev.rp = r

theorem Stuck.poll {p : Params} {r : Word} {s : State} (hw : p.wf) (hwidth : xferBytes p = 4)
    (hframable : Framable p (readPtrAddr p)) (h : Stuck p r s) :
    ∃ got t, readPtrTxn s = .ok got t ∧ PollOk got s t ∧ pollValue p got = r ∧ Stuck p r t := by
  obtain ⟨rfl, hrest, hl, rfl⟩ := h
  obtain ⟨got, t, hrun, hok, hvalue⟩ := readPtrTxn_at_rest hw hrest hl hframable
  rw [hwidth, leValue_payload_four] at hvalue
  have hkeeps : KeepsDevice s t := readFrame_keeps hw hframable (readPtr_room hw) hok
  obtain ⟨hl', hrp⟩ := hkeeps.at_rest hok.same.cfg hrest hl
  have hrest' : t.turns = [] := by rw [hok.turns, hrest, List.drop_nil]
  exact ⟨got, t, hrun, hok, hvalue, hok.same.cfg, hrest', hl', hrp⟩

theorem pollTrace_length {p : Params} {polls : List (List Byte)}
    (h : ∀ got ∈ polls, got.length = 3 + p.rdDummy + xferBytes p) :
    (pollTrace p polls).length = polls.length * (5 + p.rdDummy + xferBytes p) := by
  induction polls with
  | nil => simp
  | cons got polls ih =>
    obtain ⟨hgot, hpolls⟩ := List.forall_mem_cons.1 h
    have hone : (pollTrace p [got]).length = 5 + p.rdDummy + xferBytes p := by
      rw [pollTrace_one, List.cons_append, List.length_cons, List.length_append, exchanges,
        List.length_zipWith, readFrameBytes_length, hgot, Nat.min_self, List.length_singleton]
      omega
    have hsplit : pollTrace p (got :: polls) = pollTrace p [got] ++ pollTrace p polls := by
      simp only [pollTrace, List.flatMap_cons, List.flatMap_nil, List.append_nil]
    rw [hsplit, List.length_append, hone, ih hpolls, List.length_cons, Nat.succ_mul, Nat.add_comm]

/-- Settles O21: every poll of a stuck reader answers `RP`, so that the bound is used up. -/
theorem waitdrainTimesOutOnStuckReader : Obligations.WaitdrainTimesOutOnStuckReader := by
  intro s bound hw hwidth hf hidle hrest hl hframable hne
  have hk : xferBytes s.cfg = 4 := by rw [xferBytes, hwidth]
  obtain ⟨-, u, earlier, last, st, v, hloop, -, hpolled, hvalues, -, -, hans⟩ :=
    pollLoop_runs (P := fun _ => Stuck s.cfg s.dev.rp) (fun _ _ => Stuck.poll hw hk hframable)
      bound.toNat 0 s ⟨rfl, hrest, hl, rfl⟩
  have hlast : pollValue s.cfg last = s.dev.rp := hvalues last (by simp)
  have hne' : s.dev.rp ≠ zext32 s.cw := hne
  rw [hlast, if_neg hne'] at hans
  obtain ⟨hlen, rfl, rfl⟩ := hans
  refine ⟨_, (execWaitdrain_runs bound hf hidle).trans hloop, rfl, ?_⟩
  rw [respond_trace, hpolled.trace, List.length_append, pollTrace_length hpolled.lengths,
    List.length_append, hlen, hk, List.length_singleton]
  congr 2
  omega

end Sys2Proof.Machine

/-! SUPPORT. The exceptions (60_exceptions.md R180 to R199): what comes before an operation's own
rule, what every operation can end with, and what a failed exchange leaves in an operation of one
frame, in WAITDRAIN and in a stream, each said once, and the statements read off from them. -/

namespace Sys2Proof.Machine

/-! Before an operation's own rule: the faulted answer, the encoding, the scope (R187). -/

theorem needsIdle_eq (sc : Scope) : needsIdle sc = (sc == .idle) := by cases sc <;> rfl

theorem needsOpen_eq (sc : Scope) : needsOpen sc = (sc != .idle) := by cases sc <;> rfl

theorem needsRdOpen_eq (sc : Scope) : needsRdOpen sc = (sc == .rdOpen) := by cases sc <;> rfl

theorem needsWrOpen_eq (sc : Scope) : needsWrOpen sc = (sc == .wrOpen) := by cases sc <;> rfl

/-- Every operation stands behind the prologue with its row of R184, every invalid-width code, which
has no scope check, behind the check of encodings. -/
theorem exec_guarded (i : Instr) (s : State) :
    (∃ allowed body, (∀ sc, allowed sc = scopeAllows i sc) ∧ exec i s = prologue allowed s body) ∨
    ((∀ sc, scopeAllows i sc = true) ∧ ∃ op, exec i s = raiseEncoding faultInvalidWidth op s) := by
  cases i with
  | rd8 | rd16 | rd32 | wr8 | wr16 | wr32 | openrd | openwr | hostcmd | free | commit | waitdrain =>
    exact .inl ⟨_, _, needsIdle_eq, rfl⟩
  | close => exact .inl ⟨_, _, needsOpen_eq, rfl⟩
  | srd8 | srd16 | srd32 | srdblk => exact .inl ⟨_, _, needsRdOpen_eq, rfl⟩
  | swr8 | swr16 | swr32 | swrblk => exact .inl ⟨_, _, needsWrOpen_eq, rfl⟩
  | advance | curptr | rinit => exact .inl ⟨_, _, anyScope_eq_true, rfl⟩
  | invalidWidth13 | invalidWidth23 | invalidWidth43 | invalidWidth53 =>
    exact .inr ⟨fun _ => rfl, _, rfl⟩

theorem exec_faulted (i : Instr) {s : State} (hf : s.f = true) :
    exec i s = .next (answerFaulted s) := by
  rcases exec_guarded i s with ⟨allowed, body, -, hexec⟩ | ⟨-, op, hexec⟩
  · exact hexec.trans (prologue_faulted body hf)
  · exact hexec.trans (raiseEncoding_faulted _ op hf)

/-- Settles O8: operations by `exec_faulted`, reserved codes by the same check. -/
theorem faultedAnswersEveryRequest : Obligations.FaultedAnswersEveryRequest := by
  intro s r hf
  cases hdec : decode r.req with
  | instr i => exact (runRequest_instr hdec s).trans (exec_faulted i hf)
  | reserved op => exact (runRequest_reserved hdec s).trans (raiseEncoding_faulted _ op hf)

/-- Settles O7: a reserved code enters the fault of its code in the state that took the request. -/
theorem reservedCodeRaisesFault : Obligations.ReservedCodeRaisesFault := by
  intro s r rest op hin hdec hf
  obtain ⟨u, hu, hentry⟩ := raiseEncoding_entry (s := accept r rest s) faultReservedOp op hf
  refine ⟨recordServed r u, u, ?_, rfl, hentry⟩
  rw [step_request hin, runRequest_reserved hdec, execReserved, hu]
  rfl

/-- Settles O9: a request leaves `F` by O8, and the coprocessor and the device never touch it. -/
theorem onlyResetLeavesFaulted : Obligations.OnlyResetLeavesFaulted := by
  intro s t hf hstep hclear
  have hkept : t.f ≠ s.f := by rw [hf, hclear]; decide
  cases hin : s.inputs with
  | nil =>
    rw [idleBlockWaits s hin] at hstep
    obtain rfl := Host.Outcome.next.inj hstep
    exact absurd rfl hkept
  | cons x rest =>
    cases x with
    | request r =>
      rw [step_request hin, faultedAnswersEveryRequest (accept r rest s) r hf] at hstep
      obtain rfl := Host.Outcome.next.inj hstep
      exact absurd rfl hkept
    | rst => exact ⟨rest, rfl⟩
    | coprocessor n =>
      rw [step_coprocessor hin] at hstep
      obtain rfl := Host.Outcome.next.inj hstep
      exact absurd rfl hkept
    | deviceInit =>
      simp only [step, hin] at hstep
      obtain rfl := Host.Outcome.next.inj hstep
      exact absurd rfl hkept

/-- Settles O11: the prologue's scope check fails, and an invalid-width code has none. -/
theorem wrongScopeFaults : Obligations.WrongScopeFaults := by
  intro i s hf hscope
  rcases exec_guarded i s with ⟨allowed, body, htable, hexec⟩ | ⟨hall, -⟩
  · refine ⟨raiseFault faultScopeViolation (scopeCode s.scope) s, hexec.trans ?_,
      raiseFault_entry _ _ s⟩
    rw [prologue, hf, htable, hscope]
    rfl
  · rw [hall] at hscope
    cases hscope

/-- Settles O57: the input touches the device and the queue of inputs. -/
theorem deviceInitLeavesBlock : Obligations.DeviceInitLeavesBlock := by
  intro s rest hin
  refine ⟨takeDeviceInit rest s, ?_, ⟨rfl, rfl, rfl, rfl⟩, ⟨rfl, rfl, rfl⟩, ⟨rfl, rfl⟩, rfl, rfl,
    rfl⟩
  simp only [step, hin]

/-! What every operation can end with (R180, R181, R186, R195). -/

/-- The statuses the block answers, the transport failure apart (R180, R181). -/
abbrev IsAnswer (st : Byte) : Prop := st ∈ [0x00, 0x01, 0x80, 0x81, 0x82, 0x83, 0x84]

/-- What a transport failure leaves in a stream operation and in any other (R186). -/
structure FailureLeaves (stream : Bool) (s t : State) : Prop where
  ring : KeepsRing s t
  fault : KeepsFault s t
  stays : stream = true → KeepsScope s t
  releases : stream = false → t.scope = .idle ∧ t.sel = false

/-- Everything an operation can end with: an answer, a transport failure, the reset event, an
exchange that never returns, and for SWRBLK the refusal of a `WDATA` of the wrong length. -/
inductive ExecResult (i : Instr) (s : State) : Out → Prop where
  | answered {t : State} {p : Response} (rsp : t.rsp = some p) (status : IsAnswer p.status) :
      ExecResult i s (.next t)
  | failed {t : State} {e : Word} {rd : List Byte} (rsp : Responds t 0x02 e rd)
      (left : FailureLeaves (isStream i) s t) : ExecResult i s (.next t)
  | reset {u : State} (turn : ∃ v ∈ s.turns, ∃ d, v.link = .rst d) :
      ExecResult i s (.next (resetBlock u))
  | stuck (turn : ∃ v ∈ s.turns, v.link = .hang) :
      ExecResult i s (.fault .transportNeverReturns)
  | refused {d : Word} (op : i = .swrblk d) (length : s.wdata.length ≠ d.toNat) :
      ExecResult i s (.refused .wdataLength)

/-- The normal end of an operation's rule: the status OK. -/
abbrev AnswersOk (ok : List Byte → State → State) : Prop :=
  ∀ got u, ∃ v rd, (ok got u).rsp = some ⟨statusOk, v, rd⟩

theorem respond_answersOk {v : List Byte → State → Word} {rd : List Byte → List Byte}
    {g : List Byte → State → State} :
    AnswersOk (fun got u => respond statusOk (v got u) (rd got) (g got u)) :=
  fun _ _ => ⟨_, _, rfl⟩

theorem ExecResult.ok {i : Instr} {s t : State} {v : Word} {rd : List Byte}
    (h : t.rsp = some ⟨statusOk, v, rd⟩) : ExecResult i s (.next t) :=
  .answered h (by decide : IsAnswer statusOk)

theorem AnswersOk.result {ok : List Byte → State → State} (h : AnswersOk ok) (i : Instr)
    (s : State) (got : List Byte) (u : State) : ExecResult i s (.next (ok got u)) := by
  obtain ⟨v, rd, hrsp⟩ := h got u
  exact .ok hrsp

theorem prologue_result {i : Instr} {s : State} {allowed : Scope → Bool} {body : Out}
    (h : ExecResult i s body) : ExecResult i s (prologue allowed s body) := by
  rcases prologue_cases allowed s body with ⟨-, hp⟩ | ⟨-, -, hp⟩ | ⟨-, -, hp⟩ <;> rw [hp]
  · exact .answered rfl (by decide : IsAnswer statusFaulted)
  · exact .answered (raiseFault_rsp s _ _) (by decide : IsAnswer faultScopeViolation)
  · exact h

theorem raiseEncoding_answers {code : Byte} (op : Byte) (s : State) (hc : IsAnswer code) :
    ∃ t p, raiseEncoding code op s = .next t ∧ t.rsp = some p ∧ IsAnswer p.status := by
  rcases raiseEncoding_cases code op s with ⟨-, hp⟩ | ⟨-, hp⟩
  · exact ⟨_, _, hp, rfl, (by decide : IsAnswer statusFaulted)⟩
  · exact ⟨_, _, hp, raiseFault_rsp s _ _, hc⟩

theorem raiseEncoding_result (i : Instr) (op : Byte) (s : State) :
    ExecResult i s (raiseEncoding faultInvalidWidth op s) := by
  obtain ⟨t, p, ht, hrsp, hp⟩ := raiseEncoding_answers (code := faultInvalidWidth) op s (by decide)
  rw [ht]
  exact .answered hrsp hp

theorem OwnedFails.result {i : Instr} {s : State} {o : Out} (hi : isStream i = false)
    (h : OwnedFails s o) : ExecResult i s o := by
  rcases h with ⟨e, u, rfl, wire, hsel⟩ | ⟨u, rfl, -, hrst⟩ | ⟨rfl, hhang⟩
  · exact .failed rfl
      { ring := wire.same.ring_respond _ _ _ .idle
        fault := wire.same.fault_respond _ _ _ .idle
        stays := fun h => by rw [hi] at h; cases h
        releases := fun _ => ⟨rfl, hsel⟩ }
  · exact .reset hrst
  · exact .stuck hhang

/-- An operation that asserts the line itself ends normally or fails. -/
theorem ExecResult.of_owned {i : Instr} {s : State} {o : Out} {ok : List Byte → State → State}
    {P : List Byte → State → Prop} (hi : isStream i = false) (hok : AnswersOk ok)
    (h : (∃ got u, o = .next (ok got u) ∧ P got u) ∨ OwnedFails s o) : ExecResult i s o := by
  rcases h with ⟨got, u, rfl, -⟩ | hfail
  · exact hok.result i s got u
  · exact hfail.result hi

theorem frameOp_result {i : Instr} {s : State} (out : List Byte) {ok : List Byte → State → State}
    (hi : isStream i = false) (hok : AnswersOk ok) :
    ExecResult i s (prologue needsIdle s (endOwned (frame out s) ok)) :=
  prologue_result (.of_owned hi hok (endOwned_frame_cases out s ok))

theorem openOp_result {i : Instr} (dir : Dir) (opened : Scope) (a : Word) (s : State)
    (hi : isStream i = false) : ExecResult i s (openOp dir opened a s) :=
  prologue_result (.of_owned hi respond_answersOk (endOwned_open_cases _ s _))

theorem execCommit_result (s : State) : ExecResult .commit s (execCommit s) :=
  prologue_result (.of_owned rfl respond_answersOk (endOwned_commit_cases s _))

theorem execClose_result (s : State) : ExecResult .close s (execClose s) := by
  refine prologue_result ?_
  rcases endOwned_release_cases s (fun _ t => respond statusOk 0 [] { t with scope := .idle }) with
    h | ⟨h, hrst⟩ <;> rw [h]
  · exact .ok rfl
  · exact .reset hrst

theorem execWaitdrain_result (d : Word) (s : State) :
    ExecResult (.waitdrain d) s (execWaitdrain d s) := by
  refine prologue_result ?_
  rcases pollLoop_cases d.toNat 0 s with ⟨u, v, st, h, -, -, hst⟩ | hfail
  · rw [h]
    refine .answered rfl (?_ : IsAnswer st)
    rcases hst with rfl | rfl <;> decide
  · exact hfail.result rfl

theorem execAdvance_result (d : Word) (s : State) :
    ExecResult (.advance d) s (execAdvance d s) := by
  refine prologue_result ?_
  split
  · exact .answered (raiseFault_rsp s _ _) (by decide : IsAnswer faultAdvanceOverrun)
  · exact .ok rfl

/-- A stream operation's run of exchanges: its failure leaves scope and line as they were. -/
theorem endStream_result {i : Instr} {s : State} (out : List Byte)
    {rdata : List Byte → List Byte} {ok : List Byte → State → State} (hi : isStream i = true)
    (hok : AnswersOk ok) : ExecResult i s (endStream (burst out s) rdata ok) := by
  rcases endStream_cases out s rdata ok with ⟨got, u, h, -⟩ | ⟨e, got, u, h, wire, hsel⟩ |
    ⟨u, h, -, hrst⟩ | ⟨h, hhang⟩ <;> rw [h]
  · exact hok.result i s got u
  · exact .failed rfl
      { ring := wire.same.ring_respond _ _ _ u.scope
        fault := wire.same.fault_respond _ _ _ u.scope
        stays := fun _ => ⟨wire.same.scope, hsel⟩
        releases := fun h => by rw [hi] at h; cases h }
  · exact .reset hrst
  · exact .stuck hhang

theorem streamOp_result {i : Instr} {s : State} {allowed : Scope → Bool} (out : List Byte)
    {rdata : List Byte → List Byte} {ok : List Byte → State → State} (hi : isStream i = true)
    (hok : AnswersOk ok) :
    ExecResult i s (prologue allowed s (endStream (burst out s) rdata ok)) :=
  prologue_result (endStream_result out hi hok)

theorem execSwrblk_result (d : Word) (s : State) : ExecResult (.swrblk d) s (execSwrblk d s) := by
  refine prologue_result ?_
  split
  · exact endStream_result s.wdata rfl respond_answersOk
  · next hlen => exact .refused rfl hlen

/-- Every operation, from every state, ends in one of the ways of `ExecResult`. -/
theorem exec_result (i : Instr) (s : State) : ExecResult i s (exec i s) := by
  cases i with
  | rd8 | rd16 | rd32 | wr8 | wr16 | wr32 | hostcmd | free =>
    exact frameOp_result _ rfl respond_answersOk
  | openrd | openwr => exact openOp_result _ _ _ s rfl
  | close => exact execClose_result s
  | srd8 | srd16 | srd32 | srdblk | swr8 | swr16 | swr32 =>
    exact streamOp_result _ rfl respond_answersOk
  | swrblk d => exact execSwrblk_result d s
  | advance d => exact execAdvance_result d s
  | curptr | rinit => exact prologue_result (.ok rfl)
  | commit => exact execCommit_result s
  | waitdrain d => exact execWaitdrain_result d s
  | invalidWidth13 | invalidWidth23 | invalidWidth43 | invalidWidth53 =>
    exact raiseEncoding_result _ _ s

/-- Settles O38: of the ends of `ExecResult` the transport failure alone has status `0x02`. -/
theorem transportFailureKeepsRegisters : Obligations.TransportFailureKeepsRegisters := by
  intro i s t r _ hexec hrsp hst
  have hres := exec_result i s
  rw [hexec] at hres
  cases hres with
  | answered hp hstatus =>
    obtain rfl := Option.some.inj (hp.symm.trans hrsp)
    rw [hst] at hstatus
    exact absurd hstatus (by decide)
  | failed _ left => exact ⟨left.ring, left.fault, left.stays, left.releases⟩
  | reset turn => rw [resetBlock_rsp] at hrsp; cases hrsp

/-- Settles O45: a fault is the end `stuck` of `ExecResult`, a refusal the end `refused`. -/
theorem stopsOnlyWhereSpecSays : Obligations.StopsOnlyWhereSpecSays := by
  intro i s
  have hres := exec_result i s
  refine ⟨fun e he => ?_, fun e he => ?_⟩
  · rw [he] at hres
    cases hres with
    | stuck turn => exact turn
  · rw [he] at hres
    cases hres with
    | refused op length => exact ⟨rfl, _, op, length⟩

/-- The statuses of R180 and R181 that the block produces. -/
abbrev IsStatus (st : Byte) : Prop := st ∈ [0x00, 0x01, 0x02, 0x80, 0x81, 0x82, 0x83, 0x84]

theorem IsAnswer.isStatus {st : Byte} (h : IsAnswer st) : IsStatus st :=
  List.Sublist.subset (by decide) h

/-- An operation answers where every exchange returns, no reset cuts in and the port's contract is
kept (R195). -/
theorem exec_answers {i : Instr} {s : State} (hret : Returns s) (hrst : NoReset s)
    (hlen : ∀ d, i = .swrblk d → s.wdata.length = d.toNat) :
    ∃ t p, exec i s = .next t ∧ t.rsp = some p ∧ IsStatus p.status := by
  have hres := exec_result i s
  generalize exec i s = o at hres
  cases hres with
  | answered rsp status => exact ⟨_, _, rfl, rsp, status.isStatus⟩
  | failed rsp => exact ⟨_, _, rfl, rsp, (by decide : IsStatus 0x02)⟩
  | reset turn =>
    obtain ⟨v, hv, d, hd⟩ := turn
    exact absurd hd (hrst v hv d)
  | stuck turn =>
    obtain ⟨v, hv, hd⟩ := turn
    exact absurd hd (hret v hv)
  | refused op length => exact absurd (hlen _ op) length

/-- A request that keeps the port's contract brings a SWRBLK its `d` bytes (10_state.md R31). -/
theorem swrblk_wdata_length {r : Request} (h : r.wf) {d : Word}
    (hdec : decode r.req = .instr (.swrblk d)) : r.wdata.length = d.toNat := by
  have hop : opField r.req = 0x54 := by
    rcases decodeFields_cases (opField r.req) (aField r.req) (dField r.req) with
      ⟨i, hi, hcode⟩ | hres
    · obtain rfl := Decoded.instr.inj (hi.symm.trans hdec)
      exact hcode.symm
    · cases hres.symm.trans hdec
  have hd : dField r.req = d := by
    rw [decode, hop] at hdec
    exact Instr.swrblk.inj (Decoded.instr.inj hdec)
  exact ((if_pos hop).mp h).trans (congrArg BitVec.toNat hd)

theorem runRequest_answers {r : Request} {s : State} (hw : r.wf) (hwdata : s.wdata = r.wdata)
    (hret : Returns s) (hrst : NoReset s) :
    ∃ t p, runRequest r s = .next t ∧ t.rsp = some p ∧ IsStatus p.status := by
  cases hdec : decode r.req with
  | instr i =>
    rw [runRequest_instr hdec]
    refine exec_answers hret hrst fun d hd => ?_
    rw [hwdata]
    exact swrblk_wdata_length hw (hd ▸ hdec)
  | reserved op =>
    obtain ⟨t, p, ht, hrsp, hp⟩ := raiseEncoding_answers (code := faultReservedOp) op s (by decide)
    exact ⟨t, p, (runRequest_reserved hdec s).trans ht, hrsp, hp.isStatus⟩

theorem recordServed_of_rsp (r : Request) {s : State} {p : Response} (h : s.rsp = some p) :
    recordServed r s = { s with served := s.served ++ [(r, p)] } := by
  simp only [recordServed, h]

/-- Settles O44: the operation answers, and the port records the pair. -/
theorem everyRequestIsAnswered : Obligations.EveryRequestIsAnswered := by
  intro s r rest hin hw hret hrst
  obtain ⟨u, p, hu, hrsp, hp⟩ := runRequest_answers (s := accept r rest s) hw rfl hret hrst
  have hserved : u.served = s.served := runRequest_served r (accept r rest s) u hu
  have hrec := recordServed_of_rsp r hrsp
  refine ⟨recordServed r u, p, ?_, ?_, ?_, hp⟩
  · rw [step_request hin, hu]; rfl
  · rw [hrec]; exact hrsp
  · rw [hrec, ← hserved]

/-! What a failed exchange leaves in an operation of one frame (R186, 30_encoding.md R101, R102,
R104). -/

theorem NoResetAt.drop {n j : Nat} {s t : State} (h : NoResetAt (n + j) s)
    (ht : t.turns = s.turns.drop n) : NoResetAt j t := by
  intro u b hu
  rw [ht, List.getElem?_drop] at hu
  exact h u b hu

theorem Calm.drop {n m : Nat} {s t : State} (h : Calm (n + m) s)
    (ht : t.turns = s.turns.drop n) : Calm m t := by
  intro u hu
  rw [ht, List.take_drop] at hu
  exact h u (List.mem_of_mem_drop hu)

/-- A frame that ended at an exchange, the line not yet released: `got` was received for the first
bytes of `out`, and the exchange of `b` failed with `e`. -/
structure FrameCut (out got : List Byte) (b : Byte) (e : Word) (s t : State) : Prop where
  same : SameBlock s t
  trace : t.trace =
    s.trace ++ .sel true :: exchanges (out.take got.length) got ++ [.xchg b (.err e)]
  turns : t.turns = s.turns.drop (got.length + 2)

/-- What the frame leaves of the block once the line is released (R186). -/
structure FrameFailed (out got : List Byte) (b : Byte) (e : Word) (s t : State) : Prop where
  trace : t.trace = s.trace ++ failedFrame out got b e
  responds : Responds t 0x02 e []
  ring : KeepsRing s t
  fault : KeepsFault s t
  scope : t.scope = .idle
  sel : t.sel = false

/-- The opening of a frame ends at its exchange number `j`, the first that does not succeed. -/
theorem openFrame_fails {e : Word} {delivered : Bool} {c : Nat} (out : List Byte) (j : Nat)
    (s : State) (hj : j < out.length) (hcalm : Calm (j + 1) s)
    (hturn : s.turns[j + 1]? = some ⟨c, .fail e delivered⟩) :
    ∃ got b t, openFrame out s = .stop (.err e) got t ∧ got.length = j ∧ out[j]? = some b ∧
      FrameCut out got b e s t := by
  have hsel := selEvent_clean (on := true) hcalm.head
  obtain ⟨got, b, t, hrun, rfl, hb, hsame, -, hturns, htrace⟩ :=
    burst_fails out j (setSel true (takeTurn s)) hj (hcalm.tail rfl)
      (by simpa using hturn)
  refine ⟨got, b, t, ?_, rfl, hb,
    ((takeTurn_same s).trans (setSel_same true _)).trans hsame, ?_, ?_⟩
  · simp only [openFrame, hsel, Bus.bind, hrun, Bus.after, List.nil_append]
  · simpa using htrace
  · simpa using hturns

/-- The line is released whatever the turn says but a reset, and the failure is propagated. -/
theorem FrameCut.released {out got : List Byte} {b : Byte} {e : Word} {s u : State}
    (h : FrameCut out got b e s u) (hrst : NoResetAt (got.length + 2) s) (rest : List Byte)
    (ok : List Byte → State → State) :
    ∃ t, endOwned (.stop (.err e) rest u) ok = .next t ∧ FrameFailed out got b e s t := by
  have hrst' : NoResetAt 0 u := NoResetAt.drop (n := got.length + 2) hrst h.turns
  have hsame : SameBlock s (setSel false (takeTurn u)) :=
    h.same.trans ((takeTurn_same u).trans (setSel_same false _))
  refine ⟨respond statusTransportFailure e [] { setSel false (takeTurn u) with scope := .idle },
    by simp only [endOwned, selEvent_noReset hrst'],
    { trace := ?_
      responds := rfl
      ring := hsame.ring_respond _ _ _ .idle
      fault := hsame.fault_respond _ _ _ .idle
      scope := rfl
      sel := rfl }⟩
  have htrace : (setSel false (takeTurn u)).trace = u.trace ++ [.sel false] := rfl
  rw [respond_trace, htrace, h.trace]
  simp

theorem FrameCut.settleCommit {out got : List Byte} {b : Byte} {e : Word} {s u : State}
    (h : FrameCut out got b e s u) : FrameCut out got b e s (settleCommit u) :=
  ⟨h.same.trans (settleCommit_wire u).same, h.trace, h.turns⟩

theorem frame_of_openFrame_stop {out got : List Byte} {why : Stop} {s u : State}
    (h : openFrame out s = .stop why got u) : frame out s = .stop why got u := by
  have hbind : frame out s = (openFrame out s).bind (selEvent false) := rfl
  rw [hbind, h]
  rfl

theorem ownedOp_runs {s : State} {x y : Bus} {ok : List Byte → State → State} (hf : s.f = false)
    (hidle : s.scope = .idle) (h : x = y) :
    prologue needsIdle s (endOwned x ok) = endOwned y ok := by
  rw [prologue_runs _ hf (needsIdle_of_idle hidle), h]

theorem readTxn_of_stop {a : Word} {k : Nat} {got : List Byte} {why : Stop} {s u : State}
    (h : openFrame (busReadFrame s.cfg a k) s = .stop why got u) :
    readTxn a k s = .stop why got u := by
  rw [← readFrameBytes_eq] at h
  exact frame_of_openFrame_stop h

theorem writeTxn_of_stop {a v : Word} {k : Nat} {got : List Byte} {why : Stop} {s u : State}
    (h : openFrame (busWriteFrame s.cfg a (leBytes v k)) s = .stop why got u) :
    writeTxn a v k s = .stop why got u := by
  have hbytes : writeFrameBytes s.cfg a v k = busWriteFrame s.cfg a (leBytes v k) :=
    writeFrameBytes_eq _ _ _ _
  rw [← hbytes] at h
  exact frame_of_openFrame_stop h

theorem hostFrameBytes_eq (p : Params) (a d : Word) :
    hostFrameBytes p a d = [a.extractLsb' 0 8, d.extractLsb' 0 8, p.hcPad] := by
  rw [hostFrameBytes, lowByte_eq, lowByte_eq]

/-- An operation of one frame that is cut at an exchange goes on with that failure, COMMIT after it
has settled the device. -/
theorem exec_of_cut {i : Instr} {s u : State} {out got : List Byte} {b : Byte} {e : Word}
    (hown : ownBytes s i = some out) (hf : s.f = false) (hidle : s.scope = .idle)
    (hrun : openFrame out s = .stop (.err e) got u) (hcut : FrameCut out got b e s u) :
    ∃ v ok, exec i s = endOwned (.stop (.err e) got v) ok ∧ FrameCut out got b e s v := by
  have hread : ∀ a k (ok : List Byte → State → State), busReadFrame s.cfg a k = out →
      prologue needsIdle s (endOwned (readTxn a k s) ok) = endOwned (.stop (.err e) got u) ok := by
    rintro a k ok rfl
    exact ownedOp_runs hf hidle (readTxn_of_stop hrun)
  have hwrite : ∀ a v k (ok : List Byte → State → State),
      busWriteFrame s.cfg a (leBytes v k) = out →
      prologue needsIdle s (endOwned (writeTxn a v k s) ok) =
        endOwned (.stop (.err e) got u) ok := by
    rintro a v k ok rfl
    exact ownedOp_runs hf hidle (writeTxn_of_stop hrun)
  cases i with
  | rd8 a => exact ⟨u, _, hread a 1 _ (Option.some.inj hown), hcut⟩
  | rd16 a => exact ⟨u, _, hread a 2 _ (Option.some.inj hown), hcut⟩
  | rd32 a => exact ⟨u, _, hread a 4 _ (Option.some.inj hown), hcut⟩
  | wr8 a d => exact ⟨u, _, hwrite a d 1 _ (Option.some.inj hown), hcut⟩
  | wr16 a d => exact ⟨u, _, hwrite a d 2 _ (Option.some.inj hown), hcut⟩
  | wr32 a d => exact ⟨u, _, hwrite a d 4 _ (Option.some.inj hown), hcut⟩
  | openrd | openwr =>
    obtain rfl := Option.some.inj hown
    exact ⟨u, _, ownedOp_runs hf hidle hrun, hcut⟩
  | hostcmd a d =>
    obtain rfl := Option.some.inj hown
    rw [← hostFrameBytes_eq] at hrun
    exact ⟨u, _, ownedOp_runs hf hidle (frame_of_openFrame_stop hrun), hcut⟩
  | free => exact ⟨u, _, hread _ _ _ (Option.some.inj hown), hcut⟩
  | commit =>
    obtain rfl := Option.some.inj hown
    have htxn : commitTxn s = .stop (.err e) got (settleCommit u) := by
      exact congrArg (Bus.onErr settleCommit) (writeTxn_of_stop hrun)
    exact ⟨settleCommit u, _, ownedOp_runs hf hidle htxn, hcut.settleCommit⟩
  | _ => cases hown

/-- Settles O40: the frame is cut at exchange `j`, and its operation releases the line. -/
theorem failedExchangeEndsOwnFrame : Obligations.FailedExchangeEndsOwnFrame := by
  intro i s out e j c delivered hown hf hidle hj hcalm hturn hrst
  obtain ⟨got, b, u, hrun, rfl, hb, hcut⟩ := openFrame_fails out j s hj hcalm hturn
  obtain ⟨v, ok, hexec, hcut'⟩ := exec_of_cut hown hf hidle hrun hcut
  obtain ⟨t, ht, hfailed⟩ := hcut'.released hrst got ok
  exact ⟨t, got, b, hexec.trans ht, rfl, hb, hfailed.trace, hfailed.responds, hfailed.ring,
    hfailed.fault, hfailed.scope, hfailed.sel⟩

theorem busReadFrame_length (p : Params) (a : Word) (k : Nat) :
    (busReadFrame p a k).length = 3 + p.rdDummy + k := by
  rw [← readFrameBytes_eq, readFrameBytes_length]

/-- Settles O39: O40 for RD32. -/
theorem failedExchangeEndsReadFrame : Obligations.FailedExchangeEndsReadFrame := by
  intro s a e j c delivered hf hidle hj hcalm hturn hrst
  have hj' : j < (busReadFrame s.cfg a 4).length := by rw [busReadFrame_length]; omega
  obtain ⟨t, got, b, hexec, rfl, hb, htrace, hrest⟩ :=
    failedExchangeEndsOwnFrame (.rd32 a) s _ e j c delivered rfl hf hidle hj' hcalm hturn hrst
  refine ⟨t, got, b, hexec, rfl, hb, ?_, hrest⟩
  rw [htrace, failedFrame, List.append_assoc]

/-! What a failed exchange leaves in WAITDRAIN (R186, 41_ring_manager.md R160). -/

theorem Polled.nil (s : State) : Polled s s [] where
  same := .refl s
  sel h := absurd rfl h
  lengths := List.forall_mem_nil _
  trace := (List.append_nil _).symm
  turns := List.Subset.refl _
  device _ _ _ _ := rfl

/-- The turns of one poll. -/
abbrev pollTurns (p : Params) : Nat := 5 + p.rdDummy + xferBytes p

/-- Polls that all succeeded with a value other than `zext_32(CW)`. -/
structure PolledUnequal (s u : State) (polls : List (List Byte)) : Prop where
  polled : Polled s u polls
  unequal : ∀ got ∈ polls, pollValue s.cfg got ≠ zext32 s.cw
  turns : u.turns = s.turns.drop (polls.length * pollTurns s.cfg)

theorem PolledUnequal.nil (s : State) : PolledUnequal s s [] :=
  ⟨.nil s, List.forall_mem_nil _, by simp⟩

theorem PolledUnequal.snoc {s u v : State} {polls : List (List Byte)} {got : List Byte}
    (h : PolledUnequal s u polls) (hok : PollOk got u v)
    (hne : pollValue u.cfg got ≠ zext32 u.cw) : PolledUnequal s v (polls ++ [got]) := by
  have hcfg := h.polled.same.cfg
  refine ⟨h.polled.append hok.polled (List.cons_ne_nil _ _), fun x hx => ?_, ?_⟩
  · rcases List.mem_append.1 hx with hx | hx
    · exact h.unequal x hx
    · rw [List.mem_singleton.1 hx, ← hcfg, ← h.polled.same.cw]
      exact hne
  · rw [hok.turns, h.turns, List.drop_drop, readFrameBytes_length, hcfg, List.length_append,
      List.length_singleton, Nat.succ_mul, pollTurns]
    congr 1
    omega

/-- The loop over `k` calm polls: all were unequal and it goes on, or one of them was equal and
ended it. -/
theorem pollLoop_calm (k m i : Nat) {s : State} (hcalm : Calm (k * pollTurns s.cfg) s) :
    (∃ u polls, pollLoop (k + m) i s = pollLoop m (i + k) u ∧ polls.length = k ∧
      PolledUnequal s u polls) ∨
    (∃ u polls last,
      pollLoop (k + m) i s = .next (respond statusOk (zext32 (i + polls.length)) [] u) ∧
      polls.length < k ∧ (∀ got ∈ polls, pollValue s.cfg got ≠ zext32 s.cw) ∧
      pollValue s.cfg last = zext32 s.cw ∧ Polled s u (polls ++ [last])) := by
  induction k generalizing m with
  | zero => exact .inl ⟨s, [], by rw [Nat.zero_add, Nat.add_zero], rfl, .nil s⟩
  | succ k ih =>
    have hloop : pollLoop (k + 1 + m) i s = pollLoop (k + (m + 1)) i s := by
      rw [Nat.add_assoc, Nat.add_comm 1]
    rw [Nat.succ_mul] at hcalm
    rw [hloop]
    rcases ih (m + 1) (hcalm.mono (Nat.le_add_right _ _)) with
      ⟨u, polls, hrun, rfl, hun⟩ | ⟨u, polls, last, hrun, hlt, hend⟩
    · have hsame := hun.polled.same
      have hcalm' : Calm (pollTurns u.cfg) u := by
        rw [hsame.cfg]
        exact hcalm.drop hun.turns
      obtain ⟨got, v, hpoll, hok, -⟩ := readPtrTxn_calm 0 hcalm'
      by_cases hv : pollValue u.cfg got = zext32 u.cw
      · refine .inr ⟨v, polls, got, hrun.trans (pollLoop_equal hpoll hok hv), Nat.lt_succ_self _,
          hun.unequal, ?_, hun.polled.append hok.polled (List.cons_ne_nil _ _)⟩
        rwa [← hsame.cfg, ← hsame.cw]
      · refine .inl ⟨v, polls ++ [got], ?_, List.length_append, hun.snoc hok hv⟩
        exact hrun.trans (pollLoop_again hpoll hok hv)
    · exact .inr ⟨u, polls, last, hrun, Nat.lt_succ_of_lt hlt, hend⟩

theorem pollLoop_stop {left i : Nat} {why : Stop} {got : List Byte} {s t : State}
    (h : readPtrTxn s = .stop why got t) :
    pollLoop left i s = endOwned (.stop why got t) (fun _ t => t) := by
  unfold pollLoop
  simp only [h]

/-- What a poll of the pointer register sends. -/
abbrev pollBytes (p : Params) : List Byte := busReadFrame p (readPtrAddr p) (xferBytes p)

/-- The loop ends at a poll one of whose exchanges fails. -/
theorem pollLoop_fails {e : Word} {delivered : Bool} {c : Nat} (left i j : Nat) {s : State}
    (hj : j < 3 + s.cfg.rdDummy + xferBytes s.cfg) (hcalm : Calm (j + 1) s)
    (hturn : s.turns[j + 1]? = some ⟨c, .fail e delivered⟩) (hrst : NoResetAt (j + 2) s) :
    ∃ t got b, pollLoop left i s = .next t ∧ got.length = j ∧ (pollBytes s.cfg)[j]? = some b ∧
      FrameFailed (pollBytes s.cfg) got b e s t := by
  have hj' : j < (pollBytes s.cfg).length := by rwa [busReadFrame_length]
  obtain ⟨got, b, u, hrun, rfl, hb, hcut⟩ := openFrame_fails _ j s hj' hcalm hturn
  obtain ⟨t, ht, hfailed⟩ := hcut.released hrst got (fun _ t => t)
  exact ⟨t, got, b, (pollLoop_stop (readTxn_of_stop hrun)).trans ht, rfl, hb, hfailed⟩

/-- A failed frame after events that left the block's registers. -/
theorem SameBlock.keepsRing {s u t : State} (h : SameBlock s u) (k : KeepsRing u t) :
    KeepsRing s t :=
  ⟨k.cfg.trans h.cfg, k.w.trans h.w, k.cw.trans h.cw, k.lf.trans h.lf⟩

theorem SameBlock.keepsFault {s u t : State} (h : SameBlock s u) (k : KeepsFault u t) :
    KeepsFault s t :=
  ⟨k.f.trans h.f, k.fc.trans h.fc, k.fi.trans h.fi⟩

/-- Settles O41: `pollLoop_calm` for the `k` polls before, `pollLoop_fails` for the failing one. -/
theorem failedPollEndsWaitdrain : Obligations.FailedPollEndsWaitdrain := by
  intro s bound e k j c delivered hf hidle hk hj hcalm hturn hrst
  obtain ⟨m, hm⟩ := Nat.exists_eq_add_of_le hk
  have hexec := execWaitdrain_runs bound hf hidle
  rw [hm] at hexec
  rcases pollLoop_calm k m 0 (hcalm.mono (Nat.le_add_right _ _)) with
    ⟨u, polls, hloop, rfl, hun⟩ | ⟨u, polls, last, hloop, hlt, hne, heq, hpolled⟩
  · have hsame := hun.polled.same
    have hturns := hun.turns
    obtain ⟨t, got, b, ht, hlen, hb, hfailed⟩ :=
      pollLoop_fails (s := u) m (0 + polls.length) j (by rwa [hsame.cfg]) (hcalm.drop hturns)
        (by rw [hturns, List.getElem?_drop]; exact hturn) (NoResetAt.drop hrst hturns)
    have htrace := hfailed.trace
    rw [hsame.cfg] at hb htrace
    rw [hun.polled.trace] at htrace
    exact ⟨t, polls, (hexec.trans hloop).trans ht,
      fun got hgot => ⟨hun.polled.lengths got hgot, hun.unequal got hgot⟩,
      .inl ⟨rfl, hfailed.responds, got, b, hlen, hb, htrace⟩, hsame.keepsRing hfailed.ring,
      hsame.keepsFault hfailed.fault, hfailed.scope, hfailed.sel⟩
  · have hsame := hpolled.same
    have hlast := hpolled.lengths last (List.mem_append_right _ List.mem_cons_self)
    rw [Nat.zero_add] at hloop
    exact ⟨_, polls, hexec.trans hloop,
      fun got hgot => ⟨hpolled.lengths got (List.mem_append_left _ hgot), hne got hgot⟩,
      .inr ⟨hlt, rfl, last, hlast, heq, hpolled.trace⟩,
      hsame.ring_respond _ _ _ u.scope, hsame.fault_respond _ _ _ u.scope,
      hsame.scope.trans hidle, hpolled.sel (by simp)⟩

/-! What a failed exchange leaves in a stream (R186, 40_framer.md R136). -/

/-- A stream operation in its scope is its run of exchanges. -/
theorem exec_stream {i : Instr} {s : State} {out : List Byte} (hbytes : streamBytes s i = some out)
    (hf : s.f = false) (hscope : scopeAllows i s.scope = true) :
    ∃ ok, exec i s = endStream (burst out s) (failedRdata i) ok := by
  cases i with
  | srd8 | srd16 | srd32 | srdblk =>
    obtain rfl := Option.some.inj hbytes
    exact ⟨_, prologue_runs _ hf ((needsRdOpen_eq _).trans hscope)⟩
  | swr8 | swr16 | swr32 =>
    obtain rfl := Option.some.inj hbytes
    exact ⟨_, prologue_runs _ hf ((needsWrOpen_eq _).trans hscope)⟩
  | swrblk d =>
    obtain ⟨hlen, rfl⟩ : s.wdata.length = d.toNat ∧ s.wdata = out := by
      simpa [streamBytes] using hbytes
    exact ⟨_, (execSwrblk_eq hlen).trans (prologue_runs _ hf ((needsWrOpen_eq _).trans hscope))⟩
  | _ => cases hbytes

/-- Settles O42: the run ends at exchange `j`, and the operation answers there. -/
theorem failedExchangeEndsStream : Obligations.FailedExchangeEndsStream := by
  intro i s out e j c delivered hbytes hf hscope hj hcalm hturn
  obtain ⟨ok, hexec⟩ := exec_stream hbytes hf hscope
  obtain ⟨got, b, u, hrun, hlen, hb, hsame, hsel, -, htrace⟩ := burst_fails out j s hj hcalm hturn
  refine ⟨respond statusTransportFailure e (failedRdata i got) u, got, b, ?_, hlen, hb, htrace, rfl,
    hsame.ring_respond _ _ _ u.scope, hsame.fault_respond _ _ _ u.scope, hsame.scope, hsel⟩
  rw [hexec, hrun]
  rfl

end Sys2Proof.Machine

/-! SUPPORT. Reset at rest and in the middle of an operation (70_reset_and_hazards.md R211, R212):
what the reset event leaves of the device, and that an operation without a response ends in it. -/

namespace Sys2Proof.Machine

theorem step_rst {s : State} {rest : List Input} (hin : s.inputs = .rst :: rest) :
    step s = .next (takeReset rest s) := by
  simp only [step, hin]

/-- Dropping the line is the most that the reset event does to the device (R212). -/
theorem resetBlock_dev_cases (s : State) :
    (resetBlock s).dev = s.dev.deselect ∨ (resetBlock s).dev = s.dev := by
  rw [resetBlock_dev]
  exact ite_eq_or_eq _ _ _

/-- An open frame ends at reset; what the device has stored of it stays (R212). -/
theorem resetBlock_keeps_stored (s : State) :
    (resetBlock s).dev.mem = s.dev.mem ∧ (resetBlock s).dev.rp = s.dev.rp ∧
      (resetBlock s).dev.wp = s.dev.wp := by
  rcases resetBlock_dev_cases s with h | h <;> rw [h]
  · exact ⟨s.dev.deselect_mem, s.dev.deselect_rp, s.dev.deselect_wp⟩
  · exact ⟨rfl, rfl, rfl⟩

/-- Settles O46: the step is the reset event, whose fields the laws of the state list. -/
theorem resetInputResetsBlock : Obligations.ResetInputResetsBlock := by
  intro s rest hin
  exact ⟨takeReset rest s, step_rst hin, resetBlock_w _, resetBlock_cw _, resetBlock_lf _,
    resetBlock_scope _, resetBlock_sel _, resetBlock_f _, resetBlock_fc _, resetBlock_fi _,
    resetBlock_rsp _, resetBlock_cfg _, resetBlock_trace _,
    resetBlock_keeps_stored { s with inputs := rest }⟩

/-- Of the ends of `ExecResult` the reset event alone gives no response. -/
theorem exec_next_without_response {i : Instr} {s t : State} (hexec : exec i s = .next t)
    (hnone : t.rsp = none) : ∃ u, t = resetBlock u := by
  have hres := exec_result i s
  rw [hexec] at hres
  cases hres with
  | answered hrsp => cases hrsp.symm.trans hnone
  | failed hrsp => cases hrsp.symm.trans hnone
  | reset turn => exact ⟨_, rfl⟩

/-- Settles O47: an operation without a response ends in the reset event. -/
theorem abandonedOperationLeavesReset : Obligations.AbandonedOperationLeavesReset := by
  intro i s t hexec hnone
  obtain ⟨u, rfl⟩ := exec_next_without_response hexec hnone
  exact ⟨resetBlock_w u, resetBlock_cw u, resetBlock_lf u, resetBlock_scope u, resetBlock_sel u,
    resetBlock_f u, resetBlock_fc u, resetBlock_fi u⟩

end Sys2Proof.Machine
